-- ==== Sys2Proof/Word.lean ====
section
/-! DEFINITION. The word types of DPF. All quantities are unsigned (00_scope.md R6). -/

namespace Sys2Proof

/-- One byte of a byte space or of the wire. -/
abbrev Byte := BitVec 8

/-- A 16-bit value: a checksum or a size field. -/
abbrev Half := BitVec 16

/-- A 32-bit value of the register interface (10_state.md R14). -/
abbrev Word := BitVec 32

/-- A 24-bit colour: red in bits 23 to 16, green in 15 to 8, blue in 7 to 0 (10_state.md R29). -/
abbrev Colour := BitVec 24

end Sys2Proof
end

