-- ==== Sys2Proof/Syntax.lean ====
section
/-! DEFINITION. The syntax of DPF: the sixteen operations (30_encoding.md R73), the command word's
two fields (R72), the names of every location the host can reach (20_memory.md R40, R43), the host's
accesses and moves, and the host script notation (R76, R77). -/

namespace Sys2Proof

/-- The sixteen operations, in the order of the opcode map (30_encoding.md R73). The command word
carries no operand (R72): all operands are in registers and buffers. -/
inductive Instr where
  | nop | csum | csval
  | buildN | buildI | buildB
  | parse | parser | isvalid
  | penc | imgbuild | pdec
  | psplitS | psplitM | gbmode
  | clear
deriving DecidableEq, Repr

/-- The two fields of a command word (30_encoding.md R72): `OP` in bits 7 to 0, and bits 31 to 8,
which must be zero. -/
structure CommandWord where
  op : Byte
  upper : BitVec 24
deriving DecidableEq, Repr

/-- The nineteen registers, in register-map order (10_state.md R14). -/
inductive Reg where
  | ctrl | status | errcode | cmdid | imm | ilen | olen | rstart | rend | sum | expect
  | rcmd | rsize | plen | npix | bpp | soff | skipcnt | trailbits
deriving DecidableEq, Repr

/-- The six indexed spaces (20_memory.md R40). -/
inductive Space where
  | ibuf | obuf | hdr | gbm | pal | pix
deriving DecidableEq, Repr

/-- A location: a register, a cell of a space by its index, or a reserved offset of the window
(20_memory.md R43). -/
inductive Loc where
  | reg (r : Reg)
  | cell (sp : Space) (i : Nat)
  | reserved (offset : Nat)
deriving DecidableEq, Repr

/-- The value a host write carries: a literal, or the value the host's last read returned (so that a
`COPY`, 30_encoding.md R76, is a read followed by a write). -/
inductive Datum where
  | lit (v : Word)
  | lastRead
deriving DecidableEq, Repr

/-- One host access to the register window: `size` bytes at byte offset `offset`. The raw term may
name a width or an alignment the interface does not have (20_memory.md R44). -/
inductive Access where
  | read (size offset : Nat)
  | write (size offset : Nat) (value : Datum)
deriving DecidableEq, Repr

/-- The number of bytes an access moves. -/
def Access.size : Access → Nat
  | .read n _ => n
  | .write n _ _ => n

/-- The byte offset of an access. -/
def Access.offset : Access → Nat
  | .read _ o => o
  | .write _ o _ => o

/-- One move of the world outside DPF. -/
inductive Move where
  /-- One host access. -/
  | access (a : Access)
  /-- Read `STATUS` until `BUSY = 0` (30_encoding.md R76, the second half of `OP`). -/
  | poll
  /-- Copy the last byte-string result to `IBUF` and its length to `ILEN` (30_encoding.md R77, `LOOP`). -/
  | loop
  /-- The platform asserts reset (70_reset_and_hazards.md R190). -/
  | reset
deriving DecidableEq, Repr

/-- One statement of the host script notation (30_encoding.md R76). -/
inductive Stmt where
  /-- `WR <reg>, <value>` -/
  | wr (r : Reg) (v : Word)
  /-- `LD <space>, <bytes>` -/
  | ld (sp : Space) (bytes : List Byte)
  /-- `LDC <space>, <colours>` -/
  | ldc (sp : Space) (colours : List Colour)
  /-- `FILL <space>[a..b), <value>` -/
  | fill (sp : Space) (a b : Nat) (v : Word)
  /-- `OP <mnemonic>` -/
  | op (i : Instr)
  /-- `RD <reg>` -/
  | rd (r : Reg)
  /-- `COPY IBUF, OBUF[a..b)` -/
  | copy (a b : Nat)
  /-- `EXPECT <location> = <value>`, an assertion and not an access -/
  | expect (l : Loc) (v : Word)
deriving DecidableEq, Repr

/-- A pseudo-operation (30_encoding.md R77). -/
inductive Pseudo where
  /-- `BUILD <cmd>` -/
  | build (cmd : Byte)
  /-- `BUILD <cmd>, #<byte>` -/
  | buildByte (cmd byte : Byte)
  /-- `BUILD <cmd>, <bytes>` -/
  | buildBytes (cmd : Byte) (bytes : List Byte)
  /-- `IN <bytes>` -/
  | input (bytes : List Byte)
  /-- `LOOP` -/
  | loop
  /-- `VALIDATE <bytes>, <expected>` -/
  | validate (bytes : List Byte) (expected : Half)
deriving DecidableEq, Repr

end Sys2Proof
end

