-- ==== Sys2Proof/Config.lean ====
section
/-! DEFINITION. What this hardware fixes (00_scope.md R5) and what the spec leaves open: the free
values, which have no body. -/

namespace Sys2Proof

/-- Pixel grid width `W` (00_scope.md R5). -/
def Config.gridWidth : Nat := 16
/-- Pixel grid height `H` (00_scope.md R5). -/
def Config.gridHeight : Nat := 16
/-- `NPIXMAX = W*H`, the cells of the `PIX` space (00_scope.md R5). -/
def Config.npixMax : Nat := Config.gridWidth * Config.gridHeight
/-- `PAL_CAP`, the entries of the `PAL` space (00_scope.md R5). -/
def Config.palCap : Nat := 256
/-- `BUF_CAP`, the bytes in each of `IBUF` and `OBUF` (00_scope.md R5). -/
def Config.bufCap : Nat := 65539
/-- `HDR_LEN`, the bytes of the opaque image command header (00_scope.md R5). -/
def Config.hdrLen : Nat := 11
/-- The bytes of the `GBM` space (10_state.md R28). -/
def Config.gbmLen : Nat := 16
/-- `SBC_HDR`, the header bytes PSPLIT.S skips (00_scope.md R5). -/
def Config.sbcHdr : Nat := 10
/-- `SMBC_HDR`, the header bytes PSPLIT.M skips (00_scope.md R5). -/
def Config.smbcHdr : Nat := 9
/-- `START`, the start marker (00_scope.md R5). -/
def Config.startMarker : Byte := 0x01
/-- `END`, the end marker (00_scope.md R5). -/
def Config.endMarker : Byte := 0x02
/-- `MAGIC_CHECK`, the first response magic byte (00_scope.md R5). -/
def Config.magicCheck : Byte := 0x04
/-- `MAGIC_UNKNOWN`, the second response magic byte (00_scope.md R5). -/
def Config.magicUnknown : Byte := 0x55
/-- The bytes of the register window (20_memory.md R43). -/
def Config.windowBytes : Nat := 0x60000

/-- DESIGN CHOICE (log entry 3), safe. The value an unspecified location holds or an unspecified read
returns (93_implementation_defined.md U1): the `n`-th event that leaves something open gives location
`l` this value, cut to the location's width. No body: nothing can be proved of it. -/
opaque Config.freeValue (n : Nat) (l : Loc) : Word

/-- DESIGN CHOICE (log entry 2), safe. How many host moves come between a start step and its
completion step, for the `n`-th open event (70_reset_and_hazards.md R203). No body. -/
opaque Config.busyMoves (n : Nat) : Nat

/-- The number of cells of a space (20_memory.md R40). -/
def Config.cells : Space → Nat
  | .ibuf => Config.bufCap
  | .obuf => Config.bufCap
  | .hdr => Config.hdrLen
  | .gbm => Config.gbmLen
  | .pal => Config.palCap
  | .pix => Config.npixMax

end Sys2Proof
end

