-- ==== Sys2Proof/Machine/State.lean ====
section
/-! DEFINITION. The state of DPF (10_state.md R11), its reset value (R31), its typed errors
(60_exceptions.md R162) as data, and the reasons a step can stop. -/

namespace Sys2Proof.Machine

/-- The two phases (10_state.md R12); BUSY is visible as `STATUS.BUSY`. -/
inductive Phase where
  | idle | busy
deriving DecidableEq, Repr

/-- The thirteen errors of DPF (60_exceptions.md R162). Raising one is a next state, not a stop. -/
inductive ErrorName where
  | packetIncomplete | badStartMarker | badEndMarker | badMagic | badSize
  | checksumMismatch
  | payloadTooShort | emptyInput | emptyPalette | paletteOverflow
  | payloadTooLong | badOperand | illegalOp
deriving DecidableEq, Repr

/-- The four error classes (60_exceptions.md R161). -/
inductive ErrorClass where
  | packetParsing | packetChecksum | payload | hostInterface
deriving DecidableEq, Repr

/-- The two frame shapes (30_encoding.md R61, R63). -/
inductive Shape where
  | command | response
deriving DecidableEq, Repr

/-- The contents of a space of `w`-bit cells: the written cells with their indices, indices strictly
rising. A cell that is not listed is unwritten: it has no value an operation could use
(10_state.md R32). -/
abbrev Cells (w : Nat) := List (Nat × BitVec w)

/-- The canonical form of a space of `cap` cells: indices strictly rising and below `cap`. No entry can
equal what an unlisted cell reads as, since an unlisted cell reads as no value. -/
abbrev Cells.wf {w : Nat} (cap : Nat) (m : Cells w) : Prop :=
  (m.map Prod.fst).Pairwise (· < ·) ∧ ∀ c ∈ m, c.1 < cap

/-- The six spaces (20_memory.md R40). -/
structure Memory where
  /-- `IBUF`, the input byte string (10_state.md R27). -/
  ibuf : List Host.Cell
  /-- `OBUF`, the output byte string (10_state.md R27). -/
  obuf : List Host.Cell
  /-- `HDR`, the opaque image header (10_state.md R28). -/
  hdr : List Host.Cell
  /-- `GBM`, the GetBoxMode fields (10_state.md R28). -/
  gbm : List Host.Cell
  /-- `PAL`, the palette (10_state.md R29). -/
  pal : Cells 24
  /-- `PIX`, the pixel grid, row-major (10_state.md R29, R30). -/
  pix : Cells 24
deriving DecidableEq, Repr

/-- Every space has its canonical form and lists no cell outside it. -/
abbrev Memory.wf (m : Memory) : Prop :=
  Cells.wf (Config.cells .ibuf) m.ibuf ∧ Cells.wf (Config.cells .obuf) m.obuf ∧
  Cells.wf (Config.cells .hdr) m.hdr ∧ Cells.wf (Config.cells .gbm) m.gbm ∧
  Cells.wf (Config.cells .pal) m.pal ∧ Cells.wf (Config.cells .pix) m.pix

/-- Every cell of every space unwritten (10_state.md R31). -/
def Memory.unwritten : Memory :=
  { ibuf := [], obuf := [], hdr := [], gbm := [], pal := [], pix := [] }

/-- The state of DPF (10_state.md R11), with five fields of the model's own at the end. -/
structure State where
  /-- The phase (10_state.md R12). -/
  phase : Phase
  /-- The opcode latch `OPLATCH`, read at `CTRL` (10_state.md R13). -/
  opLatch : Word
  /-- `STATUS.DONE` (10_state.md R16). -/
  done : Bool
  /-- `STATUS.ERR` (10_state.md R16). -/
  err : Bool
  /-- `STATUS.VALID` (10_state.md R16). -/
  valid : Bool
  /-- `ERRCODE` (10_state.md R17). -/
  errcode : Byte
  /-- `CMDID` (10_state.md R18). -/
  cmdid : Byte
  /-- `IMM` (10_state.md R19). -/
  imm : Byte
  /-- `ILEN` (10_state.md R20). -/
  ilen : Word
  /-- `OLEN` (10_state.md R21). -/
  olen : Word
  /-- `RSTART` (10_state.md R22). -/
  rstart : Word
  /-- `REND` (10_state.md R22). -/
  rend : Word
  /-- `SUM` (10_state.md R23). -/
  sum : Half
  /-- `EXPECT` (10_state.md R23). -/
  expect : Half
  /-- `RCMD` (10_state.md R24). -/
  rcmd : Byte
  /-- `RSIZE` (10_state.md R24). -/
  rsize : Half
  /-- `PLEN` (10_state.md R26). -/
  plen : Word
  /-- `NPIX` (10_state.md R26). -/
  npix : Word
  /-- `BPP` (10_state.md R26). -/
  bpp : BitVec 4
  /-- `SOFF` (10_state.md R26). -/
  soff : Word
  /-- `SKIPCNT` (10_state.md R25). -/
  skipcnt : Word
  /-- `TRAILBITS` (10_state.md R25). -/
  trailbits : Word
  /-- The six spaces (20_memory.md R40). -/
  mem : Memory
  /-- MODEL (log entry 1): what the host and the platform do next, first move first. -/
  moves : List Move
  /-- MODEL (log entry 4): what the host's last read returned. -/
  rdata : Word
  /-- MODEL (log entry 2): how many host moves still precede the completion step. -/
  busyFor : Nat
  /-- MODEL (log entry 3): the number of the next open event, the argument of `Config.freeValue`. -/
  free : Nat
  /-- MODEL (log entry 8): the open event that gave every byte of `OBUF` that `mem` does not list the
  unspecified value it holds; `none` where such a byte is unwritten. -/
  obufOpen : Option Nat
deriving DecidableEq, Repr

/-- The machine after reset (10_state.md R31, 70_reset_and_hazards.md R191). The last five fields are the
model's own and start at DESIGN CHOICE values (log entries 1 to 4 and 8). -/
def State.reset : State :=
  { phase := .idle, opLatch := 0, done := false, err := false, valid := false, errcode := 0
    cmdid := 0, imm := 0, ilen := 0, olen := 0, rstart := 0, rend := 0, sum := 0, expect := 0
    rcmd := 0, rsize := 0, plen := 0, npix := BitVec.ofNat 32 Config.npixMax, bpp := 0, soff := 0
    skipcnt := 0, trailbits := 0, mem := Memory.unwritten
    moves := [], rdata := 0, busyFor := 0, free := 0, obufOpen := none }

/-- Why the computation of an operation ends without a result. -/
inductive Stop where
  /-- The operation raises a typed error: a next state (60_exceptions.md R163). -/
  | raised (e : ErrorName)
  /-- The operation's rule makes it read this unwritten cell (10_state.md R32). -/
  | unwritten (l : Loc)
deriving DecidableEq, Repr

/-- The computation of an operation on its input set: a result, a typed error, or an unwritten cell. -/
abbrev Result (α : Type) := Except Stop α

/-- The faults of the machine. No operation raises one: the typed errors are values in `ERRCODE`. -/
inductive Fault where
  /-- A host access outside the 0x60000-byte window at this offset (20_memory.md R43); raised by the host
  port. Safe: nothing of DPF exists there (log entry 12). -/
  | outsideWindow (offset : Nat)
deriving DecidableEq, Repr

/-- The runs the model rejects (70_reset_and_hazards.md R207). -/
inductive Refusal where
  /-- An instruction without a meaning. No arm of exec uses it. Safe. -/
  | notModelled (mnemonic : String)
  /-- A completion step would read this unwritten cell (10_state.md R32); raised by a meaning. Safe:
  the spec lets nothing be concluded from such a run. -/
  | unwrittenCell (l : Loc)
  /-- A host access in phase BUSY to something other than `STATUS` and `CTRL`
  (70_reset_and_hazards.md R194); raised by the host port. Safe: the host has no such move. -/
  | hostAccessWhileBusy (l : Loc)
  /-- A host access of the wrong width or alignment (20_memory.md R44); raised by the host port. Safe:
  the host has no such move. -/
  | accessShape (size offset : Nat)
deriving DecidableEq, Repr

end Sys2Proof.Machine
end

