-- ==== Sys2Proof/Machine/Bits.lean ====
section
/-! DEFINITION. The byte-order, colour and bit-stream helpers of 00_scope.md R6 and R8 and of
43_pixel_codec.md R130 to R133 and R142. -/

namespace Sys2Proof.Machine

/-- `lo8(v) = v[7:0]` (00_scope.md R6). -/
def lo8 (v : Half) : Byte := v.extractLsb' 0 8

/-- `hi8(v) = v[15:8]` (00_scope.md R6). -/
def hi8 (v : Half) : Byte := v.extractLsb' 8 8

/-- `le16(lo, hi) = lo + 256*hi` (00_scope.md R6, 20_memory.md R41). -/
def le16 (lo hi : Byte) : Half := hi ++ lo

/-- `rgb(c) = [c[23:16], c[15:8], c[7:0]]` (00_scope.md R8). -/
def rgb (c : Colour) : List Byte := [c.extractLsb' 16 8, c.extractLsb' 8 8, c.extractLsb' 0 8]

/-- `colour(r, g, b) = r*65536 + g*256 + b` (00_scope.md R8). -/
def colour (r g b : Byte) : Colour := (r ++ g) ++ b

/-- `bpp(n) = max(1, ceil(log2 n))`, by the whole table of 43_pixel_codec.md R130. -/
def bpp (n : Nat) : Nat :=
  if n ≤ 2 then 1
  else if n ≤ 4 then 2
  else if n ≤ 8 then 3
  else if n ≤ 16 then 4
  else if n ≤ 32 then 5
  else if n ≤ 64 then 6
  else if n ≤ 128 then 7
  else 8

/-- The lowest `b` bits of a number, bit 0 first (43_pixel_codec.md R132). -/
def bitsOf : Nat → Nat → List Bool
  | 0, _ => []
  | b + 1, v => (v % 2 == 1) :: bitsOf b (v / 2)

/-- The number whose bit `k` is entry `k` of the list: the inverse of `bitsOf`
(43_pixel_codec.md R133, R142). -/
def numberOf : List Bool → Nat
  | [] => 0
  | b :: bs => b.toNat + 2 * numberOf bs

/-- The bitstream cut into `n` groups of `b` bits, in order, each read with its first bit as bit 0. The
last group may be short (43_pixel_codec.md R133, R134, R142). -/
def groups (b : Nat) : Nat → List Bool → List Nat
  | 0, _ => []
  | n + 1, s => numberOf (s.take b) :: groups b n (s.drop b)

/-- The bitstream of a byte string: byte after byte, bit 0 of each byte first
(43_pixel_codec.md R142, 20_memory.md R42). -/
def bitsOfBytes (bytes : List Byte) : List Bool := (bytes.map fun d => bitsOf 8 d.toNat).flatten

end Sys2Proof.Machine
end

