-- ==== Sys2Proof/WellFormed.lean ====
section
/-! DEFINITION. The checks on raw terms: a command word (30_encoding.md R72) and a host access
(20_memory.md R43, R44). An operation has no operands, so every `Instr` is well formed. Which width the
accessed unit has is checked by the address decoder of Decode.lean. -/

namespace Sys2Proof

/-- Bits 31 to 8 of a command word are zero (30_encoding.md R72). -/
def CommandWord.upperZero (c : CommandWord) : Bool := c.upper == 0

/-- The opcodes of the opcode map (30_encoding.md R73). -/
def legalOpcodes : List Byte :=
  [0x00, 0x01, 0x02, 0x10, 0x11, 0x12, 0x18, 0x19, 0x1A, 0x20, 0x21, 0x22, 0x28, 0x29, 0x2A, 0x3F]

/-- The opcode is one of the sixteen (30_encoding.md R73). -/
def CommandWord.opKnown (c : CommandWord) : Bool := legalOpcodes.contains c.op

/-- A legal command word (30_encoding.md R74). -/
def CommandWord.wellFormed (c : CommandWord) : Bool := c.upperZero && c.opKnown

/-- The access lies in the window of 0x60000 bytes (20_memory.md R43). -/
def Access.insideWindow (a : Access) : Bool := decide (a.offset + a.size ≤ Config.windowBytes)

/-- The interface has one-byte and four-byte accesses only (20_memory.md R44). -/
def Access.sizeOk (a : Access) : Bool := a.size == 1 || a.size == 4

/-- The access is aligned to its width (20_memory.md R44). -/
def Access.aligned (a : Access) : Bool := a.offset % a.size == 0

/-- The three checks on an access that do not need the register map. -/
def Access.wellFormed (a : Access) : Bool := a.insideWindow && a.sizeOk && a.aligned

end Sys2Proof
end

