-- ==== Sys2Proof/Decode.lean ====
section
/-! DEFINITION. The decoder of a command word and its encoder (30_encoding.md R72 to R74), and the
decoder of a window offset and its encoder, the register map (20_memory.md R43, R44). -/

namespace Sys2Proof

/-- Why a command word is illegal (30_encoding.md R73). -/
inductive DecodeError where
  /-- Bits 31 to 8 are not all zero. -/
  | upperNotZero
  /-- The opcode is none of the sixteen. -/
  | unknownOpcode
deriving DecidableEq, Repr

/-- The fields of a command word (30_encoding.md R72). -/
def CommandWord.ofWord (w : Word) : CommandWord :=
  { op := w.extractLsb' 0 8, upper := w.extractLsb' 8 24 }

/-- A command word from its fields. -/
def CommandWord.toWord (c : CommandWord) : Word := c.upper ++ c.op

/-- The opcode map (30_encoding.md R73). -/
def opcodeMap : List (Byte × Instr) :=
  [ (0x00, .nop), (0x01, .csum), (0x02, .csval),
    (0x10, .buildN), (0x11, .buildI), (0x12, .buildB),
    (0x18, .parse), (0x19, .parser), (0x1A, .isvalid),
    (0x20, .penc), (0x21, .imgbuild), (0x22, .pdec),
    (0x28, .psplitS), (0x29, .psplitM), (0x2A, .gbmode),
    (0x3F, .clear) ]

/-- The operation a command word selects: a non-zero upper part is illegal, otherwise the opcode is
looked up (30_encoding.md R73). -/
def decode (w : Word) : Except DecodeError Instr :=
  let c := CommandWord.ofWord w
  if c.upper ≠ 0 then .error .upperNotZero
  else match opcodeMap.lookup c.op with
    | some i => .ok i
    | none => .error .unknownOpcode

/-- The opcode of an operation (30_encoding.md R73). -/
def opcode : Instr → Byte
  | .nop => 0x00
  | .csum => 0x01
  | .csval => 0x02
  | .buildN => 0x10
  | .buildI => 0x11
  | .buildB => 0x12
  | .parse => 0x18
  | .parser => 0x19
  | .isvalid => 0x1A
  | .penc => 0x20
  | .imgbuild => 0x21
  | .pdec => 0x22
  | .psplitS => 0x28
  | .psplitM => 0x29
  | .gbmode => 0x2A
  | .clear => 0x3F

/-- The command word of an operation (30_encoding.md R72). -/
def encode (i : Instr) : Word := CommandWord.toWord { op := opcode i, upper := 0 }

/-- The instruction the decoder reads from a row's bits, numbered as spec/opcode_table.json numbers
them. A command word is one 32-bit unit (20_memory.md R44), so no byte order enters. -/
def decodeTableWord (nbits w : Nat) : Option Instr :=
  let v := w % 2 ^ nbits
  if v < 2 ^ 32 then (decode (BitVec.ofNat 32 v)).toOption else none

/-- The offset of each register in the window (20_memory.md R43). -/
def Reg.offset : Reg → Nat
  | .ctrl => 0x00000
  | .status => 0x00004
  | .errcode => 0x00008
  | .cmdid => 0x0000C
  | .imm => 0x00010
  | .ilen => 0x00014
  | .olen => 0x00018
  | .rstart => 0x0001C
  | .rend => 0x00020
  | .sum => 0x00024
  | .expect => 0x00028
  | .rcmd => 0x0002C
  | .rsize => 0x00030
  | .plen => 0x00038
  | .npix => 0x0003C
  | .bpp => 0x00040
  | .soff => 0x00044
  | .skipcnt => 0x00048
  | .trailbits => 0x0004C

/-- The registers of the map by offset (20_memory.md R43). Offset 0x34 is reserved
(90_conflicts.md C8). -/
def regMap : List (Nat × Reg) :=
  [ (0x00, .ctrl), (0x04, .status), (0x08, .errcode), (0x0C, .cmdid), (0x10, .imm), (0x14, .ilen),
    (0x18, .olen), (0x1C, .rstart), (0x20, .rend), (0x24, .sum), (0x28, .expect), (0x2C, .rcmd),
    (0x30, .rsize), (0x38, .plen), (0x3C, .npix), (0x40, .bpp), (0x44, .soff), (0x48, .skipcnt),
    (0x4C, .trailbits) ]

/-- The offset of a space's cell 0 (20_memory.md R43). -/
def Space.base : Space → Nat
  | .hdr => 0x00080
  | .gbm => 0x000C0
  | .pal => 0x00400
  | .pix => 0x00800
  | .ibuf => 0x20000
  | .obuf => 0x40000

/-- The bytes of one unit of a space: one for a byte space, four for a colour space
(20_memory.md R43, R44). -/
def Space.unit : Space → Nat
  | .hdr => 1
  | .gbm => 1
  | .pal => 4
  | .pix => 4
  | .ibuf => 1
  | .obuf => 1

/-- The stored bits of a space's cell (20_memory.md R40). -/
def Space.bits : Space → Nat
  | .hdr => 8
  | .gbm => 8
  | .pal => 24
  | .pix => 24
  | .ibuf => 8
  | .obuf => 8

/-- The offset of a location in the window (20_memory.md R43). -/
def Loc.offset : Loc → Nat
  | .reg r => r.offset
  | .cell sp i => sp.base + sp.unit * i
  | .reserved o => o

/-- The access width a location demands; a reserved offset demands none (20_memory.md R44). -/
def Loc.unit : Loc → Option Nat
  | .reg _ => some 4
  | .cell sp _ => some sp.unit
  | .reserved _ => none

/-- Whether window offset `o` lies in space `sp`. -/
def Space.contains (sp : Space) (o : Nat) : Bool :=
  decide (sp.base ≤ o) && decide (o < sp.base + sp.unit * Config.cells sp)

/-- The location whose unit holds window offset `o` (20_memory.md R43). -/
def locate (o : Nat) : Loc :=
  if o < 0x80 then
    match regMap.lookup (o - o % 4) with
    | some r => .reg r
    | none => .reserved o
  else
    match [Space.hdr, .gbm, .pal, .pix, .ibuf, .obuf].find? (fun sp => sp.contains o) with
    | some sp => .cell sp ((o - sp.base) / sp.unit)
    | none => .reserved o

/-- Why an access is outside the interface (20_memory.md R43, R44). -/
inductive AccessError where
  /-- Some byte of the access is outside the window. -/
  | outsideWindow
  /-- The width is not that of the unit, the access is misaligned, or it straddles two units. -/
  | badShape
deriving DecidableEq, Repr

/-- The location an access reaches (20_memory.md R43, R44). -/
def decodeAccess (a : Access) : Except AccessError Loc :=
  if !a.insideWindow then .error .outsideWindow
  else if !(a.sizeOk && a.aligned) then .error .badShape
  else
    let l := locate a.offset
    match l.unit with
    | some n => if n = a.size then .ok l else .error .badShape
    | none => .ok l

end Sys2Proof
end

