-- ==== Sys2Proof/Machine/Flags.lean ====
section
/-! DEFINITION. Every flag of DPF: the `STATUS` word (10_state.md R16) and the error codes and classes
(60_exceptions.md R161, R162, R172). -/

namespace Sys2Proof.Machine

/-- The 32-bit value of `STATUS`: BUSY, DONE, ERR, VALID in bits 0 to 3, the rest zero
(10_state.md R16). -/
def statusWord (busy done err valid : Bool) : Word :=
  (0 : BitVec 28) ++ BitVec.ofBool valid ++ BitVec.ofBool err ++ BitVec.ofBool done ++ BitVec.ofBool busy

/-- What a host read of `STATUS` shows (10_state.md R16). -/
def statusOf (s : State) : Word := statusWord (s.phase == .busy) s.done s.err s.valid

/-- The numeric code of an error (60_exceptions.md R162). -/
def errorCode : ErrorName → Byte
  | .packetIncomplete => 0x11
  | .badStartMarker => 0x12
  | .badEndMarker => 0x13
  | .badMagic => 0x14
  | .badSize => 0x15
  | .checksumMismatch => 0x21
  | .payloadTooShort => 0x31
  | .emptyInput => 0x32
  | .emptyPalette => 0x33
  | .paletteOverflow => 0x34
  | .payloadTooLong => 0x41
  | .badOperand => 0x42
  | .illegalOp => 0x43

/-- The class of an error (60_exceptions.md R161, R162). -/
def errorClass : ErrorName → ErrorClass
  | .packetIncomplete => .packetParsing
  | .badStartMarker => .packetParsing
  | .badEndMarker => .packetParsing
  | .badMagic => .packetParsing
  | .badSize => .packetParsing
  | .checksumMismatch => .packetChecksum
  | .payloadTooShort => .payload
  | .emptyInput => .payload
  | .emptyPalette => .payload
  | .paletteOverflow => .payload
  | .payloadTooLong => .hostInterface
  | .badOperand => .hostInterface
  | .illegalOp => .hostInterface

/-- A protocol-level failure: class 1 or 2 (60_exceptions.md R161, R172). -/
def protocolLevel (e : ErrorName) : Bool :=
  match errorClass e with
  | .packetParsing => true
  | .packetChecksum => true
  | .payload => false
  | .hostInterface => false

end Sys2Proof.Machine
end

