-- ==== Sys2Proof/Machine/Ops.lean ====
section
/-! DEFINITION. The named operations over spaces and registers; reading and writing a location; the start
step, completion, and raising an error. -/

namespace Sys2Proof.Machine

/-! ### Spaces -/

/-- The value of cell `i`; `none` where nothing has written it (10_state.md R32). -/
def Cells.read {w : Nat} (m : Cells w) (i : Nat) : Option (BitVec w) := m.lookup i

/-- The space whose cells `a, a+1, …` hold the listed values and no other cell is written. -/
def Cells.ofList {w : Nat} : Nat → List (BitVec w) → Cells w
  | _, [] => []
  | a, v :: vs => (a, v) :: Cells.ofList (a + 1) vs

/-- Store the listed values at cells `a, a+1, …`; every other cell keeps its contents. -/
def Cells.writeRange {w : Nat} (m : Cells w) (a : Nat) (vs : List (BitVec w)) : Cells w :=
  m.filter (fun c => decide (c.1 < a)) ++
    (Cells.ofList a vs ++ m.filter (fun c => decide (a + vs.length ≤ c.1)))

/-- Store one cell. -/
def Cells.write {w : Nat} (m : Cells w) (i : Nat) (v : BitVec w) : Cells w := m.writeRange i [v]

/-- Every cell of space `sp` holds an unspecified value, the free value of open event `n`
(00_scope.md R7, 93_implementation_defined.md U1; log entry 7). -/
def Cells.unspecified {w : Nat} (n : Nat) (sp : Space) : Cells w :=
  Cells.ofList 0 ((List.range (Config.cells sp)).map fun i => (Config.freeValue n (.cell sp i)).setWidth w)

/-- Every written cell gets the free value of open event `n`; an unwritten one stays unwritten
(10_state.md R27, R32, 93_implementation_defined.md U1, U7; log entry 8). -/
def Cells.havoc {w : Nat} (n : Nat) (sp : Space) (m : Cells w) : Cells w :=
  m.map (fun c => (c.1, (Config.freeValue n (.cell sp c.1)).setWidth w))

/-! ### Locations -/

/-- A register as the host reads it: stored bits, the others zero (10_state.md R14). -/
def readReg (s : State) : Reg → Word
  | .ctrl => s.opLatch
  | .status => statusOf s
  | .errcode => s.errcode.setWidth 32
  | .cmdid => s.cmdid.setWidth 32
  | .imm => s.imm.setWidth 32
  | .ilen => s.ilen
  | .olen => s.olen
  | .rstart => s.rstart
  | .rend => s.rend
  | .sum => s.sum.setWidth 32
  | .expect => s.expect.setWidth 32
  | .rcmd => s.rcmd.setWidth 32
  | .rsize => s.rsize.setWidth 32
  | .plen => s.plen
  | .npix => s.npix
  | .bpp => s.bpp.setWidth 32
  | .soff => s.soff
  | .skipcnt => s.skipcnt
  | .trailbits => s.trailbits

/-- A host write to a register other than `CTRL`: a writable one stores its stored bits, a read-only one
ignores the write (10_state.md R14, R35). `CTRL` is `startStep`. -/
def writeReg (s : State) (r : Reg) (v : Word) : State :=
  match r with
  | .cmdid => { s with cmdid := v.setWidth 8 }
  | .imm => { s with imm := v.setWidth 8 }
  | .ilen => { s with ilen := v }
  | .rstart => { s with rstart := v }
  | .rend => { s with rend := v }
  | .expect => { s with expect := v.setWidth 16 }
  | .plen => { s with plen := v }
  | .npix => { s with npix := v }
  | .ctrl | .status | .errcode | .olen | .sum | .rcmd | .rsize | .bpp | .soff | .skipcnt | .trailbits => s

/-- The byte `OBUF[i]`; `none` where it is unwritten (10_state.md R32). A byte that is not listed holds an
unspecified value once an operation has stored one everywhere (93_implementation_defined.md U1; log
entry 8). -/
def obufByte (s : State) (i : Nat) : Option Byte :=
  match Cells.read s.mem.obuf i, s.obufOpen with
  | some v, _ => some v
  | none, some n =>
    if i < Config.bufCap then some ((Config.freeValue n (.cell .obuf i)).setWidth 8) else none
  | none, none => none

/-- A cell of a space, zero-extended; `none` where it is unwritten (10_state.md R32). -/
def readCell (s : State) (sp : Space) (i : Nat) : Option Word :=
  match sp with
  | .ibuf => (Cells.read s.mem.ibuf i).map (BitVec.setWidth 32)
  | .obuf => (obufByte s i).map (BitVec.setWidth 32)
  | .hdr => (Cells.read s.mem.hdr i).map (BitVec.setWidth 32)
  | .gbm => (Cells.read s.mem.gbm i).map (BitVec.setWidth 32)
  | .pal => (Cells.read s.mem.pal i).map (BitVec.setWidth 32)
  | .pix => (Cells.read s.mem.pix i).map (BitVec.setWidth 32)

/-- A host write to a cell: stored bits only; `OBUF` and `GBM` ignore it (10_state.md R27, R28, R35). -/
def writeCell (s : State) (sp : Space) (i : Nat) (v : Word) : State :=
  match sp with
  | .ibuf => { s with mem := { s.mem with ibuf := Cells.write s.mem.ibuf i (v.setWidth 8) } }
  | .hdr => { s with mem := { s.mem with hdr := Cells.write s.mem.hdr i (v.setWidth 8) } }
  | .pal => { s with mem := { s.mem with pal := Cells.write s.mem.pal i (v.setWidth 24) } }
  | .pix => { s with mem := { s.mem with pix := Cells.write s.mem.pix i (v.setWidth 24) } }
  | .obuf | .gbm => s

/-- What a location holds: a register's value, a cell's value, or `none` for an unwritten cell and for a
reserved offset. Frames and input sets are stated with it. -/
def State.peek (s : State) : Loc → Option Word
  | .reg r => some (readReg s r)
  | .cell sp i => readCell s sp i
  | .reserved _ => none

/-! ### Free values -/

/-- The free value of location `l` for this state's next open event, cut to `w` bits
(93_implementation_defined.md U1). -/
def State.any (s : State) (w : Nat) (l : Loc) : BitVec w := (Config.freeValue s.free l).setWidth w

/-! ### The phase machine (10_state.md R12, 44_system.md R152) -/

/-- The start step: the whole word is latched, legal or not; DONE, ERR, VALID and ERRCODE are cleared; the
phase is BUSY (10_state.md R12, R15). This is also how an earlier error ends (60_exceptions.md R165): DPF
has no return from an error. -/
def startStep (w : Word) (s : State) : State :=
  { s with phase := .busy, opLatch := w, done := false, err := false, valid := false, errcode := 0
           busyFor := Config.busyMoves s.free, free := s.free + 1 }

/-- The end of a completion step that raised nothing: DONE set, ERR and ERRCODE zero, phase IDLE
(10_state.md R12, R16, R17). VALID is left as it is. -/
def complete (s : State) : State :=
  { s with phase := .idle, done := true, err := false, errcode := 0 }

/-- Raising an error: the end of a completion step whose other output locations `s` already holds as
free values. Nothing is saved, there is no handler to go to (60_exceptions.md R163). -/
def raiseError (e : ErrorName) (s : State) : State :=
  { s with phase := .idle, done := true, err := true, valid := false, errcode := errorCode e, olen := 0 }

/-- One completion step from the computation `r` of the operation: `commit` writes the output set, and
`havoc` leaves the output set unspecified where an error is raised. The open event's number is used up by
an error. A read of an unwritten cell is refused (10_state.md R32, 60_exceptions.md R163). -/
def finish {α : Type} (s : State) (r : Result α) (commit : α → State → State) (havoc : State → State) :
    Host.Outcome State Fault Refusal :=
  match r with
  | .ok a => .next (complete (commit a s))
  | .error (.raised e) => .next (raiseError e { havoc s with free := s.free + 1 })
  | .error (.unwritten l) => .refused (.unwrittenCell l)

/-- The completion step of an illegal command word: IllegalOp, with `STATUS`, `ERRCODE` and `OLEN` as the
whole output set (30_encoding.md R74, 60_exceptions.md R163). -/
def raiseIllegal (s : State) : State := raiseError .illegalOp s

/-! ### Writing output sets -/

/-- What `OBUF` lists once its bytes are unspecified: every byte that was ever stored holds a new free value,
listed here or, where `obufOpen` speaks for all of them, not (10_state.md R27). -/
def staleObuf (s : State) : List Host.Cell :=
  match s.obufOpen with
  | none => Cells.havoc s.free .obuf s.mem.obuf
  | some _ => []

/-- No byte of `OBUF` is a result any more: one that was ever stored holds a free value, the others stay
unwritten (93_implementation_defined.md U7, 70_reset_and_hazards.md R195; log entry 9). -/
def staleOutput (s : State) : State :=
  { s with mem := { s.mem with obuf := staleObuf s }, obufOpen := s.obufOpen.map fun _ => s.free }

/-- The byte-string result of an operation: `OBUF[0..OLEN)` and `OLEN`. Every byte from `OLEN` on is
unspecified (10_state.md R21, R27): one that was ever stored holds a free value, the others stay unwritten
(R32; log entry 8). -/
def setOutput (bytes : List Byte) (s : State) : State :=
  { staleOutput s with olen := BitVec.ofNat 32 bytes.length
                       mem := { s.mem with obuf := Cells.writeRange (staleObuf s) 0 bytes }
                       free := s.free + 1 }

/-- No byte-string result: `OLEN` is 0 and nothing is stored in `OBUF`, whose bytes, all at or beyond `OLEN`, are
unspecified (10_state.md R21, 93_implementation_defined.md U7). -/
def noOutput (s : State) : State := { staleOutput s with olen := 0, free := s.free + 1 }

/-- `OBUF` unspecified: every byte of it holds a free value, so none is listed (93_implementation_defined.md
U1, U5, U6; log entry 8). -/
def havocObuf (s : State) : State :=
  { s with mem := { s.mem with obuf := [] }, obufOpen := some s.free }

/-- `SUM` unspecified. -/
def havocSum (s : State) : State := { s with sum := s.any 16 (.reg .sum) }

/-- `RSIZE` unspecified. -/
def havocRsize (s : State) : State := { s with rsize := s.any 16 (.reg .rsize) }

/-- `RCMD` unspecified. -/
def havocRcmd (s : State) : State := { s with rcmd := s.any 8 (.reg .rcmd) }

/-- `PLEN` and `PAL` unspecified. -/
def havocPalette (s : State) : State :=
  { s with plen := s.any 32 (.reg .plen), mem := { s.mem with pal := Cells.unspecified s.free .pal } }

/-- `BPP` unspecified. -/
def havocBpp (s : State) : State := { s with bpp := s.any 4 (.reg .bpp) }

/-- `SOFF` unspecified. -/
def havocSoff (s : State) : State := { s with soff := s.any 32 (.reg .soff) }

/-- `PIX`, `SKIPCNT` and `TRAILBITS` unspecified. -/
def havocGrid (s : State) : State :=
  { s with skipcnt := s.any 32 (.reg .skipcnt), trailbits := s.any 32 (.reg .trailbits)
           mem := { s.mem with pix := Cells.unspecified s.free .pix } }

/-- `GBM` unspecified. -/
def havocGbm (s : State) : State := { s with mem := { s.mem with gbm := Cells.unspecified s.free .gbm } }

end Sys2Proof.Machine
end

