-- ==== Sys2Proof/Machine/Operands.lean ====
section
/-! DEFINITION. The operand forms of DPF's operations: an operand register as a natural number, a check
that raises an error, and the cells of a space that the host must have written (20_memory.md R52,
10_state.md R20, R22, R26, R32). -/

namespace Sys2Proof.Machine

/-- `if not c then raise e` (00_scope.md R7). -/
def require (c : Prop) [Decidable c] (e : ErrorName) : Result Unit :=
  if c then .ok () else .error (.raised e)

/-- One cell an operation reads; an unwritten one ends the computation (10_state.md R32). -/
def fetchCell {w : Nat} (sp : Space) (m : Cells w) (i : Nat) : Result (BitVec w) :=
  match Cells.read m i with
  | some v => .ok v
  | none => .error (.unwritten (.cell sp i))

/-- The cells `a .. a+n)` an operation reads, in order (00_scope.md R7, `MemRead`). -/
def fetchRange {w : Nat} (sp : Space) (m : Cells w) : Nat → Nat → Result (List (BitVec w))
  | _, 0 => .ok []
  | a, n + 1 => do
    let v ← fetchCell sp m a
    let vs ← fetchRange sp m (a + 1) n
    return v :: vs

/-- The byte `IBUF[i]`. -/
def ibufByte (s : State) (i : Nat) : Result Byte := fetchCell .ibuf s.mem.ibuf i

/-- The bytes `IBUF[a .. a+n)`. -/
def ibufBytes (s : State) (a n : Nat) : Result (List Byte) := fetchRange .ibuf s.mem.ibuf a n

/-- The header bytes `HDR[0..11)`. -/
def hdrBytes (s : State) : Result (List Byte) := fetchRange .hdr s.mem.hdr 0 Config.hdrLen

/-- The colours `PIX[0..n)`. -/
def pixColours (s : State) (n : Nat) : Result (List Colour) := fetchRange .pix s.mem.pix 0 n

/-- The palette entry `PAL[v]`. -/
def palEntry (s : State) (v : Nat) : Result Colour := fetchCell .pal s.mem.pal v

/-- `if ILEN > BUF_CAP then raise BadOperand` (10_state.md R20); the input length. -/
def inputLength (s : State) : Result Nat := do
  require (s.ilen.toNat ≤ Config.bufCap) .badOperand
  return s.ilen.toNat

/-- The range registers of CSUM and CSVAL (10_state.md R22): the bytes `IBUF[RSTART..REND)`. -/
def rangeBytes (s : State) : Result (List Byte) := do
  let n ← inputLength s
  require (s.rstart.toNat ≤ s.rend.toNat ∧ s.rend.toNat ≤ n) .badOperand
  ibufBytes s s.rstart.toNat (s.rend.toNat - s.rstart.toNat)

end Sys2Proof.Machine
end

