-- ==== Sys2Proof/Machine/Checksum.lean ====
section
/-! DEFINITION. The CSUM unit: the checksum function (40_checksum.md R90) and the operations CSUM (R91) and
CSVAL (R92). -/

namespace Sys2Proof.Machine

/-- `sum16(s)`: the arithmetic sum of the byte values modulo 65536 (40_checksum.md R90). -/
def sum16 (bytes : List Byte) : Half := BitVec.ofNat 16 (bytes.map BitVec.toNat).sum

/-- The output set of CSUM and CSVAL: `SUM`, and no byte string (40_checksum.md R91, R92). -/
def commitSum (bytes : List Byte) (s : State) : State := noOutput { s with sum := sum16 bytes }

/-- What an error of CSUM and CSVAL leaves: `SUM` unspecified, and `OBUF` with no result (log entry 9). -/
def havocChecked (s : State) : State := staleOutput (havocSum s)

/-- CSUM (40_checksum.md R91). -/
def execCsum (s : State) : Host.Outcome State Fault Refusal :=
  finish s (rangeBytes s) commitSum havocChecked

/-- CSVAL (40_checksum.md R92). A mismatch keeps the computed sum in `SUM`, the one exception to
60_exceptions.md R163. -/
def execCsval (s : State) : Host.Outcome State Fault Refusal :=
  match rangeBytes s with
  | .ok bytes =>
    finish (commitSum bytes s) (require (sum16 bytes = s.expect) .checksumMismatch) (fun _ t => t) id
  | .error e => finish s (.error e : Result Unit) (fun _ t => t) havocChecked

end Sys2Proof.Machine
end

