-- ==== Sys2Proof/Machine/Control.lean ====
section
/-! DEFINITION. The control operations NOP (44_system.md R150) and CLEAR (R151). -/

namespace Sys2Proof.Machine

/-- NOP: nothing but completion; `OLEN` and every result register stay (44_system.md R150). -/
def execNop (s : State) : Host.Outcome State Fault Refusal := .next (complete s)

/-- CLEAR: every result register and `STATUS` at its reset value, DONE not set; operand registers and all
spaces stay (44_system.md R151). -/
def execClear (s : State) : Host.Outcome State Fault Refusal :=
  .next { s with phase := .idle, done := false, err := false, valid := false, errcode := 0
                 olen := 0, sum := 0, rcmd := 0, rsize := 0, bpp := 0, soff := 0, skipcnt := 0
                 trailbits := 0 }

end Sys2Proof.Machine
end

