-- ==== Sys2Proof/Machine/Fields.lean ====
section
/-! DEFINITION. The FIELDS unit: the palette and image split (42_payload_fields.md R120 to R122) and the
GetBoxMode fields (R123). -/

namespace Sys2Proof.Machine

/-- What the payload split returns: the palette and the image bytes (42_payload_fields.md R122). -/
structure SplitPayload where
  palette : List Colour
  image : List Byte
deriving DecidableEq, Repr

/-- Bytes taken three at a time as colours, red first (42_payload_fields.md R122). -/
def coloursOf : List Byte → List Colour
  | r :: g :: b :: rest => colour r g b :: coloursOf rest
  | _ => []

/-- `split(d, n, h)` on `d = IBUF` (42_payload_fields.md R122). The header bytes are not looked at. -/
def splitPayload (s : State) (n h : Nat) : Result SplitPayload := do
  require (h + 1 ≤ n) .payloadTooShort
  let count ← ibufByte s h
  require (h + 1 + 3 * count.toNat ≤ n) .payloadTooShort
  let triples ← ibufBytes s (h + 1) (3 * count.toNat)
  let image ← ibufBytes s (h + 1 + 3 * count.toNat) (n - (h + 1 + 3 * count.toNat))
  return { palette := coloursOf triples, image := image }

/-- The computation of PSPLIT.S and PSPLIT.M with header length `h` (42_payload_fields.md R120, R121). -/
def splitInput (s : State) (h : Nat) : Result SplitPayload := do
  let n ← inputLength s
  splitPayload s n h

/-- The output set of a payload split: `PLEN`, `PAL[0..PLEN)`, `OBUF`, `OLEN`; later `PAL` entries keep
their contents (42_payload_fields.md R120). -/
def commitSplit (p : SplitPayload) (s : State) : State :=
  setOutput p.image
    { s with plen := BitVec.ofNat 32 p.palette.length
             mem := { s.mem with pal := Cells.writeRange s.mem.pal 0 p.palette } }

/-- The output set of a payload split left unspecified. -/
def havocSplit (s : State) : State := havocObuf (havocPalette s)

/-- PSPLIT.S: 10-byte header (42_payload_fields.md R120). -/
def execPsplitS (s : State) : Host.Outcome State Fault Refusal :=
  finish s (splitInput s Config.sbcHdr) commitSplit havocSplit

/-- PSPLIT.M: 9-byte header (42_payload_fields.md R121). -/
def execPsplitM (s : State) : Host.Outcome State Fault Refusal :=
  finish s (splitInput s Config.smbcHdr) commitSplit havocSplit

/-- The computation of GBMODE: the first sixteen input bytes (42_payload_fields.md R123). -/
def boxMode (s : State) : Result (List Byte) := do
  let n ← inputLength s
  require (Config.gbmLen ≤ n) .payloadTooShort
  ibufBytes s 0 Config.gbmLen

/-- The output set of GBMODE: the field at offset `i` of 30_encoding.md R68 goes to `GBM[i]`
(42_payload_fields.md R123). -/
def commitGbm (fields : List Byte) (s : State) : State :=
  noOutput { s with mem := { s.mem with gbm := Cells.ofList 0 fields } }

/-- What an error of GBMODE leaves: `GBM` unspecified, and `OBUF` with no result (log entry 9). -/
def havocBoxMode (s : State) : State := staleOutput (havocGbm s)

/-- GBMODE (42_payload_fields.md R123). -/
def execGbmode (s : State) : Host.Outcome State Fault Refusal :=
  finish s (boxMode s) commitGbm havocBoxMode

end Sys2Proof.Machine
end

