-- ==== Sys2Proof/Machine/Framer.lean ====
section
/-! DEFINITION. The FRAMER unit: building a command frame (41_framer.md R100 to R103), parsing a frame
(R104 to R106, R108) and the validity wrapper (R107). The wire formats are 30_encoding.md R60 to R64. -/

namespace Sys2Proof.Machine

/-- A built frame with the size and checksum it carries. -/
structure Built where
  frame : List Byte
  size : Half
  chk : Half
deriving DecidableEq, Repr

/-- The envelope around the bytes after the size field: start marker, size, the bytes, checksum over the
body, end marker; the size counts itself and the bytes (30_encoding.md R60, R62, R64). -/
def envelope (inner : List Byte) : Built :=
  let size := BitVec.ofNat 16 (inner.length + 2)
  let body := lo8 size :: hi8 size :: inner
  let chk := sum16 body
  { frame := Config.startMarker :: body ++ [lo8 chk, hi8 chk, Config.endMarker], size := size, chk := chk }

/-- `build_frame(cmd, p)` with `len(p) = n` (41_framer.md R100): the length is tested before the payload is
read. -/
def buildFrame (cmd : Byte) (n : Nat) (payload : Result (List Byte)) : Result Built := do
  require (n + 3 ≤ 65535) .payloadTooLong
  let p ← payload
  return envelope (cmd :: p)

/-- The output set of a BUILD operation (41_framer.md R101 to R103). -/
def commitBuilt (b : Built) (s : State) : State :=
  setOutput b.frame { s with rsize := b.size, sum := b.chk }

/-- The output set of a BUILD operation left unspecified. -/
def havocBuilt (s : State) : State := havocObuf (havocSum (havocRsize s))

/-- BUILD.N: empty payload (41_framer.md R101). -/
def execBuildN (s : State) : Host.Outcome State Fault Refusal :=
  finish s (buildFrame s.cmdid 0 (.ok [])) commitBuilt havocBuilt

/-- BUILD.I: the one byte in `IMM` (41_framer.md R102). -/
def execBuildI (s : State) : Host.Outcome State Fault Refusal :=
  finish s (buildFrame s.cmdid 1 (.ok [s.imm])) commitBuilt havocBuilt

/-- The computation of BUILD.B (41_framer.md R103). -/
def buildInput (s : State) : Result Built := do
  let n ← inputLength s
  let b ← buildFrame s.cmdid n (ibufBytes s 0 n)
  require (n + 7 ≤ Config.bufCap) .badOperand
  return b

/-- BUILD.B: the bytes `IBUF[0..ILEN)` (41_framer.md R103). -/
def execBuildB (s : State) : Host.Outcome State Fault Refusal :=
  finish s (buildInput s) commitBuilt havocBuilt

/-- The bytes needed to read start, size, command id and magic: `hdr` (41_framer.md R104). -/
def headerBytes : Shape → Nat
  | .command => 4
  | .response => 6

/-- The smallest size that leaves the fields apart: `min` (41_framer.md R104, R108). -/
def minSize : Shape → Nat
  | .command => 3
  | .response => 5

/-- The index of the command id (41_framer.md R104 step 8). -/
def commandIndex : Shape → Nat
  | .command => 3
  | .response => 4

/-- What a successful parse returns (41_framer.md R104 step 8). -/
structure Parsed where
  cmd : Byte
  payload : List Byte
  size : Half
deriving DecidableEq, Repr

/-- Step 6: the magic bytes of a response frame, `b[3]` and `b[5]` (41_framer.md R104, 30_encoding.md R63). -/
def checkMagic (s : State) : Shape → Result Unit
  | .command => .ok ()
  | .response => do
    let m0 ← ibufByte s 3
    let m1 ← ibufByte s 5
    require (m0 = Config.magicCheck ∧ m1 = Config.magicUnknown) .badMagic

/-- `parse_frame(IBUF[0..n), n, shape)`, its eight steps in order (41_framer.md R104). -/
def parseFrame (s : State) (n : Nat) (shape : Shape) : Result Parsed := do
  require (headerBytes shape ≤ n) .packetIncomplete
  let lo ← ibufByte s 1
  let hi ← ibufByte s 2
  let size := (le16 lo hi).toNat
  require (size + 4 ≤ n) .packetIncomplete
  let start ← ibufByte s 0
  require (start = Config.startMarker) .badStartMarker
  let stop ← ibufByte s (size + 3)
  require (stop = Config.endMarker) .badEndMarker
  require (minSize shape ≤ size ∧ n ≤ size + 4) .badSize
  checkMagic s shape
  let body ← ibufBytes s 1 size
  let chkLo ← ibufByte s (size + 1)
  let chkHi ← ibufByte s (size + 2)
  require (sum16 body = le16 chkLo chkHi) .checksumMismatch
  let cmd ← ibufByte s (commandIndex shape)
  let payload ← ibufBytes s (minSize shape + 1) (size - minSize shape)
  return { cmd := cmd, payload := payload, size := le16 lo hi }

/-- The computation of PARSE and PARSER (41_framer.md R105, R106). -/
def parseInput (s : State) (shape : Shape) : Result Parsed := do
  let n ← inputLength s
  parseFrame s n shape

/-- The output set of a parse (41_framer.md R105). -/
def commitParsed (p : Parsed) (s : State) : State :=
  setOutput p.payload { s with rcmd := p.cmd, rsize := p.size }

/-- The output set of a parse left unspecified (41_framer.md R105, R107). -/
def havocParsed (s : State) : State := havocObuf (havocRcmd (havocRsize s))

/-- PARSE (41_framer.md R105). -/
def execParse (s : State) : Host.Outcome State Fault Refusal :=
  finish s (parseInput s .command) commitParsed havocParsed

/-- PARSER (41_framer.md R106). -/
def execParser (s : State) : Host.Outcome State Fault Refusal :=
  finish s (parseInput s .response) commitParsed havocParsed

/-- The conversion of ISVALID: a protocol-level failure becomes `false`, any other error stays one
(41_framer.md R107, 60_exceptions.md R172). -/
def verdict : Result Parsed → Result Bool
  | .ok _ => .ok true
  | .error (.raised e) => if protocolLevel e then .ok false else .error (.raised e)
  | .error (.unwritten l) => .error (.unwritten l)

/-- The output set of ISVALID: `VALID`, with `RCMD`, `RSIZE` and `OBUF` unspecified in both outcomes
(41_framer.md R107). -/
def commitValid (v : Bool) (s : State) : State :=
  { havocParsed s with valid := v, olen := 0, free := s.free + 1 }

/-- ISVALID (41_framer.md R107). -/
def execIsvalid (s : State) : Host.Outcome State Fault Refusal :=
  finish s (verdict (parseInput s .command)) commitValid havocParsed

end Sys2Proof.Machine
end

