-- ==== Sys2Proof/Machine/PixelCodec.lean ====
section
/-! DEFINITION. The PIXCODEC unit: palette extraction and bit packing (43_pixel_codec.md R130 to R135), PENC
(R136), IMGBUILD (R141), unpacking (R142) and PDEC (R143). -/

namespace Sys2Proof.Machine

/-- Palette extraction: `pal` holds the colours seen so far, in first-seen order; the result is the whole
palette and the index of each scanned colour (43_pixel_codec.md R131). -/
def extractFrom (pal : List Colour) : List Colour → List Colour × List Nat
  | [] => (pal, [])
  | c :: cs =>
    if c ∈ pal then
      let r := extractFrom pal cs
      (r.1, pal.idxOf c :: r.2)
    else
      let r := extractFrom (pal ++ [c]) cs
      (r.1, pal.length :: r.2)

/-- `extract(c, m)` (43_pixel_codec.md R131). -/
def extract (colours : List Colour) : List Colour × List Nat := extractFrom [] colours

/-- The bitstream of the palette indices, `b` bits each, bit 0 first (43_pixel_codec.md R132). -/
def indexBits (b : Nat) (idx : List Nat) : List Bool := (idx.map (bitsOf b)).flatten

/-- The bitstream cut into bytes, its first bit in bit 0, the last byte completed with zero bits
(43_pixel_codec.md R133, R134). -/
def packBits (bits : List Bool) : List Byte :=
  (groups 8 ((bits.length + 7) / 8) bits).map (BitVec.ofNat 8)

/-- `table(N, pal)`: the count byte `N mod 256`, then the RGB triples (43_pixel_codec.md R135,
30_encoding.md R69). -/
def paletteTable (pal : List Colour) : List Byte :=
  BitVec.ofNat 8 (pal.length % 256) :: (pal.map rgb).flatten

/-- What PENC computes: the palette, the bits per pixel, the stream (43_pixel_codec.md R136). -/
structure Encoded where
  palette : List Colour
  bits : Nat
  stream : List Byte
deriving DecidableEq, Repr

/-- The image payload: table, then stream (43_pixel_codec.md R135, 30_encoding.md R65). -/
def Encoded.bytes (e : Encoded) : List Byte := paletteTable e.palette ++ e.stream

/-- The computation of PENC (43_pixel_codec.md R136, R138, R139). -/
def encodePixels (s : State) : Result Encoded := do
  require (s.npix.toNat ≤ Config.npixMax) .badOperand
  require (s.npix.toNat ≠ 0) .emptyInput
  let colours ← pixColours s s.npix.toNat
  let x := extract colours
  require (x.1.length ≤ Config.palCap) .paletteOverflow
  let b := bpp x.1.length
  return { palette := x.1, bits := b, stream := packBits (indexBits b x.2) }

/-- The part of the output set PENC and IMGBUILD share: `PLEN`, `PAL[0..PLEN)`, `BPP`, and `SOFF` with the
bytes before the table given; later `PAL` entries keep their contents (43_pixel_codec.md R136, R141). -/
def commitPalette (before : Nat) (e : Encoded) (s : State) : State :=
  { s with plen := BitVec.ofNat 32 e.palette.length
           bpp := BitVec.ofNat 4 e.bits
           soff := BitVec.ofNat 32 (before + (1 + 3 * e.palette.length))
           mem := { s.mem with pal := Cells.writeRange s.mem.pal 0 e.palette } }

/-- That part left unspecified. -/
def havocEncoded (s : State) : State := havocObuf (havocPalette (havocBpp (havocSoff s)))

/-- The output set of PENC (43_pixel_codec.md R136). -/
def commitEncoded (e : Encoded) (s : State) : State := setOutput e.bytes (commitPalette 0 e s)

/-- PENC (43_pixel_codec.md R136). -/
def execPenc (s : State) : Host.Outcome State Fault Refusal :=
  finish s (encodePixels s) commitEncoded havocEncoded

/-- What IMGBUILD computes: PENC's result and the framed image (43_pixel_codec.md R141). -/
structure ImageFrame where
  enc : Encoded
  built : Built
deriving DecidableEq, Repr

/-- The computation of IMGBUILD: PENC's, then the header and the envelope (43_pixel_codec.md R141,
30_encoding.md R66). -/
def buildImage (s : State) : Result ImageFrame := do
  let e ← encodePixels s
  let header ← hdrBytes s
  return { enc := e, built := envelope (header ++ e.bytes) }

/-- The output set of IMGBUILD (43_pixel_codec.md R141). -/
def commitImage (f : ImageFrame) (s : State) : State :=
  commitBuilt f.built (commitPalette (3 + Config.hdrLen) f.enc s)

/-- The output set of IMGBUILD left unspecified. -/
def havocImage (s : State) : State := havocEncoded (havocBuilt s)

/-- IMGBUILD (43_pixel_codec.md R141). -/
def execImgbuild (s : State) : Host.Outcome State Fault Refusal :=
  finish s (buildImage s) commitImage havocImage

/-- One window: the palette entry of an index inside the palette, `none` for an index outside it
(43_pixel_codec.md R143, R144). -/
def windowColour (s : State) (v : Nat) : Result (Option Colour) :=
  if v < s.plen.toNat then (palEntry s v).map some else .ok none

/-- The windows in order, each looked up in the palette (43_pixel_codec.md R143). -/
def windowColours (s : State) : List Nat → Result (List (Option Colour))
  | [] => .ok []
  | v :: vs => do
    let c ← windowColour s v
    let cs ← windowColours s vs
    return c :: cs

/-- What PDEC computes: the bits per pixel, one entry per decoded window (`none` where the index was out of
bounds), and the bits not decoded (43_pixel_codec.md R143, R145). -/
structure Decoded where
  bits : Nat
  pixels : List (Option Colour)
  trailing : Nat
deriving DecidableEq, Repr

/-- The computation of PDEC (43_pixel_codec.md R142, R143). Only the bytes that hold whole windows of the
grid are read. -/
def decodePixels (s : State) : Result Decoded := do
  let n ← inputLength s
  require (s.plen.toNat ≤ Config.palCap) .badOperand
  require (s.plen.toNat ≠ 0) .emptyPalette
  let b := bpp s.plen.toNat
  let ndec := min Config.npixMax (8 * n / b)
  let bytes ← ibufBytes s 0 ((ndec * b + 7) / 8)
  let pixels ← windowColours s (groups b ndec (bitsOfBytes bytes))
  return { bits := b, pixels := pixels, trailing := 8 * n - ndec * b }

/-- The whole grid after PDEC: decoded colours, black where an index was out of bounds and where no window
reached (43_pixel_codec.md R143, R144, R146). -/
def Decoded.grid (d : Decoded) : List Colour :=
  d.pixels.map (fun c => c.getD 0) ++ List.replicate (Config.npixMax - d.pixels.length) 0

/-- The output set of PDEC: all 256 entries of `PIX`, `BPP`, `SKIPCNT`, `TRAILBITS`, and no byte string
(43_pixel_codec.md R143). -/
def commitDecoded (d : Decoded) (s : State) : State :=
  noOutput
    { s with bpp := BitVec.ofNat 4 d.bits
             skipcnt := BitVec.ofNat 32 (d.pixels.count none)
             trailbits := BitVec.ofNat 32 d.trailing
             mem := { s.mem with pix := Cells.ofList 0 d.grid } }

/-- The output set of PDEC left unspecified, and `OBUF` with no result (log entry 9). -/
def havocDecoded (s : State) : State := staleOutput (havocGrid (havocBpp s))

/-- PDEC (43_pixel_codec.md R143). -/
def execPdec (s : State) : Host.Outcome State Fault Refusal :=
  finish s (decodePixels s) commitDecoded havocDecoded

end Sys2Proof.Machine
end

