-- ==== Sys2Proof/Machine/Dispatch.lean ====
section
/-! DEFINITION. One arm per operation: the completion step of the operation the latch selects
(10_state.md R12). -/

namespace Sys2Proof.Machine

def exec (i : Instr) (s : State) : Host.Outcome State Fault Refusal :=
  match i with
  | .nop => Sys2Proof.Machine.execNop s
  | .csum => Sys2Proof.Machine.execCsum s
  | .csval => Sys2Proof.Machine.execCsval s
  | .buildN => Sys2Proof.Machine.execBuildN s
  | .buildI => Sys2Proof.Machine.execBuildI s
  | .buildB => Sys2Proof.Machine.execBuildB s
  | .parse => Sys2Proof.Machine.execParse s
  | .parser => Sys2Proof.Machine.execParser s
  | .isvalid => Sys2Proof.Machine.execIsvalid s
  | .penc => Sys2Proof.Machine.execPenc s
  | .imgbuild => Sys2Proof.Machine.execImgbuild s
  | .pdec => Sys2Proof.Machine.execPdec s
  | .psplitS => Sys2Proof.Machine.execPsplitS s
  | .psplitM => Sys2Proof.Machine.execPsplitM s
  | .gbmode => Sys2Proof.Machine.execGbmode s
  | .clear => Sys2Proof.Machine.execClear s

end Sys2Proof.Machine
end

