-- ==== Sys2Proof/Machine/Script.lean ====
section
/-! DEFINITION. What the statements of the host script notation make the host do (30_encoding.md R76) and
the expansions of the pseudo-operations (R77). -/

namespace Sys2Proof.Machine

/-- The host reads one location with the width it demands (20_memory.md R44). -/
def readMove (l : Loc) : Move := .access (.read (l.unit.getD 4) l.offset)

/-- The host writes one location with the width it demands (20_memory.md R44). -/
def writeMove (l : Loc) (d : Datum) : Move := .access (.write (l.unit.getD 4) l.offset d)

/-- Consecutive cells of a space, from `i` on, get the listed values. -/
def storeMoves (sp : Space) : Nat → List Word → List Move
  | _, [] => []
  | i, v :: vs => writeMove (.cell sp i) (.lit v) :: storeMoves sp (i + 1) vs

/-- `COPY IBUF, OBUF[a..a+n)`, from `IBUF[k]` on: each byte is read and then written. -/
def copyMoves (a k : Nat) : Nat → List Move
  | 0 => []
  | n + 1 =>
    readMove (.cell .obuf a) :: writeMove (.cell .ibuf k) .lastRead :: copyMoves (a + 1) (k + 1) n

/-- The moves of one statement (30_encoding.md R76). -/
def stmtMoves : Stmt → List Move
  | .wr r v => [writeMove (.reg r) (.lit v)]
  | .ld sp bytes => storeMoves sp 0 (bytes.map (BitVec.setWidth 32))
  | .ldc sp colours => storeMoves sp 0 (colours.map (BitVec.setWidth 32))
  | .fill sp a b v => storeMoves sp a (List.replicate (b - a) v)
  | .op i => [writeMove (.reg .ctrl) (.lit (encode i)), .poll]
  | .rd r => [readMove (.reg r)]
  | .copy a b => copyMoves a 0 (b - a)
  | .expect _ _ => []

/-- The expansion of a pseudo-operation, with `olen` the value of `OLEN` the host reads for `LOOP`
(30_encoding.md R77). -/
def expandPseudo (olen : Word) : Pseudo → List Stmt
  | .build c => [.wr .cmdid (c.setWidth 32), .op .buildN]
  | .buildByte c b => [.wr .cmdid (c.setWidth 32), .wr .imm (b.setWidth 32), .op .buildI]
  | .buildBytes c bytes =>
    [.ld .ibuf bytes, .wr .ilen (BitVec.ofNat 32 bytes.length), .wr .cmdid (c.setWidth 32), .op .buildB]
  | .input bytes => [.ld .ibuf bytes, .wr .ilen (BitVec.ofNat 32 bytes.length)]
  | .loop => [.copy 0 olen.toNat, .wr .ilen olen]
  | .validate bytes e =>
    [.ld .ibuf bytes, .wr .ilen (BitVec.ofNat 32 bytes.length), .wr .rstart 0,
     .wr .rend (BitVec.ofNat 32 bytes.length), .wr .expect (e.setWidth 32), .op .csval]

/-- The moves of `LOOP` once `OLEN` is known (30_encoding.md R77). -/
def loopMoves (olen : Word) : List Move := ((expandPseudo olen .loop).map stmtMoves).flatten

/-- The moves of a pseudo-operation; `LOOP` is expanded when the host comes to it. -/
def pseudoMoves : Pseudo → List Move
  | .loop => [.loop]
  | .build c => ((expandPseudo 0 (.build c)).map stmtMoves).flatten
  | .buildByte c b => ((expandPseudo 0 (.buildByte c b)).map stmtMoves).flatten
  | .buildBytes c bytes => ((expandPseudo 0 (.buildBytes c bytes)).map stmtMoves).flatten
  | .input bytes => ((expandPseudo 0 (.input bytes)).map stmtMoves).flatten
  | .validate bytes e => ((expandPseudo 0 (.validate bytes e)).map stmtMoves).flatten

/-- The assertion `EXPECT <location> = <value>`; every other statement asserts nothing
(30_encoding.md R76). -/
def stmtHolds (s : State) : Stmt → Bool
  | .expect l v => s.peek l == some v
  | .wr _ _ | .ld _ _ | .ldc _ _ | .fill _ _ _ _ | .op _ | .rd _ | .copy _ _ => true

end Sys2Proof.Machine
end

