-- ==== Sys2Proof/Machine/HostPort.lean ====
section
/-! DEFINITION. The host's side of a step: whose turn it is (10_state.md R12), the host's accesses
(20_memory.md R43 to R47), and reset (70_reset_and_hazards.md R190). -/

namespace Sys2Proof.Machine

/-- What the next step of the system is. -/
inductive Event where
  /-- Phase IDLE and the host does nothing. -/
  | rest
  /-- The host (or the platform) makes this move. -/
  | host (m : Move)
  /-- The completion step of the running operation. -/
  | completion
deriving DecidableEq, Repr

/-- Whose turn it is. In IDLE only the host moves; in BUSY the completion step comes after `busyFor` more
host moves, or at once when the host has none (10_state.md R12, 70_reset_and_hazards.md R203; log entries 1
and 2). -/
def nextEvent (s : State) : Event :=
  match s.phase, s.moves, s.busyFor with
  | .idle, [], _ => .rest
  | .idle, m :: _, _ => .host m
  | .busy, [], _ => .completion
  | .busy, _ :: _, 0 => .completion
  | .busy, m :: _, _ + 1 => .host m

/-- The stored bits of a location; a reserved offset is not cut (20_memory.md R43). -/
def locBits : Loc → Nat
  | .reg _ => 32
  | .cell sp _ => sp.bits
  | .reserved _ => 32

/-- What a host read of an unwritten cell or of a reserved offset returns: a free value of the unit's width
(10_state.md R32, 20_memory.md R43, 93_implementation_defined.md U4, U10). -/
def openRead (size : Nat) (l : Loc) (s : State) : Word :=
  BitVec.ofNat 32 ((Config.freeValue s.free l).toNat % 2 ^ min (locBits l) (8 * size))

/-- A host read: free of side effects on DPF (20_memory.md R45). -/
def hostRead (size : Nat) (l : Loc) (s : State) : State :=
  match s.peek l with
  | some v => { s with rdata := v }
  | none => { s with rdata := openRead size l s, free := s.free + 1 }

/-- A host write in phase IDLE: a write to `CTRL` is the start step, every other write only stores
(20_memory.md R45); a reserved offset ignores it (R43). -/
def hostWrite (l : Loc) (v : Word) (s : State) : State :=
  match l with
  | .reg .ctrl => startStep v s
  | .reg r => writeReg s r v
  | .cell sp i => writeCell s sp i v
  | .reserved _ => s

/-- The value a host write carries. -/
def datumValue (s : State) : Datum → Word
  | .lit v => v
  | .lastRead => s.rdata

/-- An access outside the interface (20_memory.md R43, R44). -/
def accessStop (a : Access) : AccessError → Host.Outcome State Fault Refusal
  | .outsideWindow => .fault (.outsideWindow a.offset)
  | .badShape => .refused (.accessShape a.size a.offset)

/-- A host access in phase IDLE. -/
def idleAccess (a : Access) (s : State) : Host.Outcome State Fault Refusal :=
  match decodeAccess a with
  | .error e => accessStop a e
  | .ok l =>
    match a with
    | .read size _ => .next (hostRead size l s)
    | .write _ _ d => .next (hostWrite l (datumValue s d) s)

/-- A host access in phase BUSY: `STATUS` and `CTRL` may be read, a write to `CTRL` is dropped, a write to
`STATUS` is ignored as always; any other access is a breach of the host's duty and refused
(10_state.md R12, 20_memory.md R47, 70_reset_and_hazards.md R194, R207; log entries 10 and 11). -/
def busyAccess (a : Access) (s : State) : Host.Outcome State Fault Refusal :=
  match decodeAccess a with
  | .error e => accessStop a e
  | .ok l =>
    if l = .reg .ctrl ∨ l = .reg .status then
      match a with
      | .read size _ => .next (hostRead size l s)
      | .write _ _ _ => .next s
    else .refused (.hostAccessWhileBusy l)

/-- Reset, in either phase: every register and the phase at its reset value, every cell unwritten; an
operation in progress is abandoned (70_reset_and_hazards.md R190). What the outside world still does, what
the host has read and the count of open events are not DPF's and stay. -/
def resetStep (s : State) : State :=
  { State.reset with moves := s.moves, rdata := s.rdata, free := s.free }

/-- The state once the host's next move has been taken off the list; in BUSY the move also counts against
the time to completion. -/
def takeMove (s : State) : State := { s with moves := s.moves.tail, busyFor := s.busyFor - 1 }

/-- One host move. `poll` stays at the head of the list while it reads `BUSY = 1` (30_encoding.md R76);
`loop` reads `OLEN` and then goes on with the expansion of `LOOP` (R77). -/
def hostMove (m : Move) (s : State) : Host.Outcome State Fault Refusal :=
  match m, s.phase with
  | .access a, .idle => idleAccess a (takeMove s)
  | .access a, .busy => busyAccess a (takeMove s)
  | .poll, .idle => .next (hostRead 4 (.reg .status) (takeMove s))
  | .poll, .busy => .next (hostRead 4 (.reg .status) { s with busyFor := s.busyFor - 1 })
  | .loop, .idle =>
    .next { takeMove s with rdata := s.olen, moves := loopMoves s.olen ++ s.moves.tail }
  | .loop, .busy => .refused (.hostAccessWhileBusy (.reg .olen))
  | .reset, _ => .next (resetStep (takeMove s))

end Sys2Proof.Machine
end

