-- ==== Sys2Proof/Machine/Step.lean ====
section
/-! DEFINITION. One step of the system: the host's next move, or the completion step of the operation the
latch selects, or rest (10_state.md R12). -/

namespace Sys2Proof.Machine

/-- The completion step: the operation the latched word selects, or IllegalOp (10_state.md R12,
30_encoding.md R74). -/
def completionStep (s : State) : Host.Outcome State Fault Refusal :=
  match decode s.opLatch with
  | .ok i => exec i s
  | .error _ => .next (raiseIllegal s)

/-- One step (10_state.md R12, 70_reset_and_hazards.md R207). -/
def step (s : State) : Host.Outcome State Fault Refusal :=
  match nextEvent s with
  | .rest => .next s
  | .host m => hostMove m s
  | .completion => completionStep s

/-- The state in which the start step has just accepted command word `w` and the completion step comes
next: DPF fetches no instructions, the latch is what it runs (10_state.md R13; log entry 15). -/
def State.withFetchWord (s : State) (nbits w : Nat) : State :=
  { startStep (BitVec.ofNat 32 (w % 2 ^ nbits)) s with busyFor := 0, free := s.free }

end Sys2Proof.Machine
end

