-- ==== Sys2Proof/Safety.lean ====
section
/-! DEFINITION. The terms claims are stated in: what a space holds, what a step leaves unchanged, the input
and output sets of every operation (10_state.md R33), and the invariant of the machine. -/

namespace Sys2Proof.Machine

/-- Cells `a, a+1, …` of a space hold exactly the listed values. -/
abbrev Holds {w : Nat} (m : Cells w) (a : Nat) (vs : List (BitVec w)) : Prop :=
  ∀ k, k < vs.length → Cells.read m (a + k) = vs[k]?

/-- `t` differs from `s` at most in the locations of `out` (registers and cells alike), and the outside
world's moves, what the host has read and the time to completion are the same. -/
def Unchanged (out : Loc → Prop) (s t : State) : Prop :=
  (∀ l, ¬ out l → t.peek l = s.peek l) ∧ t.moves = s.moves ∧ t.rdata = s.rdata ∧ t.busyFor = s.busyFor

/-- The locations that are one of the listed registers or a cell of one of the listed spaces. -/
def locs (regs : List Reg) (spaces : List Space) : Loc → Prop
  | .reg r => r ∈ regs
  | .cell sp _ => sp ∈ spaces
  | .reserved _ => False

/-- `STATUS`, `ERRCODE` and `OLEN`, which are in every output set but NOP's (10_state.md R33). -/
def outcomeRegs : List Reg := [.status, .errcode, .olen]

/-- The registers of an operation's output set, as its rule lists them (10_state.md R33). -/
def outputRegs : Instr → List Reg
  | .nop => [.status, .errcode]
  | .csum => .sum :: outcomeRegs
  | .csval => .sum :: outcomeRegs
  | .buildN => .sum :: .rsize :: outcomeRegs
  | .buildI => .sum :: .rsize :: outcomeRegs
  | .buildB => .sum :: .rsize :: outcomeRegs
  | .parse => .rcmd :: .rsize :: outcomeRegs
  | .parser => .rcmd :: .rsize :: outcomeRegs
  | .isvalid => .rcmd :: .rsize :: outcomeRegs
  | .penc => .plen :: .bpp :: .soff :: outcomeRegs
  | .imgbuild => .plen :: .bpp :: .soff :: .sum :: .rsize :: outcomeRegs
  | .pdec => .bpp :: .skipcnt :: .trailbits :: outcomeRegs
  | .psplitS => .plen :: outcomeRegs
  | .psplitM => .plen :: outcomeRegs
  | .gbmode => outcomeRegs
  | .clear => .sum :: .rcmd :: .rsize :: .bpp :: .soff :: .skipcnt :: .trailbits :: outcomeRegs

/-- The spaces of an operation's output set, as its rule lists them (10_state.md R33). -/
def outputSpaces : Instr → List Space
  | .nop | .csum | .csval | .clear => []
  | .buildN | .buildI | .buildB | .parse | .parser | .isvalid => [.obuf]
  | .penc | .imgbuild | .psplitS | .psplitM => [.pal, .obuf]
  | .pdec => [.pix]
  | .gbmode => [.gbm]

/-- `OBUF`, for the operations that write `OLEN` without a byte-string result: they store nothing in it, and leave
its bytes, all at or beyond `OLEN`, unspecified (93_implementation_defined.md U7, 70_reset_and_hazards.md R195; log
entry 9). CLEAR keeps them (44_system.md R151). -/
def staleSpaces : Instr → List Space
  | .csum | .csval | .pdec | .gbmode => [.obuf]
  | .nop | .buildN | .buildI | .buildB | .parse | .parser | .isvalid | .penc | .imgbuild | .psplitS | .psplitM
  | .clear => []

/-- What an operation may change: its output set (10_state.md R33) and the bytes of `OBUF` it leaves unspecified. -/
def outputs (i : Instr) : Loc → Prop := locs (outputRegs i) (outputSpaces i ++ staleSpaces i)

/-- No byte of `OBUF` was stored: the bytes that hold a value in `t` are those that did in `s` (10_state.md R32,
40_checksum.md R91, 43_pixel_codec.md R143). That such a byte may hold another value is log entry 9. -/
def ObufNotStored (s t : State) : Prop :=
  ∀ k, k < Config.bufCap → (t.peek (.cell .obuf k) = none ↔ s.peek (.cell .obuf k) = none)

/-- The registers of an operation's input set, as its rule lists them (10_state.md R33). -/
def inputRegs : Instr → List Reg
  | .nop | .clear => []
  | .csum => [.ilen, .rstart, .rend]
  | .csval => [.ilen, .rstart, .rend, .expect]
  | .buildN => [.cmdid]
  | .buildI => [.cmdid, .imm]
  | .buildB => [.cmdid, .ilen]
  | .parse | .parser | .isvalid | .psplitS | .psplitM | .gbmode => [.ilen]
  | .penc | .imgbuild => [.npix]
  | .pdec => [.plen, .ilen]

/-- The cells of an operation's input set, as its rule lists them: from which index up to which index of which
space (10_state.md R33, 70_reset_and_hazards.md R192). -/
def inputCells (s : State) : Instr → Space → Nat → Prop
  | .csum, .ibuf, k | .csval, .ibuf, k => s.rstart.toNat ≤ k ∧ k < s.rend.toNat
  | .buildB, .ibuf, k | .parse, .ibuf, k | .parser, .ibuf, k | .isvalid, .ibuf, k
  | .psplitS, .ibuf, k | .psplitM, .ibuf, k | .pdec, .ibuf, k => k < s.ilen.toNat
  | .gbmode, .ibuf, k => 16 ≤ s.ilen.toNat ∧ k < 16
  | .penc, .pix, k | .imgbuild, .pix, k => k < s.npix.toNat
  | .imgbuild, .hdr, k => k < 11
  | .pdec, .pal, k => k < s.plen.toNat
  | _, _, _ => False

/-- The input set of an operation in state `s` (10_state.md R33). -/
def inputs (i : Instr) (s : State) : Loc → Prop
  | .reg r => r ∈ inputRegs i
  | .cell sp k => inputCells s i sp k
  | .reserved _ => False

/-- The host has done its duty for operation `i`: every cell of the input set is written
(70_reset_and_hazards.md R192). -/
def InputsWritten (i : Instr) (s : State) : Prop := ∀ l, inputs i s l → s.peek l ≠ none

/-- The moves the host may make in phase BUSY: poll `STATUS`, or an access to `STATUS` or `CTRL`
(20_memory.md R47, 70_reset_and_hazards.md R194). -/
def AllowedInBusy : Move → Prop
  | .poll => True
  | .access a => ∃ l, decodeAccess a = .ok l ∧ (l = .reg .ctrl ∨ l = .reg .status)
  | .loop => False
  | .reset => False

/-- How `STATUS` and `ERRCODE` hang together (10_state.md R12, R16, R17). -/
def StatusLegal (s : State) : Prop :=
  (s.phase = .busy → s.done = false ∧ s.err = false ∧ s.valid = false) ∧
  (s.err = true → s.done = true ∧ ∃ e, s.errcode = errorCode e) ∧
  (s.err = false → s.errcode = 0) ∧
  (s.valid = true → s.done = true ∧ s.err = false)

/-- The output byte string `OBUF[0..OLEN)` fits the buffer and every byte of it is written
(10_state.md R21, R27). -/
def ResultWritten (s : State) : Prop :=
  s.olen.toNat ≤ Config.bufCap ∧ ∀ k, k < s.olen.toNat → s.peek (.cell .obuf k) ≠ none

/-- The invariant every step keeps. -/
def State.Inv (s : State) : Prop := s.mem.wf ∧ StatusLegal s ∧ ResultWritten s

/-- Running the whole system `k` steps from `s` ends in state `t`. -/
def RunsTo (k : Nat) (s t : State) : Prop := Host.Core.run Sys2Proof.core k s = .next t

/-! ### How an operation ends -/

/-- The operation ended without an error: DONE set, ERR and ERRCODE zero, VALID as the start step left it,
phase IDLE (10_state.md R12, R16, R17). -/
def Succeeded (s t : State) : Prop :=
  t.phase = .idle ∧ t.done = true ∧ t.err = false ∧ t.valid = s.valid ∧ t.errcode = 0

/-- The operation raised `e` (60_exceptions.md R163). -/
def Failed (e : ErrorName) (t : State) : Prop :=
  t.phase = .idle ∧ t.done = true ∧ t.err = true ∧ t.valid = false ∧ t.errcode = errorCode e ∧ t.olen = 0

/-- The byte-string result: `OLEN` and `OBUF[0..OLEN)` (10_state.md R21, R27). -/
def OutputIs (t : State) (bytes : List Byte) : Prop :=
  t.olen.toNat = bytes.length ∧ Holds t.mem.obuf 0 bytes

/-- The input byte string: `ILEN`, at most `BUF_CAP`, and `IBUF[0..ILEN)` (10_state.md R20). -/
def InputIs (s : State) (bytes : List Byte) : Prop :=
  s.ilen.toNat = bytes.length ∧ bytes.length ≤ 65539 ∧ Holds s.mem.ibuf 0 bytes

/-- The palette after an operation that found the colours `pal`: `PLEN`, `PAL[0..PLEN)`, and every later entry
as before. -/
def PaletteIs (s t : State) (pal : List Colour) : Prop :=
  t.plen.toNat = pal.length ∧ Holds t.mem.pal 0 pal ∧
  ∀ k, pal.length ≤ k → t.peek (.cell .pal k) = s.peek (.cell .pal k)

/-! ### The wire formats, written from 30_encoding.md and 41_framer.md alone -/

/-- The arithmetic sum of the byte values (40_checksum.md R90, before the reduction). -/
def byteSum (bytes : List Byte) : Nat := (bytes.map BitVec.toNat).sum

/-- The bytes `b[i..j)` (00_scope.md R6). -/
def slice (b : List Byte) (i j : Nat) : List Byte := (b.drop i).take (j - i)

/-- The command frame of id `c` and payload `p` (30_encoding.md R61). -/
def commandFrame (c : Byte) (p : List Byte) : List Byte :=
  let size := p.length + 3
  let chk := (size % 256 + size / 256 + c.toNat + byteSum p) % 65536
  [0x01, BitVec.ofNat 8 (size % 256), BitVec.ofNat 8 (size / 256), c] ++ p ++
    [BitVec.ofNat 8 (chk % 256), BitVec.ofNat 8 (chk / 256), 0x02]

/-- The size field of a frame, little-endian (20_memory.md R41). -/
def declaredSize (b : List Byte) : Nat := (b.getD 1 0).toNat + 256 * (b.getD 2 0).toNat

/-- The bytes before the payload of a frame: start, size, command id, and the magic bytes of a response
(30_encoding.md R61, R63). -/
def payloadStart : Shape → Nat
  | .command => 4
  | .response => 6

/-- The index of the command id (30_encoding.md R61, R63). -/
def idIndex : Shape → Nat
  | .command => 3
  | .response => 4

/-- The error parsing the byte string `b` raises, the seven checks of 41_framer.md R104 in order; `none` where
the parse succeeds. -/
def frameError (shape : Shape) (b : List Byte) : Option ErrorName :=
  let n := b.length
  let size := declaredSize b
  if n < payloadStart shape then some .packetIncomplete
  else if n < size + 4 then some .packetIncomplete
  else if b.getD 0 0 ≠ 0x01 then some .badStartMarker
  else if b.getD (size + 3) 0 ≠ 0x02 then some .badEndMarker
  else if size < payloadStart shape - 1 ∨ n > size + 4 then some .badSize
  else if shape = .response ∧ (b.getD 3 0 ≠ 0x04 ∨ b.getD 5 0 ≠ 0x55) then some .badMagic
  else if byteSum (slice b 1 (size + 1)) % 65536 ≠
      (b.getD (size + 1) 0).toNat + 256 * (b.getD (size + 2) 0).toNat then some .checksumMismatch
  else none

/-- Byte `j` of `f` with its bit `k` inverted. -/
def flipBit (f : List Byte) (j k : Nat) : List Byte :=
  f.set j (f.getD j 0 ^^^ BitVec.ofNat 8 (2 ^ k))

/-! ### The pixel codec, written from 43_pixel_codec.md alone -/

/-- Bit `q` of the bitstream of indices of `b` bits each: `idx[q div b][q mod b]` (43_pixel_codec.md R132,
R136). -/
def streamBit (b : Nat) (idx : List Nat) (q : Nat) : Bool :=
  decide (q < idx.length * b) && (idx.getD (q / b) 0).testBit (q % b)

/-- `index(i)`, window `i` of the stream bytes `d` (43_pixel_codec.md R142). -/
def windowIndex (b : Nat) (d : List Byte) (i : Nat) : Nat :=
  ((List.range b).map fun k =>
    if (d.getD ((i * b + k) / 8) 0).getLsbD ((i * b + k) % 8) then 2 ^ k else 0).sum

/-- The number of windows PDEC decodes: `min(W*H, floor(8*n / b))` (43_pixel_codec.md R143). -/
def windowCount (b n : Nat) : Nat := min 256 (8 * n / b)

/-- `rev8(v)`: bit `k` of the result is bit `7 - k` of `v` (00_scope.md R8). -/
def rev8 (v : Byte) : Byte := v.reverse

end Sys2Proof.Machine
end

