-- ==== Sys2Proof/Certificates/Slice0/Obligations.lean ====
section
/-! DEFINITION. The statements for the provers. Each docstring names the rule it formalises. -/

open Sys2Proof Sys2Proof.Machine

/-! ### Reset, the phase machine, the host port -/

/-- R31, R191: every register and the phase at its reset value (`NPIX` 256, the others 0), every cell
unwritten. -/
def Obligations.ResetLeavesTheStatedValues : Prop :=
  State.reset.phase = .idle ∧
  (∀ r, readReg State.reset r = if r = .npix then 256 else 0) ∧
  ∀ sp i, State.reset.peek (.cell sp i) = none

/-- The reset state meets the invariant every step keeps. -/
def Obligations.ResetMeetsTheInvariant : Prop := State.reset.Inv

/-- Every step of the system keeps the invariant: canonical memory, the relations R16 and R17 state between
phase, DONE, ERR, VALID and ERRCODE, and the result `OBUF[0..OLEN)` within the buffer and written. -/
def Obligations.EveryStepKeepsTheInvariant : Prop :=
  ∀ s t, s.Inv → step s = .next t → t.Inv

/-- R12, R13: when the completion step is due, the operation that runs is the one the latched word selects. -/
def Obligations.CompletionStepRunsTheLatchedOperation : Prop :=
  ∀ s i, s.phase = .busy → (s.moves = [] ∨ s.busyFor = 0) → decode s.opLatch = .ok i →
    step s = exec i s

/-- R74: a word that is not the word of one of the sixteen operations is latched by the start step, and its
completion step raises IllegalOp and changes nothing but `STATUS`, `ERRCODE` and `OLEN`. -/
def Obligations.IllegalWordRaisesIllegalOp : Prop :=
  ∀ w, (∀ i, encode i ≠ w) →
    (∀ s d ms, s.phase = .idle → s.moves = writeMove (.reg .ctrl) d :: ms → datumValue s d = w →
      ∃ t, step s = .next t ∧ t.phase = .busy ∧ t.opLatch = w) ∧
    (∀ s, s.phase = .busy → (s.moves = [] ∨ s.busyFor = 0) → s.opLatch = w →
      ∃ t, step s = .next t ∧ Failed .illegalOp t ∧
        Unchanged (locs [.status, .errcode, .olen] []) s t)

/-- R12, R15: a host write to `CTRL` in phase IDLE, of a literal or of the value last read, latches the word,
clears DONE, ERR, VALID and ERRCODE, sets phase BUSY and changes no other register and no cell. -/
def Obligations.CtrlWriteInIdleStartsTheOperation : Prop :=
  ∀ s d ms, s.phase = .idle → s.moves = writeMove (.reg .ctrl) d :: ms →
    ∃ t, step s = .next t ∧ t.opLatch = datumValue s d ∧ t.phase = .busy ∧ t.done = false ∧ t.err = false ∧
      t.valid = false ∧ t.errcode = 0 ∧ t.moves = ms ∧ t.rdata = s.rdata ∧
      ∀ l, l ∉ [Loc.reg .ctrl, .reg .status, .reg .errcode] → t.peek l = s.peek l

/-- R12, R152: a host write to `CTRL` in phase BUSY is dropped: only the host's list of moves gets shorter. -/
def Obligations.CtrlWriteInBusyIsDropped : Prop :=
  ∀ s d ms n, s.phase = .busy → s.busyFor = n + 1 → s.moves = writeMove (.reg .ctrl) d :: ms →
    step s = .next { s with moves := ms, busyFor := n }

/-- R47, R194, R207: in phase BUSY a host access to anything but `STATUS` and `CTRL` is a run the model rejects;
a read of those two returns what they hold and changes no location, and a write to `CTRL` changes none. That a
WRITE to `STATUS` goes on and changes none is the model's choice, log entry 10: R194 and R207 forbid accesses
other than to `STATUS` and `CTRL`, while R47 calls such a write a breach. -/
def Obligations.BusyHostAccessOnlyToStatusAndCtrl : Prop :=
  ∀ s a ms n l, s.phase = .busy → s.busyFor = n + 1 → s.moves = .access a :: ms →
    decodeAccess a = .ok l →
    (l ≠ .reg .ctrl ∧ l ≠ .reg .status → step s = .refused (.hostAccessWhileBusy l)) ∧
    (l = .reg .ctrl ∨ l = .reg .status →
      ∃ t, step s = .next t ∧ t.phase = .busy ∧ t.moves = ms ∧ t.busyFor = n ∧
        (∀ l', t.peek l' = s.peek l') ∧
        ∀ size offset, a = .read size offset → some t.rdata = s.peek l)

/-- R44: an access inside the window that is not one aligned access of the unit's own width is refused,
in either phase. -/
def Obligations.AccessOfTheWrongShapeIsRefused : Prop :=
  ∀ s a ms, (s.phase = .idle ∨ s.busyFor ≠ 0) → s.moves = .access a :: ms →
    a.offset + a.size ≤ 0x60000 →
    (a.size ≠ 1 ∧ a.size ≠ 4 ∨ a.offset % a.size ≠ 0 ∨
      ∃ n, (locate a.offset).unit = some n ∧ n ≠ a.size) →
    step s = .refused (.accessShape a.size a.offset)

/-- R43: an access with a byte outside the window of 0x60000 bytes ends the run by the model's fault, in either
phase (the spec gives it no meaning; log entry 12). -/
def Obligations.AccessOutsideTheWindowFaults : Prop :=
  ∀ s a ms, (s.phase = .idle ∨ s.busyFor ≠ 0) → s.moves = .access a :: ms →
    0x60000 < a.offset + a.size → step s = .fault (.outsideWindow a.offset)

/-- R43: every register and every cell stands at its offset of the register map, an access of its width at that
offset reaches it, and every other offset is reserved. That a reserved offset may be reached by a one-byte access
is the model's choice, log entry 13: R43 gives a reserved offset no unit. -/
def Obligations.RegisterMapReachesEveryLocation : Prop :=
  (∀ p ∈ [(0x00000, Reg.ctrl), (0x00004, .status), (0x00008, .errcode), (0x0000C, .cmdid), (0x00010, .imm),
      (0x00014, .ilen), (0x00018, .olen), (0x0001C, .rstart), (0x00020, .rend), (0x00024, .sum),
      (0x00028, .expect), (0x0002C, .rcmd), (0x00030, .rsize), (0x00038, .plen), (0x0003C, .npix),
      (0x00040, .bpp), (0x00044, .soff), (0x00048, .skipcnt), (0x0004C, .trailbits)],
    decodeAccess (.read 4 p.1) = .ok (.reg p.2)) ∧
  (∀ i, i < 11 → decodeAccess (.read 1 (0x00080 + i)) = .ok (.cell .hdr i)) ∧
  (∀ i, i < 16 → decodeAccess (.read 1 (0x000C0 + i)) = .ok (.cell .gbm i)) ∧
  (∀ i, i < 256 → decodeAccess (.read 4 (0x00400 + 4 * i)) = .ok (.cell .pal i)) ∧
  (∀ i, i < 256 → decodeAccess (.read 4 (0x00800 + 4 * i)) = .ok (.cell .pix i)) ∧
  (∀ i, i < 65539 → decodeAccess (.read 1 (0x20000 + i)) = .ok (.cell .ibuf i)) ∧
  (∀ i, i < 65539 → decodeAccess (.read 1 (0x40000 + i)) = .ok (.cell .obuf i)) ∧
  ∀ o, (0x00034 ≤ o ∧ o < 0x00038 ∨ 0x00050 ≤ o ∧ o < 0x00080 ∨ 0x0008B ≤ o ∧ o < 0x000C0 ∨
      0x000D0 ≤ o ∧ o < 0x00400 ∨ 0x00C00 ≤ o ∧ o < 0x20000 ∨ 0x30003 ≤ o ∧ o < 0x40000 ∨
      0x50003 ≤ o ∧ o < 0x60000) →
    decodeAccess (.read 1 o) = .ok (.reserved o)

/-- R43: a write to a reserved offset, of a literal or of the value last read, is ignored. Which widths reach a
reserved offset is the model's choice (log entry 13). -/
def Obligations.ReservedOffsetsIgnoreWrites : Prop :=
  ∀ s size o o' d ms, s.phase = .idle → s.moves = .access (.write size o d) :: ms →
    decodeAccess (.write size o d) = .ok (.reserved o') →
    ∃ t, step s = .next t ∧ t.phase = .idle ∧ t.moves = ms ∧ ∀ l, t.peek l = s.peek l

/-- R45: a host read in phase IDLE answers a next state in which every register and every cell is as before, and
it returns what the location holds, where it holds something. -/
def Obligations.HostReadHasNoSideEffect : Prop :=
  ∀ s size offset ms l, s.phase = .idle → s.moves = .access (.read size offset) :: ms →
    decodeAccess (.read size offset) = .ok l →
    ∃ t, step s = .next t ∧ t.phase = .idle ∧ t.moves = ms ∧ (∀ l', t.peek l' = s.peek l') ∧
      ∀ v, s.peek l = some v → t.rdata = v

/-- R14, R16, R35: what each location holds for the host. `CTRL` holds the latch; `STATUS` has BUSY, DONE, ERR and
VALID in bits 0 to 3 and zeros above; every other register and every written cell holds its own stored bits with
zeros above. -/
def Obligations.LocationsHoldTheirStoredBits : Prop :=
  ∀ s : State, s.peek (.reg .ctrl) = some s.opLatch ∧
    (∃ w, s.peek (.reg .status) = some w ∧ w.getLsbD 0 = decide (s.phase = .busy) ∧ w.getLsbD 1 = s.done ∧
      w.getLsbD 2 = s.err ∧ w.getLsbD 3 = s.valid ∧ ∀ k, 4 ≤ k → w.getLsbD k = false) ∧
    (∀ p ∈ [(Reg.errcode, s.errcode.toNat), (.cmdid, s.cmdid.toNat), (.imm, s.imm.toNat),
        (.ilen, s.ilen.toNat), (.olen, s.olen.toNat), (.rstart, s.rstart.toNat), (.rend, s.rend.toNat),
        (.sum, s.sum.toNat), (.expect, s.expect.toNat), (.rcmd, s.rcmd.toNat), (.rsize, s.rsize.toNat),
        (.plen, s.plen.toNat), (.npix, s.npix.toNat), (.bpp, s.bpp.toNat), (.soff, s.soff.toNat),
        (.skipcnt, s.skipcnt.toNat), (.trailbits, s.trailbits.toNat)],
      ∃ w, s.peek (.reg p.1) = some w ∧ w.toNat = p.2) ∧
    (∀ p ∈ [(Space.ibuf, s.mem.ibuf), (.obuf, s.mem.obuf), (.hdr, s.mem.hdr), (.gbm, s.mem.gbm)], ∀ k v,
      Cells.read p.2 k = some v → ∃ w, s.peek (.cell p.1 k) = some w ∧ w.toNat = v.toNat) ∧
    ∀ p ∈ [(Space.pal, s.mem.pal), (.pix, s.mem.pix)], ∀ k v,
      Cells.read p.2 k = some v → ∃ w, s.peek (.cell p.1 k) = some w ∧ w.toNat = v.toNat

/-- R45, R48: two host reads of one location with nothing between them return the same value, unless the location
is an unwritten cell or a reserved offset (R32, R43). -/
def Obligations.TwoReadsOfOneLocationAgree : Prop :=
  ∀ s size offset ms l, s.phase = .idle →
    s.moves = .access (.read size offset) :: .access (.read size offset) :: ms →
    decodeAccess (.read size offset) = .ok l → s.peek l ≠ none →
    ∃ t u, step s = .next t ∧ step t = .next u ∧ u.moves = ms ∧ u.rdata = t.rdata

/-- R32, R45, R151: a cell that holds a value goes on holding one through every step but a reset, so that an
unspecified value is a value that the cell holds. -/
def Obligations.WrittenCellStaysWritten : Prop :=
  ∀ s t sp k, step s = .next t → nextEvent s ≠ .host .reset → k < Config.cells sp →
    s.peek (.cell sp k) ≠ none → t.peek (.cell sp k) ≠ none

/-- R14, R27, R28, R35: what a host write, of a literal or of the value last read, in phase IDLE to anything but
`CTRL` leaves: a writable register or cell holds the written value cut to its stored bits, a read-only register,
`OBUF` and `GBM` are as before, and so is every other location. -/
def Obligations.HostWriteStoresTheStoredBits : Prop :=
  ∀ s l d ms, l ≠ .reg .ctrl → (∀ sp i, l = .cell sp i → i < Config.cells sp) →
    (∀ o, l ≠ .reserved o) → s.phase = .idle → s.moves = writeMove l d :: ms →
    let v := datumValue s d
    ∃ t, step s = .next t ∧ t.phase = .idle ∧ t.moves = ms ∧ (∀ l', l' ≠ l → t.peek l' = s.peek l') ∧
      (l ∈ [Loc.reg .cmdid, .reg .imm] → t.peek l = some (BitVec.ofNat 32 (v.toNat % 256))) ∧
      (l = .reg .expect → t.peek l = some (BitVec.ofNat 32 (v.toNat % 65536))) ∧
      (l ∈ [Loc.reg .ilen, .reg .rstart, .reg .rend, .reg .plen, .reg .npix] → t.peek l = some v) ∧
      (∀ i, l = .cell .ibuf i ∨ l = .cell .hdr i →
        t.peek l = some (BitVec.ofNat 32 (v.toNat % 256))) ∧
      (∀ i, l = .cell .pal i ∨ l = .cell .pix i →
        t.peek l = some (BitVec.ofNat 32 (v.toNat % 2 ^ 24))) ∧
      (∀ i, l = .cell .obuf i ∨ l = .cell .gbm i → t.peek l = s.peek l) ∧
      (l ∈ [Loc.reg .status, .reg .errcode, .reg .olen, .reg .sum, .reg .rcmd, .reg .rsize, .reg .bpp,
          .reg .soff, .reg .skipcnt, .reg .trailbits] → t.peek l = s.peek l)

/-- R190: reset in either phase is one step to the reset values of every register and the phase, with every cell
unwritten. -/
def Obligations.ResetMoveRestoresTheResetState : Prop :=
  ∀ s ms, (s.phase = .idle ∨ s.busyFor ≠ 0) → s.moves = .reset :: ms →
    ∃ t, step s = .next t ∧ t.phase = .idle ∧ t.moves = ms ∧ ∀ l, t.peek l = State.reset.peek l

/-- R207: left alone in phase IDLE, DPF stays there for ever. -/
def Obligations.IdleWithoutHostMovesRestsForEver : Prop :=
  ∀ s k, s.phase = .idle → s.moves = [] → RunsTo k s s

/-- R12, R193, R204: from phase IDLE, a write of any word to `CTRL`, after which the host makes only moves that
phase BUSY allows and then polls or does nothing, comes to the completion step after finitely many steps, whatever
the open length of phase BUSY. No move is lost, DONE, ERR, VALID and ERRCODE are cleared, no other register or cell
has changed but the latch, and the completion step is that of the word: its operation, or IllegalOp. That a write
to `STATUS` is among the moves phase BUSY allows is the model's choice, log entry 10. -/
def Obligations.StartedOperationReachesItsCompletion : Prop :=
  ∀ s d early rest, s.phase = .idle → s.moves = writeMove (.reg .ctrl) d :: (early ++ rest) →
    (∀ m ∈ early, AllowedInBusy m) → (rest = [] ∨ rest.head? = some .poll) →
    ∃ k u left, RunsTo k s u ∧ left <:+ early ∧ u.moves = left ++ rest ∧ u.phase = .busy ∧
      u.opLatch = datumValue s d ∧ u.done = false ∧ u.err = false ∧ u.valid = false ∧ u.errcode = 0 ∧
      (∀ l, l ∉ [Loc.reg .ctrl, .reg .status, .reg .errcode] → u.peek l = s.peek l) ∧
      (∀ i, datumValue s d = encode i → step u = exec i u) ∧
      ((∀ i, encode i ≠ datumValue s d) → ∃ t, step u = .next t ∧ Failed .illegalOp t)

/-- R76, R193: a poll reads `STATUS`. While it reads `BUSY = 1` it stays the host's next move and a move has
passed; once it reads `BUSY = 0` the host goes on. It changes no location. -/
def Obligations.PollWaitsForIdle : Prop :=
  ∀ s ms, s.moves = .poll :: ms →
    (s.phase = .idle → ∃ t, step s = .next t ∧ t.phase = .idle ∧ t.moves = ms ∧
      some t.rdata = s.peek (.reg .status) ∧ t.rdata.getLsbD 0 = false ∧ ∀ l, t.peek l = s.peek l) ∧
    ∀ n, s.phase = .busy → s.busyFor = n + 1 → ∃ t, step s = .next t ∧ t.phase = .busy ∧
      t.moves = s.moves ∧ t.busyFor = n ∧ some t.rdata = s.peek (.reg .status) ∧
      t.rdata.getLsbD 0 = true ∧ ∀ l, t.peek l = s.peek l

/-- R76, R193, R204: an `OP` statement of an operation whose input set is written runs to phase IDLE with the
operation completed (DONE set, but for CLEAR), the host at its next move, and no location changed but the latch
and the operation's output set. -/
def Obligations.OpStatementEndsInIdle : Prop :=
  ∀ s i ms, s.phase = .idle → s.moves = stmtMoves (.op i) ++ ms → InputsWritten i s →
    ∃ k t, RunsTo k s t ∧ t.phase = .idle ∧ t.moves = ms ∧ t.opLatch = encode i ∧
      (t.done = false ↔ i = .clear) ∧ ∀ l, l ≠ .reg .ctrl → ¬ outputs i l → t.peek l = s.peek l

/-- R77: `LOOP` copies the last byte-string result to `IBUF`, sets `ILEN` to its length and changes no other
location. -/
def Obligations.LoopFeedsTheResultBack : Prop :=
  ∀ s ms out, s.phase = .idle → s.moves = .loop :: ms → OutputIs s out → out.length ≤ 65539 →
    ∃ k t, RunsTo k s t ∧ t.phase = .idle ∧ t.moves = ms ∧ t.ilen = s.olen ∧ Holds t.mem.ibuf 0 out ∧
      ∀ l, l ≠ .reg .ilen → (∀ j, j < out.length → l ≠ .cell .ibuf j) → t.peek l = s.peek l

/-- R76, R77: `IN` makes the listed bytes the input byte string and changes no other location. -/
def Obligations.InLoadsTheInput : Prop :=
  ∀ s ms bytes, s.phase = .idle → s.moves = pseudoMoves (.input bytes) ++ ms → bytes.length ≤ 65539 →
    ∃ t, RunsTo (bytes.length + 1) s t ∧ t.phase = .idle ∧ t.moves = ms ∧ InputIs t bytes ∧
      ∀ l, l ≠ .reg .ilen → (∀ j, j < bytes.length → l ≠ .cell .ibuf j) → t.peek l = s.peek l

/-! ### Encoding -/

/-- R72, R73: a command word decodes to an operation exactly when it is that operation's encoding, over all
32-bit words. -/
def Obligations.DecodeAndEncodeAgree : Prop :=
  ∀ w i, decode w = .ok i ↔ w = encode i

/-- R73: the opcode map. The sixteen words decode to the sixteen operations, and no other word decodes. -/
def Obligations.OpcodeMapDecodes : Prop :=
  (∀ p ∈ [((0x00000000 : Word), Instr.nop), (0x00000001, .csum), (0x00000002, .csval), (0x00000010, .buildN),
      (0x00000011, .buildI), (0x00000012, .buildB), (0x00000018, .parse), (0x00000019, .parser),
      (0x0000001A, .isvalid), (0x00000020, .penc), (0x00000021, .imgbuild), (0x00000022, .pdec),
      (0x00000028, .psplitS), (0x00000029, .psplitM), (0x0000002A, .gbmode), (0x0000003F, .clear)],
    decode p.1 = .ok p.2) ∧
  ∀ w, w ∉ [(0x00000000 : Word), 0x00000001, 0x00000002, 0x00000010, 0x00000011, 0x00000012, 0x00000018,
      0x00000019, 0x0000001A, 0x00000020, 0x00000021, 0x00000022, 0x00000028, 0x00000029, 0x0000002A,
      0x0000003F] → ∃ e, decode w = .error e

/-! ### Every operation -/

/-- R33: no operation writes a location outside its output set, and none writes a location of its input set. CSUM,
CSVAL, PDEC and GBMODE leave the bytes of `OBUF` unspecified besides (U7, R195; log entry 9). -/
def Obligations.OperationsWriteOnlyTheirOutputSet : Prop :=
  ∀ i s t, exec i s = .next t → Unchanged (outputs i) s t ∧ ∀ l, inputs i s l → t.peek l = s.peek l

/-- R33: the output set is a function of the input set: two states that agree on the input set of an operation
(and on the model's count of open events and on VALID, which the start step has cleared) give the same registers
of the output set and the same cells of it: of `PAL` the first `PLEN` and of `OBUF` the first `OLEN`, and all of
them where an error is raised or ISVALID leaves them unspecified. -/
def Obligations.OutputSetDependsOnInputSetAlone : Prop :=
  ∀ i s s' t, (∀ l, inputs i s l → s'.peek l = s.peek l) → s'.free = s.free → s'.valid = s.valid →
    exec i s = .next t →
    ∃ t', exec i s' = .next t' ∧ (∀ r ∈ outputRegs i, readReg t' r = readReg t r) ∧
      ∀ sp ∈ outputSpaces i, ∀ k,
        (t.err = false → (sp = .pal → k < t.plen.toNat) ∧ (sp = .obuf → i = .isvalid ∨ k < t.olen.toNat)) →
        t'.peek (.cell sp k) = t.peek (.cell sp k)

/-- R192, R204: an operation whose input set the host has written always completes, and a completion step refuses
only because a cell of the input set is unwritten. -/
def Obligations.OperationCompletesWhenInputsAreWritten : Prop :=
  ∀ i s, (InputsWritten i s → ∃ t, exec i s = .next t) ∧ (∀ f, exec i s ≠ .fault f) ∧
    ∀ x, exec i s = .refused x → ∃ l, inputs i s l ∧ s.peek l = none ∧ x = .unwrittenCell l

/-- R163: after an operation that raised an error, ERR, DONE, VALID, ERRCODE, OLEN and the phase are as stated, and
nothing outside the output set has changed (but `OBUF` where the operation leaves it unspecified, log entry 9). -/
def Obligations.RaisedErrorLeavesTheStatedState : Prop :=
  ∀ i s t, exec i s = .next t → t.err = true → (∃ e, Failed e t) ∧ Unchanged (outputs i) s t

/-- R7, R107, R163: where an error, or ISVALID, leaves a space unspecified, every cell of it holds some value. That
a cell which nothing had written holds one too is the model's reading, log entries 7 and 8. -/
def Obligations.UnspecifiedCellsHoldAValue : Prop :=
  ∀ i s t sp k, exec i s = .next t → (t.err = true ∨ i = .isvalid) → sp ∈ outputSpaces i →
    k < Config.cells sp → t.peek (.cell sp k) ≠ none

/-- R27, R32, R91, R143: an operation stores nothing in `OBUF` from `OLEN` on: a byte there that held no value holds
none, and one that held a value holds one. After CSUM, CSVAL, PDEC and GBMODE, which have no byte-string result, that
is the whole of `OBUF`, also where they raise an error. Which value such a byte holds is open (log entries 8, 9). -/
def Obligations.NothingIsStoredBeyondOlen : Prop :=
  ∀ i s t, exec i s = .next t →
    (i ∈ [Instr.csum, .csval, .pdec, .gbmode] → t.olen = 0) ∧
    (t.err = false ∧ i ≠ .isvalid ∨ i ∈ [Instr.csum, .csval, .pdec, .gbmode] →
      ∀ k, t.olen.toNat ≤ k → k < 65539 →
        (t.peek (.cell .obuf k) = none ↔ s.peek (.cell .obuf k) = none))

/-- R20, R162: every operation that reads `ILEN` raises BadOperand when `ILEN > BUF_CAP`. -/
def Obligations.InputLengthAboveCapacityIsBadOperand : Prop :=
  ∀ s i, i ∈ [Instr.csum, .csval, .buildB, .parse, .parser, .isvalid, .pdec, .psplitS, .psplitM, .gbmode] →
    65539 < s.ilen.toNat →
    ∃ t, exec i s = .next t ∧ Failed .badOperand t ∧ Unchanged (outputs i) s t

/-- R161, R162: the table of the thirteen codes, which differ; the high four bits of a code are its class, and
exactly the classes 1 and 2 are protocol-level. -/
def Obligations.ErrorCodesNameTheirClass : Prop :=
  (∀ p ∈ [(ErrorName.packetIncomplete, 0x11), (.badStartMarker, 0x12), (.badEndMarker, 0x13), (.badMagic, 0x14),
      (.badSize, 0x15), (.checksumMismatch, 0x21), (.payloadTooShort, 0x31), (.emptyInput, 0x32),
      (.emptyPalette, 0x33), (.paletteOverflow, 0x34), (.payloadTooLong, 0x41), (.badOperand, 0x42),
      (.illegalOp, 0x43)], (errorCode p.1).toNat = p.2) ∧
  (∀ e f, errorCode e = errorCode f → e = f) ∧
  ∀ e, (errorCode e).toNat / 16 = (match errorClass e with
      | .packetParsing => 1 | .packetChecksum => 2 | .payload => 3 | .hostInterface => 4) ∧
    (protocolLevel e = true ↔ (errorCode e).toNat / 16 ≤ 2)

/-! ### NOP and CLEAR -/

/-- R150: NOP completes, and changes nothing but `STATUS` and `ERRCODE`. -/
def Obligations.NopOnlyCompletes : Prop :=
  encode .nop = 0x00000000 ∧
  ∀ s, ∃ t, exec .nop s = .next t ∧ Succeeded s t ∧ Unchanged (locs [.status, .errcode] []) s t

/-- R151: CLEAR sets every result register and `STATUS` to zero, phase IDLE, DONE not set, and changes nothing
else: not the latch, not an operand register, not a cell. -/
def Obligations.ClearZeroesResultRegisters : Prop :=
  encode .clear = 0x0000003F ∧
  ∀ s, ∃ t, exec .clear s = .next t ∧ t.phase = .idle ∧
    (∀ r ∈ [Reg.status, .errcode, .olen, .sum, .rcmd, .rsize, .bpp, .soff, .skipcnt, .trailbits],
      readReg t r = 0) ∧
    Unchanged (locs [.status, .errcode, .olen, .sum, .rcmd, .rsize, .bpp, .soff, .skipcnt, .trailbits] []) s t

/-! ### Checksum -/

/-- R91: CSUM leaves in `SUM` the sum of `IBUF[RSTART..REND)` modulo 65536 and raises BadOperand for an
illegal range or length.
Nothing is stored in `OBUF` (R32); that its bytes may hold other values after is the model's choice between U7, R195
and R33, log entry 9. -/
def Obligations.CsumSumsTheRange : Prop :=
  encode .csum = 0x00000001 ∧
  ∀ s,
    (∀ bytes, s.ilen.toNat ≤ 65539 → s.rstart.toNat ≤ s.rend.toNat → s.rend.toNat ≤ s.ilen.toNat →
      bytes.length = s.rend.toNat - s.rstart.toNat → Holds s.mem.ibuf s.rstart.toNat bytes →
      ∃ t, exec .csum s = .next t ∧ Succeeded s t ∧ t.sum.toNat = byteSum bytes % 65536 ∧ t.olen = 0 ∧
        Unchanged (outputs .csum) s t ∧ ObufNotStored s t) ∧
    (¬ (s.ilen.toNat ≤ 65539 ∧ s.rstart.toNat ≤ s.rend.toNat ∧ s.rend.toNat ≤ s.ilen.toNat) →
      ∃ t, exec .csum s = .next t ∧ Failed .badOperand t ∧ Unchanged (outputs .csum) s t ∧ ObufNotStored s t)

/-- R92: CSVAL compares the sum with `EXPECT`, all 16 bits; a mismatch raises ChecksumMismatch and `SUM` holds
the computed sum in both cases.
Nothing is stored in `OBUF` (R32); that its bytes may hold other values after is the model's choice between U7, R195
and R33, log entry 9. -/
def Obligations.CsvalComparesTheSum : Prop :=
  encode .csval = 0x00000002 ∧
  ∀ s,
    (∀ bytes, s.ilen.toNat ≤ 65539 → s.rstart.toNat ≤ s.rend.toNat → s.rend.toNat ≤ s.ilen.toNat →
      bytes.length = s.rend.toNat - s.rstart.toNat → Holds s.mem.ibuf s.rstart.toNat bytes →
      ∃ t, exec .csval s = .next t ∧ t.sum.toNat = byteSum bytes % 65536 ∧ t.olen = 0 ∧
        (byteSum bytes % 65536 = s.expect.toNat → Succeeded s t) ∧
        (byteSum bytes % 65536 ≠ s.expect.toNat → Failed .checksumMismatch t) ∧
        Unchanged (outputs .csval) s t ∧ ObufNotStored s t) ∧
    (¬ (s.ilen.toNat ≤ 65539 ∧ s.rstart.toNat ≤ s.rend.toNat ∧ s.rend.toNat ≤ s.ilen.toNat) →
      ∃ t, exec .csval s = .next t ∧ Failed .badOperand t ∧ Unchanged (outputs .csval) s t ∧ ObufNotStored s t)

/-- R93: the sum of a concatenation; a change of one byte changes the sum by the difference and never by zero;
two opposite changes cancel; the sum is at most 65535 and is the true sum exactly while that is below 65536. -/
def Obligations.ChecksumLaws : Prop :=
  (∀ a b, (sum16 (a ++ b)).toNat = ((sum16 a).toNat + (sum16 b).toNat) % 65536) ∧
  (∀ a b (u v : Byte), u ≠ v →
    sum16 (a ++ u :: b) ≠ sum16 (a ++ v :: b) ∧
    ((sum16 (a ++ v :: b)).toNat : Int) =
      ((sum16 (a ++ u :: b)).toNat + ((v.toNat : Int) - u.toNat)) % 65536) ∧
  (∀ a b c (u v : Byte), u.toNat < 255 → 0 < v.toNat →
    sum16 (a ++ (u + 1) :: (b ++ (v - 1) :: c)) = sum16 (a ++ u :: (b ++ v :: c))) ∧
  (∀ a, (sum16 a).toNat ≤ 65535 ∧ ((sum16 a).toNat = byteSum a ↔ byteSum a < 65536))

/-! ### Building frames -/

/-- R101: BUILD.N leaves the seven bytes of the command frame with an empty payload. -/
def Obligations.BuildNBuildsTheEmptyFrame : Prop :=
  encode .buildN = 0x00000010 ∧
  ∀ s, ∃ t, exec .buildN s = .next t ∧ Succeeded s t ∧ OutputIs t (commandFrame s.cmdid []) ∧
    t.olen = 7 ∧ t.rsize = 3 ∧ t.sum.toNat = 3 + s.cmdid.toNat ∧ Unchanged (outputs .buildN) s t

/-- R102: BUILD.I leaves the eight bytes of the command frame whose payload is `IMM`. -/
def Obligations.BuildIBuildsTheOneByteFrame : Prop :=
  encode .buildI = 0x00000011 ∧
  ∀ s, ∃ t, exec .buildI s = .next t ∧ Succeeded s t ∧ OutputIs t (commandFrame s.cmdid [s.imm]) ∧
    t.olen = 8 ∧ t.rsize = 4 ∧ t.sum.toNat = 4 + s.cmdid.toNat + s.imm.toNat ∧
    Unchanged (outputs .buildI) s t

/-- R103: BUILD.B leaves the command frame of the input bytes; it raises PayloadTooLong for 65533 to 65539
bytes and BadOperand above. -/
def Obligations.BuildBFramesTheInput : Prop :=
  encode .buildB = 0x00000012 ∧
  ∀ s, (∀ p, InputIs s p → p.length ≤ 65532 →
      ∃ t, exec .buildB s = .next t ∧ Succeeded s t ∧ OutputIs t (commandFrame s.cmdid p) ∧
        t.olen.toNat = p.length + 7 ∧ t.rsize.toNat = p.length + 3 ∧
        t.sum.toNat = ((p.length + 3) % 256 + (p.length + 3) / 256 + s.cmdid.toNat + byteSum p) % 65536 ∧
        Unchanged (outputs .buildB) s t) ∧
    (65532 < s.ilen.toNat → s.ilen.toNat ≤ 65539 →
      ∃ t, exec .buildB s = .next t ∧ Failed .payloadTooLong t ∧ Unchanged (outputs .buildB) s t) ∧
    (65539 < s.ilen.toNat →
      ∃ t, exec .buildB s = .next t ∧ Failed .badOperand t ∧ Unchanged (outputs .buildB) s t)

/-! ### Parsing frames -/

/-- R105: PARSE makes the checks of R104 in order and raises the first that fails; a frame that
passes gives its command id, size and payload. -/
def Obligations.ParseFollowsTheCheckOrder : Prop :=
  encode .parse = 0x00000018 ∧
  ∀ s, (∀ b, InputIs s b →
      (frameError .command b = none →
        ∃ t, exec .parse s = .next t ∧ Succeeded s t ∧ t.rcmd = b.getD 3 0 ∧
          t.rsize.toNat = declaredSize b ∧ OutputIs t (slice b 4 (declaredSize b + 1)) ∧
          Unchanged (outputs .parse) s t) ∧
      ∀ e, frameError .command b = some e →
        ∃ t, exec .parse s = .next t ∧ Failed e t ∧ Unchanged (outputs .parse) s t) ∧
    (65539 < s.ilen.toNat →
      ∃ t, exec .parse s = .next t ∧ Failed .badOperand t ∧ Unchanged (outputs .parse) s t)

/-- R106: PARSER makes the checks of R104 for the response shape. -/
def Obligations.ParserFollowsTheCheckOrder : Prop :=
  encode .parser = 0x00000019 ∧
  ∀ s, (∀ b, InputIs s b →
      (frameError .response b = none →
        ∃ t, exec .parser s = .next t ∧ Succeeded s t ∧ t.rcmd = b.getD 4 0 ∧
          t.rsize.toNat = declaredSize b ∧ OutputIs t (slice b 6 (declaredSize b + 1)) ∧
          Unchanged (outputs .parser) s t) ∧
      ∀ e, frameError .response b = some e →
        ∃ t, exec .parser s = .next t ∧ Failed e t ∧ Unchanged (outputs .parser) s t) ∧
    (65539 < s.ilen.toNat →
      ∃ t, exec .parser s = .next t ∧ Failed .badOperand t ∧ Unchanged (outputs .parser) s t)

/-- R107: ISVALID sets VALID exactly where PARSE would succeed, and a protocol-level failure is not an
error of ISVALID; BadOperand is. -/
def Obligations.IsvalidConvertsParseFailures : Prop :=
  encode .isvalid = 0x0000001A ∧
  ∀ s, (∀ b, InputIs s b →
      ∃ t, exec .isvalid s = .next t ∧ t.phase = .idle ∧ t.done = true ∧ t.err = false ∧ t.errcode = 0 ∧
        t.olen = 0 ∧ (t.valid = true ↔ frameError .command b = none) ∧
        (∀ e, frameError .command b = some e → protocolLevel e = true) ∧
        Unchanged (outputs .isvalid) s t) ∧
    (65539 < s.ilen.toNat →
      ∃ t, exec .isvalid s = .next t ∧ Failed .badOperand t ∧ Unchanged (outputs .isvalid) s t)

/-- R108: a successful PARSE or PARSER has `ILEN = RSIZE + 4`. -/
def Obligations.ParsedFrameFillsTheInput : Prop :=
  ∀ s t i, i = .parse ∨ i = .parser → exec i s = .next t → t.err = false →
    s.ilen.toNat = t.rsize.toNat + 4

/-- R109: parsing a built frame gives the command id and the payload back, and ISVALID accepts it. -/
def Obligations.ParseOfBuiltFrameRoundTrips : Prop :=
  ∀ s p t f u, InputIs s p → p.length ≤ 65532 → exec .buildB s = .next t → OutputIs t f → InputIs u f →
    (∃ v, exec .parse u = .next v ∧ Succeeded u v ∧ v.rcmd = s.cmdid ∧ OutputIs v p ∧
      v.rsize.toNat = p.length + 3) ∧
    ∃ v, exec .isvalid u = .next v ∧ v.err = false ∧ v.valid = true

/-- R110: PARSE of a built frame with exactly one bit inverted raises the error the table of R110 names for the
bit's place, a protocol-level one, and ISVALID does not accept it. -/
def Obligations.SingleBitCorruptionIsDetected : Prop :=
  ∀ c p j k u, p.length ≤ 65532 → j < p.length + 7 → k < 8 →
    InputIs u (flipBit (commandFrame c p) j k) →
    ∃ v e, exec .parse u = .next v ∧ Failed e v ∧ protocolLevel e = true ∧
      (j = 0 → e = .badStartMarker) ∧
      (1 ≤ j ∧ j ≤ 2 ∧ p.length + 3 < declaredSize (flipBit (commandFrame c p) j k) →
        e = .packetIncomplete) ∧
      (1 ≤ j ∧ j ≤ 2 ∧ declaredSize (flipBit (commandFrame c p) j k) < p.length + 3 →
        e = if (flipBit (commandFrame c p) j k).getD
          (declaredSize (flipBit (commandFrame c p) j k) + 3) 0 ≠ 0x02 then .badEndMarker else .badSize) ∧
      (3 ≤ j ∧ j ≤ p.length + 5 → e = .checksumMismatch) ∧
      (j = p.length + 6 → e = .badEndMarker) ∧
      ∃ w, exec .isvalid u = .next w ∧ w.err = false ∧ w.valid = false

/-! ### Payload fields -/

/-- R120, R121, R122: the payload split with a header of 10 (PSPLIT.S) or 9 (PSPLIT.M) bytes. -/
def Obligations.PayloadSplitFindsPaletteAndImage : Prop :=
  encode .psplitS = 0x00000028 ∧ encode .psplitM = 0x00000029 ∧
  ∀ s i h, (i = .psplitS ∧ h = 10 ∨ i = .psplitM ∧ h = 9) →
    (∀ d, InputIs s d →
      (h + 1 ≤ d.length → h + 1 + 3 * (d.getD h 0).toNat ≤ d.length →
        ∃ t pal, exec i s = .next t ∧ Succeeded s t ∧ pal.length = (d.getD h 0).toNat ∧
          (∀ k, k < pal.length → (pal.getD k 0).toNat = (d.getD (h + 1 + 3 * k) 0).toNat * 65536 +
            (d.getD (h + 2 + 3 * k) 0).toNat * 256 + (d.getD (h + 3 + 3 * k) 0).toNat) ∧
          PaletteIs s t pal ∧ OutputIs t (d.drop (h + 1 + 3 * (d.getD h 0).toNat)) ∧
          Unchanged (outputs i) s t) ∧
      (¬ (h + 1 ≤ d.length ∧ h + 1 + 3 * (d.getD h 0).toNat ≤ d.length) →
        ∃ t, exec i s = .next t ∧ Failed .payloadTooShort t ∧ Unchanged (outputs i) s t)) ∧
    (65539 < s.ilen.toNat →
      ∃ t, exec i s = .next t ∧ Failed .badOperand t ∧ Unchanged (outputs i) s t)

/-- R123: GBMODE copies the first sixteen input bytes to `GBM`, or raises PayloadTooShort for fewer.
Nothing is stored in `OBUF` (R32); that its bytes may hold other values after is the model's choice between U7, R195
and R33, log entry 9. -/
def Obligations.GbmodeCopiesTheSixteenFields : Prop :=
  encode .gbmode = 0x0000002A ∧
  ∀ s,
    (∀ fields, 16 ≤ s.ilen.toNat → s.ilen.toNat ≤ 65539 → fields.length = 16 →
      Holds s.mem.ibuf 0 fields →
      ∃ t, exec .gbmode s = .next t ∧ Succeeded s t ∧ Holds t.mem.gbm 0 fields ∧ t.olen = 0 ∧
        Unchanged (outputs .gbmode) s t ∧ ObufNotStored s t) ∧
    (s.ilen.toNat < 16 →
      ∃ t, exec .gbmode s = .next t ∧ Failed .payloadTooShort t ∧ Unchanged (outputs .gbmode) s t ∧
        ObufNotStored s t) ∧
    (65539 < s.ilen.toNat →
      ∃ t, exec .gbmode s = .next t ∧ Failed .badOperand t ∧ Unchanged (outputs .gbmode) s t ∧ ObufNotStored s t)

/-! ### The pixel codec -/

/-- R130: `bpp(n) = max(1, ceil(log2 n))`. -/
def Obligations.BitsPerPixelIsCeilingOfLog : Prop :=
  ∀ n, 1 ≤ n → n ≤ 256 → bpp n = max 1 (Nat.clog 2 n)

/-- R131: extraction lists the distinct colours in first-seen order and gives every pixel its index. -/
def Obligations.ExtractionListsColoursFirstSeen : Prop :=
  ∀ cs : List Colour, cs ≠ [] →
    let pal := (extract cs).1
    let idx := (extract cs).2
    pal.head? = cs.head? ∧ idx.head? = some 0 ∧ 1 ≤ pal.length ∧ pal.length ≤ cs.length ∧ pal.Nodup ∧
    idx.length = cs.length ∧
    (∀ p, p < cs.length → ∃ j, idx[p]? = some j ∧ j < pal.length ∧ pal[j]? = cs[p]?) ∧
    (∀ j, j < pal.length → j ∈ idx) ∧
    ∀ p j : Nat, idx[p]? = some (j + 1) → ∃ q, q < p ∧ idx[q]? = some j

/-- R133: each packed byte is its group of the bitstream with the digits reversed and read as a binary number:
bit `k` is digit `k` of the group, zero past the end (R134); for a whole group it is the mirror image of the
byte read without the reversal. -/
def Obligations.PackedByteIsReversedGroup : Prop :=
  ∀ bits : List Bool, (packBits bits).length = (bits.length + 7) / 8 ∧
    ∀ j, 8 * j < bits.length →
      let group := (bits.drop (8 * j)).take 8
      (packBits bits)[j]? = some (BitVec.ofNat 8 (group.reverse.foldl (fun n b => 2 * n + b.toNat) 0)) ∧
      (∀ k, k < 8 → ((packBits bits).getD j 0).getLsbD k = bits.getD (8 * j + k) false) ∧
      (group.length = 8 →
        (packBits bits)[j]? = some (rev8 (BitVec.ofNat 8 (group.foldl (fun n b => 2 * n + b.toNat) 0))))

/-- R136: PENC writes the palette of R131, `BPP`, `SOFF`, the table (the count byte, then red, green and blue of
each colour) and the stream whose bits are the index bits in order, padded with zeros; it raises BadOperand for
`NPIX > 256` and EmptyInput for `NPIX = 0`. -/
def Obligations.PencEncodesThePixels : Prop :=
  encode .penc = 0x00000020 ∧
  ∀ s,
    (∀ c, s.npix.toNat = c.length → 1 ≤ c.length → c.length ≤ 256 → Holds s.mem.pix 0 c →
      let pal := (extract c).1
      let idx := (extract c).2
      let table := 1 + 3 * pal.length
      ∃ t out, exec .penc s = .next t ∧ Succeeded s t ∧ PaletteIs s t pal ∧
        t.bpp.toNat = bpp pal.length ∧ t.soff.toNat = table ∧
        OutputIs t out ∧ out.length = table + (c.length * bpp pal.length + 7) / 8 ∧
        (out.getD 0 0).toNat = pal.length % 256 ∧
        (∀ k, k < pal.length →
          (out.getD (1 + 3 * k) 0).toNat = (pal.getD k 0).toNat / 65536 ∧
          (out.getD (2 + 3 * k) 0).toNat = (pal.getD k 0).toNat / 256 % 256 ∧
          (out.getD (3 + 3 * k) 0).toNat = (pal.getD k 0).toNat % 256) ∧
        (∀ q, q < 8 * (out.length - table) →
          (out.getD (table + q / 8) 0).getLsbD (q % 8) = streamBit (bpp pal.length) idx q) ∧
        Unchanged (outputs .penc) s t) ∧
    (256 < s.npix.toNat →
      ∃ t, exec .penc s = .next t ∧ Failed .badOperand t ∧ Unchanged (outputs .penc) s t) ∧
    (s.npix = 0 → ∃ t, exec .penc s = .next t ∧ Failed .emptyInput t ∧ Unchanged (outputs .penc) s t)

/-- R139: PENC and IMGBUILD raise EmptyInput for `NPIX = 0`, whatever `PIX` holds. -/
def Obligations.EmptyInputFailsFast : Prop :=
  ∀ s i, i = .penc ∨ i = .imgbuild → s.npix = 0 →
    ∃ t, exec i s = .next t ∧ Failed .emptyInput t ∧ t.errcode = 0x32 ∧ Unchanged (outputs i) s t

/-- R141: IMGBUILD leaves what PENC leaves in `PLEN`, `PAL` and `BPP`, `SOFF` 14 higher, and the command
frame of id `HDR[0]` and payload `HDR[1..11)` followed by PENC's bytes; it raises what PENC raises. -/
def Obligations.ImgbuildFramesWhatPencEncodes : Prop :=
  encode .imgbuild = 0x00000021 ∧
  ∀ s,
    (∀ c header, s.npix.toNat = c.length → 1 ≤ c.length → c.length ≤ 256 → Holds s.mem.pix 0 c →
      header.length = 11 → Holds s.mem.hdr 0 header →
      ∃ t u bytes, exec .penc s = .next u ∧ OutputIs u bytes ∧
        exec .imgbuild s = .next t ∧ Succeeded s t ∧
        OutputIs t (commandFrame (header.getD 0 0) (header.drop 1 ++ bytes)) ∧
        t.plen = u.plen ∧ t.mem.pal = u.mem.pal ∧ t.bpp = u.bpp ∧ t.soff.toNat = u.soff.toNat + 14 ∧
        t.rsize.toNat = 11 + bytes.length + 2 ∧ t.olen.toNat = 11 + bytes.length + 6 ∧
        t.sum.toNat = ((13 + bytes.length) % 256 + (13 + bytes.length) / 256 + byteSum header +
          byteSum bytes) % 65536 ∧
        Unchanged (outputs .imgbuild) s t) ∧
    (256 < s.npix.toNat →
      ∃ t, exec .imgbuild s = .next t ∧ Failed .badOperand t ∧ Unchanged (outputs .imgbuild) s t) ∧
    (s.npix = 0 →
      ∃ t, exec .imgbuild s = .next t ∧ Failed .emptyInput t ∧ Unchanged (outputs .imgbuild) s t)

/-- R143 (with R142, R144 to R146): PDEC writes all 256 pixels: the palette entry of each whole window, black
where the index is out of bounds or no window reaches; it counts the skipped pixels and the bits not decoded. It
raises BadOperand for a bad length, then EmptyPalette.
Nothing is stored in `OBUF` (R32); that its bytes may hold other values after is the model's choice between U7, R195
and R33, log entry 9. -/
def Obligations.PdecDecodesTheStream : Prop :=
  encode .pdec = 0x00000022 ∧
  ∀ s,
    (∀ d pal, InputIs s d → s.plen.toNat = pal.length → 1 ≤ pal.length → pal.length ≤ 256 →
      Holds s.mem.pal 0 pal →
      let b := bpp pal.length
      let n := windowCount b d.length
      ∃ t, exec .pdec s = .next t ∧ Succeeded s t ∧
        (∀ i, i < 256 → Cells.read t.mem.pix i = some
          (if i < n ∧ windowIndex b d i < pal.length then pal.getD (windowIndex b d i) 0 else 0)) ∧
        t.bpp.toNat = b ∧
        t.skipcnt.toNat = ((List.range n).filter fun i => decide (pal.length ≤ windowIndex b d i)).length ∧
        t.trailbits.toNat = 8 * d.length - n * b ∧ t.olen = 0 ∧ Unchanged (outputs .pdec) s t ∧
        ObufNotStored s t) ∧
    (65539 < s.ilen.toNat ∨ 256 < s.plen.toNat →
      ∃ t, exec .pdec s = .next t ∧ Failed .badOperand t ∧ Unchanged (outputs .pdec) s t ∧ ObufNotStored s t) ∧
    (s.ilen.toNat ≤ 65539 → s.plen = 0 →
      ∃ t, exec .pdec s = .next t ∧ Failed .emptyPalette t ∧ Unchanged (outputs .pdec) s t ∧ ObufNotStored s t)

/-- R147, R201: PDEC of PENC's stream with PENC's palette gives the pixels back, with `BPP` unchanged and nothing
skipped; for a full grid no bit is left over; for `NPIX < 256` the pad decodes as the first colour and the rest
of the grid is black. -/
def Obligations.ImageRoundTrip : Prop :=
  ∀ s c t out u, s.npix.toNat = c.length → 1 ≤ c.length → c.length ≤ 256 → Holds s.mem.pix 0 c →
    exec .penc s = .next t → OutputIs t out → InputIs u (out.drop t.soff.toNat) → u.plen = t.plen →
    u.mem.pal = t.mem.pal →
    ∃ v, exec .pdec u = .next v ∧ Succeeded u v ∧ v.bpp = t.bpp ∧ v.skipcnt = 0 ∧
      Holds v.mem.pix 0 c ∧ (c.length = 256 → v.trailbits = 0) ∧
      ∀ i, c.length ≤ i → i < 256 → Cells.read v.mem.pix i =
        some (if i < 8 * ((c.length * t.bpp.toNat + 7) / 8) / t.bpp.toNat then c.getD 0 0 else 0)

/-- R148, R200: PENC of 256 distinct colours sets `PLEN = 256` and writes the count byte 0; PSPLIT.S of a payload
with that table reads an empty palette, returns the 1024 bytes after the count byte, and PDEC then raises
EmptyPalette. -/
def Obligations.PaletteOf256DoesNotSurviveTheWire : Prop :=
  ∀ s c t out header u, s.npix.toNat = 256 → c.length = 256 → c.Nodup → Holds s.mem.pix 0 c →
    exec .penc s = .next t → OutputIs t out → header.length = 10 → InputIs u (header ++ out) →
    t.plen = 256 ∧ out.length = 1025 ∧ out.head? = some 0 ∧
    ∃ v, exec .psplitS u = .next v ∧ Succeeded u v ∧ v.plen = 0 ∧ v.mem.pal = u.mem.pal ∧
      OutputIs v (out.drop 1) ∧ v.olen = 1024 ∧
      ∀ x, InputIs x (out.drop 1) → x.plen = v.plen →
        ∃ y, exec .pdec x = .next y ∧ Failed .emptyPalette y
end

