-- ==== Sys2Proof/Laws/Bits.lean ====
section
/-! SUPPORT. The byte-order, colour and bit-stream helpers: what each computes, and the inverses of packing
and unpacking. -/

namespace Sys2Proof.Machine

/-! ### Sixteen-bit fields and colours -/

@[simp] theorem le16_lo8_hi8 (v : Half) : le16 (lo8 v) (hi8 v) = v := by
  unfold le16 lo8 hi8
  ext i hi
  simp only [BitVec.getElem_append, BitVec.getElem_extractLsb']
  split <;> simp_all [← BitVec.getLsbD_eq_getElem]

/-- `le16(lo, hi) = lo + 256*hi` as a number (00_scope.md R6). -/
theorem le16_toNat (lo hi : Byte) : (le16 lo hi).toNat = lo.toNat + 256 * hi.toNat := by
  unfold le16
  have := lo.isLt
  rw [BitVec.toNat_append, ← Nat.shiftLeft_add_eq_or_of_lt lo.isLt, Nat.shiftLeft_eq]
  omega

/-- `colour(r, g, b) = r*65536 + g*256 + b` as a number (00_scope.md R8). -/
theorem colour_toNat (r g b : Byte) :
    (colour r g b).toNat = r.toNat * 65536 + g.toNat * 256 + b.toNat := by
  unfold colour
  rw [BitVec.toNat_append, ← Nat.shiftLeft_add_eq_or_of_lt b.isLt, BitVec.toNat_append,
    ← Nat.shiftLeft_add_eq_or_of_lt g.isLt, Nat.shiftLeft_eq, Nat.shiftLeft_eq]
  omega

@[simp] theorem rgb_length (c : Colour) : (rgb c).length = 3 := rfl

theorem colour_rgb (c : Colour) :
    colour (c.extractLsb' 16 8) (c.extractLsb' 8 8) (c.extractLsb' 0 8) = c := by
  unfold colour
  ext i hi
  simp only [BitVec.getElem_append, BitVec.getElem_extractLsb']
  split
  · simp_all [← BitVec.getLsbD_eq_getElem]
  · split
    · rw [← BitVec.getLsbD_eq_getElem]; congr 1; omega
    · rw [← BitVec.getLsbD_eq_getElem]; congr 1; omega

/-- The wire bytes of a palette read back as the palette. -/
@[simp] theorem coloursOf_rgb (pal : List Colour) : coloursOf ((pal.map rgb).flatten) = pal := by
  induction pal with
  | nil => rfl
  | cons c pal ih => simp [rgb, coloursOf, ih, colour_rgb]

theorem coloursOf_length (n : Nat) (bytes : List Byte) (h : bytes.length = 3 * n) :
    (coloursOf bytes).length = n := by
  induction n generalizing bytes with
  | zero =>
    have : bytes = [] := List.length_eq_zero_iff.1 (by omega)
    simp [this, coloursOf]
  | succ n ih =>
    match bytes, h with
    | r :: g :: b :: rest, h => simp [coloursOf, ih rest (by simp at h; omega)]

/-! ### Bits per pixel -/

/-- `bpp(n)` is the smallest `b ≥ 1` with `2^b ≥ n` (43_pixel_codec.md R130). -/
theorem bpp_spec {n : Nat} (h : n ≤ 256) :
    1 ≤ bpp n ∧ bpp n ≤ 8 ∧ n ≤ 2 ^ bpp n ∧ (bpp n = 1 ∨ 2 ^ (bpp n - 1) < n) := by
  unfold bpp
  repeat' split
  all_goals omega

theorem bpp_pos (n : Nat) : 1 ≤ bpp n := by
  unfold bpp; repeat' split
  all_goals omega

theorem bpp_le (n : Nat) : bpp n ≤ 8 := by
  unfold bpp; repeat' split
  all_goals omega

/-! ### Bits and numbers -/

@[simp] theorem bitsOf_length (b v : Nat) : (bitsOf b v).length = b := by
  induction b generalizing v with
  | zero => rfl
  | succ b ih => simp [bitsOf, ih]

/-- Entry `k` of the bits of a number is its bit `k` (43_pixel_codec.md R132). -/
theorem bitsOf_getElem? (b v k : Nat) (h : k < b) : (bitsOf b v)[k]? = some (v.testBit k) := by
  induction b generalizing v k with
  | zero => omega
  | succ b ih =>
    cases k with
    | zero => simp [bitsOf, Nat.testBit_zero]; rw [Bool.beq_eq_decide_eq]
    | succ k => simp [bitsOf, ih (v / 2) k (by omega), Nat.testBit_succ]

@[simp] theorem numberOf_bitsOf (b v : Nat) : numberOf (bitsOf b v) = v % 2 ^ b := by
  induction b generalizing v with
  | zero => simp [bitsOf, numberOf, Nat.mod_one]
  | succ b ih =>
    have hb : ((v % 2 == 1) : Bool).toNat = v % 2 := by
      rcases Nat.mod_two_eq_zero_or_one v with h | h <;> simp [h]
    rw [bitsOf, numberOf, ih, hb, Nat.pow_succ', Nat.mod_mul]

theorem numberOf_lt (l : List Bool) : numberOf l < 2 ^ l.length := by
  induction l with
  | nil => simp [numberOf]
  | cons b l ih =>
    have := Bool.toNat_lt b
    simp only [numberOf, List.length_cons, Nat.pow_succ']
    omega

/-- The bits of the number of a short list are the list completed with zero bits
(43_pixel_codec.md R134). -/
theorem bitsOf_numberOf (b : Nat) (l : List Bool) (h : l.length ≤ b) :
    bitsOf b (numberOf l) = l ++ List.replicate (b - l.length) false := by
  induction b generalizing l with
  | zero => simp [List.length_eq_zero_iff.1 (Nat.le_zero.1 h), bitsOf]
  | succ b ih =>
    cases l with
    | nil =>
      have := ih [] (by simp)
      simp only [numberOf, List.length_nil, Nat.sub_zero, List.nil_append] at this ⊢
      simp [bitsOf, this, List.replicate_succ]
    | cons x l =>
      have h1 : (x.toNat + 2 * numberOf l) % 2 = x.toNat := by cases x <;> simp
      have h2 : (x.toNat + 2 * numberOf l) / 2 = numberOf l := by
        cases x
        · simp
        · simp; omega
      simp only [numberOf, bitsOf, h1, h2, ih l (by simpa using h)]
      cases x <;> simp

/-! ### Groups -/

@[simp] theorem groups_length (b n : Nat) (s : List Bool) : (groups b n s).length = n := by
  induction n generalizing s with
  | zero => rfl
  | succ n ih => simp [groups, ih]

/-- Window `i` is the number of the bits `i*b .. i*b+b)` (43_pixel_codec.md R142). -/
theorem groups_getElem? (b n i : Nat) (s : List Bool) (h : i < n) :
    (groups b n s)[i]? = some (numberOf ((s.drop (i * b)).take b)) := by
  induction n generalizing i s with
  | zero => omega
  | succ n ih =>
    cases i with
    | zero => simp [groups]
    | succ i =>
      simp only [groups, List.getElem?_cons_succ, ih i (s.drop b) (by omega), List.drop_drop]
      rw [Nat.succ_mul, Nat.add_comm]

/-- Cutting the index bits into windows gives the indices back (43_pixel_codec.md R132, R142). -/
theorem groups_indexBits (b : Nat) (idx : List Nat) (tail : List Bool) :
    groups b idx.length (indexBits b idx ++ tail) = idx.map (· % 2 ^ b) := by
  induction idx with
  | nil => rfl
  | cons v idx ih =>
    have h : indexBits b (v :: idx) ++ tail = bitsOf b v ++ (indexBits b idx ++ tail) := by
      simp [indexBits]
    simp only [List.length_cons, groups, h, List.map_cons]
    rw [List.take_left' (bitsOf_length b v), List.drop_left' (bitsOf_length b v), ih, numberOf_bitsOf]

@[simp] theorem indexBits_length (b : Nat) (idx : List Nat) :
    (indexBits b idx).length = idx.length * b := by
  induction idx with
  | nil => simp [indexBits]
  | cons v idx ih =>
    have h : indexBits b (v :: idx) = bitsOf b v ++ indexBits b idx := by simp [indexBits]
    rw [h, List.length_append, bitsOf_length, ih, List.length_cons, Nat.succ_mul, Nat.add_comm]

@[simp] theorem packBits_length (bits : List Bool) : (packBits bits).length = (bits.length + 7) / 8 := by
  simp [packBits]

theorem bitsOf_groups (n : Nat) (s : List Bool) (h : s.length ≤ 8 * n) :
    bitsOfBytes ((groups 8 n s).map (BitVec.ofNat 8)) = s ++ List.replicate (8 * n - s.length) false := by
  induction n generalizing s with
  | zero => simp [bitsOfBytes, groups, List.length_eq_zero_iff.1 (Nat.le_zero.1 (by simpa using h))]
  | succ n ih =>
    have hlt : numberOf (s.take 8) < 256 := by
      refine lt_of_lt_of_le (numberOf_lt _) ?_
      calc 2 ^ (s.take 8).length ≤ 2 ^ 8 := Nat.pow_le_pow_right (by omega) (by simp)
        _ = 256 := rfl
    have hb : (BitVec.ofNat 8 (numberOf (s.take 8))).toNat = numberOf (s.take 8) := by
      rw [BitVec.toNat_ofNat]; exact Nat.mod_eq_of_lt hlt
    have step : bitsOfBytes ((groups 8 (n + 1) s).map (BitVec.ofNat 8)) =
        bitsOf 8 (numberOf (s.take 8)) ++ bitsOfBytes ((groups 8 n (s.drop 8)).map (BitVec.ofNat 8)) := by
      simp [bitsOfBytes, groups, Nat.mod_eq_of_lt hlt]
    rw [step, bitsOf_numberOf 8 _ (by simp), ih (s.drop 8) (by simp; omega)]
    by_cases hs : 8 ≤ s.length
    · have h1 : (s.take 8).length = 8 := by simp [hs]
      rw [h1, Nat.sub_self, List.replicate_zero, List.append_nil, ← List.append_assoc,
        List.take_append_drop]
      congr 2
      simp; omega
    · have h1 : s.take 8 = s := List.take_of_length_le (by omega)
      have h2 : s.drop 8 = [] := List.drop_eq_nil_of_le (by omega)
      rw [h1, h2, List.nil_append, List.append_assoc, ← List.replicate_add]
      congr 2
      simp; omega

/-- Unpacking the bytes of a packed bitstream gives the bitstream and the zero bits that complete its last
byte (43_pixel_codec.md R133, R134, R142). -/
theorem bitsOfBytes_packBits (bits : List Bool) :
    bitsOfBytes (packBits bits) =
      bits ++ List.replicate (8 * ((bits.length + 7) / 8) - bits.length) false :=
  bitsOf_groups _ bits (by omega)

/-! ### Palette extraction -/

/-- What extraction returns from palette `pal` on: the palette keeps its entries and their order, stays free
of repeats, and each scanned colour stands at its index (43_pixel_codec.md R131). -/
theorem extractFrom_spec (pal cs : List Colour) (hn : pal.Nodup) :
    pal <+: (extractFrom pal cs).1 ∧ (extractFrom pal cs).1.Nodup ∧
    (extractFrom pal cs).2.length = cs.length ∧
    (extractFrom pal cs).1.length ≤ pal.length + cs.length ∧
    (∀ p, p < cs.length → ∃ j, (extractFrom pal cs).2[p]? = some j ∧
      (extractFrom pal cs).1[j]? = cs[p]?) := by
  induction cs generalizing pal with
  | nil => simp [extractFrom, hn]
  | cons c cs ih =>
    by_cases hc : c ∈ pal
    · obtain ⟨h1, h2, h3, h4, h5⟩ := ih pal hn
      simp only [extractFrom, hc, if_true, List.length_cons, h3]
      refine ⟨h1, h2, trivial, by omega, fun p hp => ?_⟩
      cases p with
      | zero =>
        refine ⟨pal.idxOf c, rfl, ?_⟩
        have hlt := List.idxOf_lt_length_of_mem hc
        obtain ⟨t, ht⟩ := h1
        rw [← ht, List.getElem?_append_left hlt, List.getElem?_eq_getElem hlt]
        simp [List.getElem_idxOf]
      | succ p => simpa using h5 p (by omega)
    · have hn' : (pal ++ [c]).Nodup := by
        rw [List.nodup_append]; simp [hn]; exact fun a ha h => hc (h ▸ ha)
      obtain ⟨h1, h2, h3, h4, h5⟩ := ih (pal ++ [c]) hn'
      simp only [extractFrom, hc, if_false, List.length_cons, h3]
      refine ⟨(List.prefix_append _ _).trans h1, h2, trivial, ?_, fun p hp => ?_⟩
      · simp at h4; omega
      · cases p with
        | zero =>
          refine ⟨pal.length, rfl, ?_⟩
          obtain ⟨t, ht⟩ := h1
          rw [← ht, List.getElem?_append_left (by simp)]
          simp
        | succ p => simpa using h5 p (by omega)

end Sys2Proof.Machine
end

