-- ==== Sys2Proof/Laws/Memory.lean ====
section
/-! SUPPORT. Reading a space after each space operation, and the canonical form each operation keeps. -/

namespace Sys2Proof.Machine

variable {w : Nat}

/-! ### Reading -/

@[simp] theorem read_nil (i : Nat) : Cells.read ([] : Cells w) i = none := rfl

@[simp] theorem read_cons (c : Nat × BitVec w) (m : Cells w) (i : Nat) :
    Cells.read (c :: m) i = if i = c.1 then some c.2 else Cells.read m i := by
  obtain ⟨a, v⟩ := c
  simp only [Cells.read, List.lookup_cons]
  by_cases h : i = a
  · simp [h]
  · have : (i == a) = false := by simpa using h
    simp [h, this]

theorem read_append (m n : Cells w) (i : Nat) :
    Cells.read (m ++ n) i = (Cells.read m i).or (Cells.read n i) := by
  induction m with
  | nil => simp
  | cons c m ih =>
    simp only [List.cons_append, read_cons, ih]
    split <;> simp

theorem read_filter (p : Nat → Bool) (m : Cells w) (i : Nat) :
    Cells.read (m.filter fun c => p c.1) i = if p i then Cells.read m i else none := by
  induction m with
  | nil => simp
  | cons c m ih =>
    by_cases h : i = c.1
    · subst h
      by_cases hp : p c.1 <;> simp [hp, ih]
    · by_cases hp : p c.1 <;> simp [hp, ih, h]

/-- A cell of a listed space holds the value listed for it. -/
theorem read_ofList (a : Nat) (vs : List (BitVec w)) (i : Nat) :
    Cells.read (Cells.ofList a vs) i = if a ≤ i then vs[i - a]? else none := by
  induction vs generalizing a with
  | nil => simp [Cells.ofList]
  | cons v vs ih =>
    simp only [Cells.ofList, read_cons, ih]
    by_cases h : i = a
    · simp [h]
    · by_cases h' : a ≤ i
      · have : i - a = (i - (a + 1)) + 1 := by omega
        simp [h, h', this, show a + 1 ≤ i by omega]
      · simp [h, h', show ¬ a + 1 ≤ i by omega]

/-- A range write gives its cells the listed values and leaves every other cell alone. -/
theorem read_writeRange (m : Cells w) (a : Nat) (vs : List (BitVec w)) (i : Nat) :
    Cells.read (Cells.writeRange m a vs) i =
      if a ≤ i ∧ i < a + vs.length then vs[i - a]? else Cells.read m i := by
  unfold Cells.writeRange
  rw [read_append, read_append, read_filter (fun k => decide (k < a)),
    read_filter (fun k => decide (a + vs.length ≤ k)), read_ofList]
  by_cases h1 : i < a
  · simp [h1, show ¬ a ≤ i by omega, show ¬ a + vs.length ≤ i by omega]
  · by_cases h2 : i < a + vs.length
    · have : i - a < vs.length := by omega
      simp [h1, h2, show a ≤ i by omega, this]
    · have : vs.length ≤ i - a := by omega
      simp [h1, h2, show a ≤ i by omega, show a + vs.length ≤ i by omega, this]

/-- A read after a write to the same cell gives the value written; any other cell reads as before. -/
theorem read_write (m : Cells w) (i j : Nat) (v : BitVec w) :
    Cells.read (Cells.write m i v) j = if j = i then some v else Cells.read m j := by
  unfold Cells.write
  rw [read_writeRange]
  by_cases h : j = i
  · simp [h]
  · rw [if_neg h, if_neg (by simp; omega)]

/-- Havoc gives every written cell a free value and writes no cell. -/
theorem read_havoc (n : Nat) (sp : Space) (m : Cells w) (i : Nat) :
    Cells.read (Cells.havoc n sp m) i =
      (Cells.read m i).map fun _ => (Config.freeValue n (.cell sp i)).setWidth w := by
  induction m with
  | nil => simp [Cells.havoc]
  | cons c m ih =>
    simp only [Cells.havoc, List.map_cons, read_cons] at *
    split
    · simp_all
    · simpa using ih

/-- Every cell of an unspecified space holds its free value. -/
theorem read_unspecified (n : Nat) (sp : Space) (i : Nat) :
    Cells.read (Cells.unspecified (w := w) n sp) i =
      if i < Config.cells sp then some ((Config.freeValue n (.cell sp i)).setWidth w) else none := by
  rw [Cells.unspecified, read_ofList, if_pos (Nat.zero_le i), Nat.sub_zero, List.getElem?_map]
  by_cases h : i < Config.cells sp <;> simp [h]

/-! ### `OBUF` -/

/-- A listed byte of `OBUF` is what `OBUF` holds there. -/
theorem obufByte_of_read {s : State} {i : Nat} {v : Byte} (h : Cells.read s.mem.obuf i = some v) :
    obufByte s i = some v := by
  simp [obufByte, h]

/-- A byte of `OBUF` is unwritten exactly where it is not listed and no operation left all of `OBUF`
unspecified. -/
theorem obufByte_eq_none {s : State} {i : Nat} :
    obufByte s i = none ↔
      Cells.read s.mem.obuf i = none ∧ (s.obufOpen = none ∨ Config.bufCap ≤ i) := by
  unfold obufByte
  cases Cells.read s.mem.obuf i <;> cases s.obufOpen <;> simp

/-- `obufByte` depends on the listed bytes and `obufOpen` alone. -/
theorem obufByte_congr {s t : State} (hm : t.mem.obuf = s.mem.obuf) (ho : t.obufOpen = s.obufOpen)
    (i : Nat) : obufByte t i = obufByte s i := by
  unfold obufByte
  rw [hm, ho]

/-- Once `OBUF` holds no result every byte that was ever stored holds a free value. -/
theorem obufByte_staleOutput (s : State) {i : Nat} (hb : i < Config.bufCap) :
    obufByte (staleOutput s) i =
      (obufByte s i).map fun _ => (Config.freeValue s.free (.cell .obuf i)).setWidth 8 := by
  unfold obufByte staleOutput staleObuf
  cases s.obufOpen with
  | none => simp only [read_havoc]; cases Cells.read s.mem.obuf i <;> rfl
  | some n => cases Cells.read s.mem.obuf i <;> simp [hb]

/-- `OBUF` after an operation without a byte-string result is `OBUF` with no result. -/
theorem obufByte_noOutput (s : State) (i : Nat) : obufByte (noOutput s) i = obufByte (staleOutput s) i := rfl

/-- What `OBUF` holds after a byte-string result: the result's bytes, and from its end on a free value
wherever a byte was ever stored. -/
theorem obufByte_setOutput (bytes : List Byte) (s : State) {i : Nat} (hb : i < Config.bufCap) :
    obufByte (setOutput bytes s) i =
      if i < bytes.length then bytes[i]?
      else (obufByte s i).map fun _ => (Config.freeValue s.free (.cell .obuf i)).setWidth 8 := by
  have hr : Cells.read (setOutput bytes s).mem.obuf i =
      if i < bytes.length then bytes[i]? else Cells.read (staleObuf s) i := by
    simp [setOutput, read_writeRange]
  by_cases hi : i < bytes.length
  · rw [if_pos hi, List.getElem?_eq_getElem hi] at hr
    rw [if_pos hi, List.getElem?_eq_getElem hi, obufByte_of_read hr]
  · rw [if_neg hi] at hr ⊢
    have hs : obufByte (setOutput bytes s) i = obufByte (staleOutput s) i := by
      unfold obufByte
      rw [hr]; rfl
    rw [hs, obufByte_staleOutput s hb]

/-- After an operation left all of `OBUF` unspecified every byte of it holds a free value. -/
theorem obufByte_havocObuf (s : State) (i : Nat) :
    obufByte (havocObuf s) i =
      if i < Config.bufCap then some ((Config.freeValue s.free (.cell .obuf i)).setWidth 8) else none := by
  simp [obufByte, havocObuf]

/-! ### The canonical form -/

theorem wf_nil (cap : Nat) : Cells.wf cap ([] : Cells w) := by simp [Cells.wf]

theorem mem_ofList {a : Nat} {vs : List (BitVec w)} {c : Nat × BitVec w} (h : c ∈ Cells.ofList a vs) :
    a ≤ c.1 ∧ c.1 < a + vs.length := by
  induction vs generalizing a with
  | nil => simp [Cells.ofList] at h
  | cons v vs ih =>
    simp only [Cells.ofList, List.mem_cons, List.length_cons] at h ⊢
    rcases h with rfl | h
    · simp
    · have := ih h; omega

theorem pairwise_ofList (a : Nat) (vs : List (BitVec w)) :
    ((Cells.ofList a vs).map Prod.fst).Pairwise (· < ·) := by
  induction vs generalizing a with
  | nil => simp [Cells.ofList]
  | cons v vs ih =>
    simp only [Cells.ofList, List.map_cons, List.pairwise_cons]
    refine ⟨fun b hb => ?_, ih _⟩
    obtain ⟨c, hc, rfl⟩ := List.mem_map.1 hb
    have := mem_ofList hc; omega

theorem wf_ofList {cap a : Nat} {vs : List (BitVec w)} (h : a + vs.length ≤ cap) :
    Cells.wf cap (Cells.ofList a vs) :=
  ⟨pairwise_ofList a vs, fun c hc => by have := mem_ofList hc; omega⟩

theorem wf_filter {cap : Nat} {m : Cells w} (p : Nat × BitVec w → Bool) (h : Cells.wf cap m) :
    Cells.wf cap (m.filter p) :=
  ⟨List.Pairwise.sublist (List.Sublist.map _ List.filter_sublist) h.1,
    fun c hc => h.2 c (List.mem_of_mem_filter hc)⟩

theorem wf_append {cap : Nat} {m n : Cells w} (hm : Cells.wf cap m) (hn : Cells.wf cap n)
    (h : ∀ c ∈ m, ∀ d ∈ n, c.1 < d.1) : Cells.wf cap (m ++ n) := by
  refine ⟨?_, fun c hc => (List.mem_append.1 hc).elim (hm.2 c) (hn.2 c)⟩
  rw [List.map_append, List.pairwise_append]
  refine ⟨hm.1, hn.1, fun a ha b hb => ?_⟩
  obtain ⟨c, hc, rfl⟩ := List.mem_map.1 ha
  obtain ⟨d, hd, rfl⟩ := List.mem_map.1 hb
  exact h c hc d hd

theorem wf_writeRange {cap a : Nat} {m : Cells w} {vs : List (BitVec w)} (hm : Cells.wf cap m)
    (h : a + vs.length ≤ cap) : Cells.wf cap (Cells.writeRange m a vs) := by
  unfold Cells.writeRange
  refine wf_append (wf_filter _ hm) (wf_append (wf_ofList h) (wf_filter _ hm) ?_) ?_
  · intro c hc d hd
    have := mem_ofList hc
    have := (List.mem_filter.1 hd).2
    simp at this; omega
  · intro c hc d hd
    have h1 := (List.mem_filter.1 hc).2
    rcases List.mem_append.1 hd with hd | hd
    · have := mem_ofList hd; simp at h1; omega
    · have h2 := (List.mem_filter.1 hd).2
      simp at h1 h2; omega

theorem wf_write {cap i : Nat} {m : Cells w} {v : BitVec w} (hm : Cells.wf cap m) (h : i < cap) :
    Cells.wf cap (Cells.write m i v) := wf_writeRange hm (by simpa using h)

theorem wf_havoc {cap : Nat} {m : Cells w} (n : Nat) (sp : Space) (hm : Cells.wf cap m) :
    Cells.wf cap (Cells.havoc n sp m) := by
  refine ⟨?_, fun c hc => ?_⟩
  · simpa [Cells.havoc, Function.comp_def] using hm.1
  · obtain ⟨d, hd, rfl⟩ := List.mem_map.1 hc
    exact hm.2 d hd

theorem wf_unspecified (n : Nat) (sp : Space) :
    Cells.wf (Config.cells sp) (Cells.unspecified (w := w) n sp) := wf_ofList (by simp)

/-- The memory right after reset has the canonical form. -/
theorem wf_unwritten : Memory.unwritten.wf :=
  ⟨wf_nil _, wf_nil _, wf_nil _, wf_nil _, wf_nil _, wf_nil _⟩

end Sys2Proof.Machine
end

