-- ==== Sys2Proof/Laws/State.lean ====
section
/-! SUPPORT. One lemma per field per shared state update: what the update gives the field. -/

namespace Sys2Proof.Machine

/-! ### startStep -/

@[simp] theorem startStep_phase (w : Word) (s : State) : (startStep w s).phase = .busy := rfl
@[simp] theorem startStep_opLatch (w : Word) (s : State) : (startStep w s).opLatch = w := rfl
@[simp] theorem startStep_done (w : Word) (s : State) : (startStep w s).done = false := rfl
@[simp] theorem startStep_err (w : Word) (s : State) : (startStep w s).err = false := rfl
@[simp] theorem startStep_valid (w : Word) (s : State) : (startStep w s).valid = false := rfl
@[simp] theorem startStep_errcode (w : Word) (s : State) : (startStep w s).errcode = 0 := rfl
@[simp] theorem startStep_cmdid (w : Word) (s : State) : (startStep w s).cmdid = s.cmdid := rfl
@[simp] theorem startStep_imm (w : Word) (s : State) : (startStep w s).imm = s.imm := rfl
@[simp] theorem startStep_ilen (w : Word) (s : State) : (startStep w s).ilen = s.ilen := rfl
@[simp] theorem startStep_olen (w : Word) (s : State) : (startStep w s).olen = s.olen := rfl
@[simp] theorem startStep_rstart (w : Word) (s : State) : (startStep w s).rstart = s.rstart := rfl
@[simp] theorem startStep_rend (w : Word) (s : State) : (startStep w s).rend = s.rend := rfl
@[simp] theorem startStep_sum (w : Word) (s : State) : (startStep w s).sum = s.sum := rfl
@[simp] theorem startStep_expect (w : Word) (s : State) : (startStep w s).expect = s.expect := rfl
@[simp] theorem startStep_rcmd (w : Word) (s : State) : (startStep w s).rcmd = s.rcmd := rfl
@[simp] theorem startStep_rsize (w : Word) (s : State) : (startStep w s).rsize = s.rsize := rfl
@[simp] theorem startStep_plen (w : Word) (s : State) : (startStep w s).plen = s.plen := rfl
@[simp] theorem startStep_npix (w : Word) (s : State) : (startStep w s).npix = s.npix := rfl
@[simp] theorem startStep_bpp (w : Word) (s : State) : (startStep w s).bpp = s.bpp := rfl
@[simp] theorem startStep_soff (w : Word) (s : State) : (startStep w s).soff = s.soff := rfl
@[simp] theorem startStep_skipcnt (w : Word) (s : State) : (startStep w s).skipcnt = s.skipcnt := rfl
@[simp] theorem startStep_trailbits (w : Word) (s : State) : (startStep w s).trailbits = s.trailbits := rfl
@[simp] theorem startStep_mem (w : Word) (s : State) : (startStep w s).mem = s.mem := rfl
@[simp] theorem startStep_moves (w : Word) (s : State) : (startStep w s).moves = s.moves := rfl
@[simp] theorem startStep_rdata (w : Word) (s : State) : (startStep w s).rdata = s.rdata := rfl
@[simp] theorem startStep_busyFor (w : Word) (s : State) : (startStep w s).busyFor = Config.busyMoves s.free := rfl
@[simp] theorem startStep_free (w : Word) (s : State) : (startStep w s).free = s.free + 1 := rfl
@[simp] theorem startStep_obufOpen (w : Word) (s : State) : (startStep w s).obufOpen = s.obufOpen := rfl

/-! ### complete -/

@[simp] theorem complete_phase (s : State) : (complete s).phase = .idle := rfl
@[simp] theorem complete_opLatch (s : State) : (complete s).opLatch = s.opLatch := rfl
@[simp] theorem complete_done (s : State) : (complete s).done = true := rfl
@[simp] theorem complete_err (s : State) : (complete s).err = false := rfl
@[simp] theorem complete_valid (s : State) : (complete s).valid = s.valid := rfl
@[simp] theorem complete_errcode (s : State) : (complete s).errcode = 0 := rfl
@[simp] theorem complete_cmdid (s : State) : (complete s).cmdid = s.cmdid := rfl
@[simp] theorem complete_imm (s : State) : (complete s).imm = s.imm := rfl
@[simp] theorem complete_ilen (s : State) : (complete s).ilen = s.ilen := rfl
@[simp] theorem complete_olen (s : State) : (complete s).olen = s.olen := rfl
@[simp] theorem complete_rstart (s : State) : (complete s).rstart = s.rstart := rfl
@[simp] theorem complete_rend (s : State) : (complete s).rend = s.rend := rfl
@[simp] theorem complete_sum (s : State) : (complete s).sum = s.sum := rfl
@[simp] theorem complete_expect (s : State) : (complete s).expect = s.expect := rfl
@[simp] theorem complete_rcmd (s : State) : (complete s).rcmd = s.rcmd := rfl
@[simp] theorem complete_rsize (s : State) : (complete s).rsize = s.rsize := rfl
@[simp] theorem complete_plen (s : State) : (complete s).plen = s.plen := rfl
@[simp] theorem complete_npix (s : State) : (complete s).npix = s.npix := rfl
@[simp] theorem complete_bpp (s : State) : (complete s).bpp = s.bpp := rfl
@[simp] theorem complete_soff (s : State) : (complete s).soff = s.soff := rfl
@[simp] theorem complete_skipcnt (s : State) : (complete s).skipcnt = s.skipcnt := rfl
@[simp] theorem complete_trailbits (s : State) : (complete s).trailbits = s.trailbits := rfl
@[simp] theorem complete_mem (s : State) : (complete s).mem = s.mem := rfl
@[simp] theorem complete_moves (s : State) : (complete s).moves = s.moves := rfl
@[simp] theorem complete_rdata (s : State) : (complete s).rdata = s.rdata := rfl
@[simp] theorem complete_busyFor (s : State) : (complete s).busyFor = s.busyFor := rfl
@[simp] theorem complete_free (s : State) : (complete s).free = s.free := rfl
@[simp] theorem complete_obufOpen (s : State) : (complete s).obufOpen = s.obufOpen := rfl

/-! ### raiseError -/

@[simp] theorem raiseError_phase (e : ErrorName) (s : State) : (raiseError e s).phase = .idle := rfl
@[simp] theorem raiseError_opLatch (e : ErrorName) (s : State) : (raiseError e s).opLatch = s.opLatch := rfl
@[simp] theorem raiseError_done (e : ErrorName) (s : State) : (raiseError e s).done = true := rfl
@[simp] theorem raiseError_err (e : ErrorName) (s : State) : (raiseError e s).err = true := rfl
@[simp] theorem raiseError_valid (e : ErrorName) (s : State) : (raiseError e s).valid = false := rfl
@[simp] theorem raiseError_errcode (e : ErrorName) (s : State) : (raiseError e s).errcode = errorCode e := rfl
@[simp] theorem raiseError_cmdid (e : ErrorName) (s : State) : (raiseError e s).cmdid = s.cmdid := rfl
@[simp] theorem raiseError_imm (e : ErrorName) (s : State) : (raiseError e s).imm = s.imm := rfl
@[simp] theorem raiseError_ilen (e : ErrorName) (s : State) : (raiseError e s).ilen = s.ilen := rfl
@[simp] theorem raiseError_olen (e : ErrorName) (s : State) : (raiseError e s).olen = 0 := rfl
@[simp] theorem raiseError_rstart (e : ErrorName) (s : State) : (raiseError e s).rstart = s.rstart := rfl
@[simp] theorem raiseError_rend (e : ErrorName) (s : State) : (raiseError e s).rend = s.rend := rfl
@[simp] theorem raiseError_sum (e : ErrorName) (s : State) : (raiseError e s).sum = s.sum := rfl
@[simp] theorem raiseError_expect (e : ErrorName) (s : State) : (raiseError e s).expect = s.expect := rfl
@[simp] theorem raiseError_rcmd (e : ErrorName) (s : State) : (raiseError e s).rcmd = s.rcmd := rfl
@[simp] theorem raiseError_rsize (e : ErrorName) (s : State) : (raiseError e s).rsize = s.rsize := rfl
@[simp] theorem raiseError_plen (e : ErrorName) (s : State) : (raiseError e s).plen = s.plen := rfl
@[simp] theorem raiseError_npix (e : ErrorName) (s : State) : (raiseError e s).npix = s.npix := rfl
@[simp] theorem raiseError_bpp (e : ErrorName) (s : State) : (raiseError e s).bpp = s.bpp := rfl
@[simp] theorem raiseError_soff (e : ErrorName) (s : State) : (raiseError e s).soff = s.soff := rfl
@[simp] theorem raiseError_skipcnt (e : ErrorName) (s : State) : (raiseError e s).skipcnt = s.skipcnt := rfl
@[simp] theorem raiseError_trailbits (e : ErrorName) (s : State) : (raiseError e s).trailbits = s.trailbits := rfl
@[simp] theorem raiseError_mem (e : ErrorName) (s : State) : (raiseError e s).mem = s.mem := rfl
@[simp] theorem raiseError_moves (e : ErrorName) (s : State) : (raiseError e s).moves = s.moves := rfl
@[simp] theorem raiseError_rdata (e : ErrorName) (s : State) : (raiseError e s).rdata = s.rdata := rfl
@[simp] theorem raiseError_busyFor (e : ErrorName) (s : State) : (raiseError e s).busyFor = s.busyFor := rfl
@[simp] theorem raiseError_free (e : ErrorName) (s : State) : (raiseError e s).free = s.free := rfl
@[simp] theorem raiseError_obufOpen (e : ErrorName) (s : State) : (raiseError e s).obufOpen = s.obufOpen := rfl

/-! ### setOutput -/

@[simp] theorem setOutput_phase (bytes : List Byte) (s : State) : (setOutput bytes s).phase = s.phase := rfl
@[simp] theorem setOutput_opLatch (bytes : List Byte) (s : State) : (setOutput bytes s).opLatch = s.opLatch := rfl
@[simp] theorem setOutput_done (bytes : List Byte) (s : State) : (setOutput bytes s).done = s.done := rfl
@[simp] theorem setOutput_err (bytes : List Byte) (s : State) : (setOutput bytes s).err = s.err := rfl
@[simp] theorem setOutput_valid (bytes : List Byte) (s : State) : (setOutput bytes s).valid = s.valid := rfl
@[simp] theorem setOutput_errcode (bytes : List Byte) (s : State) : (setOutput bytes s).errcode = s.errcode := rfl
@[simp] theorem setOutput_cmdid (bytes : List Byte) (s : State) : (setOutput bytes s).cmdid = s.cmdid := rfl
@[simp] theorem setOutput_imm (bytes : List Byte) (s : State) : (setOutput bytes s).imm = s.imm := rfl
@[simp] theorem setOutput_ilen (bytes : List Byte) (s : State) : (setOutput bytes s).ilen = s.ilen := rfl
@[simp] theorem setOutput_olen (bytes : List Byte) (s : State) : (setOutput bytes s).olen = BitVec.ofNat 32 bytes.length := rfl
@[simp] theorem setOutput_rstart (bytes : List Byte) (s : State) : (setOutput bytes s).rstart = s.rstart := rfl
@[simp] theorem setOutput_rend (bytes : List Byte) (s : State) : (setOutput bytes s).rend = s.rend := rfl
@[simp] theorem setOutput_sum (bytes : List Byte) (s : State) : (setOutput bytes s).sum = s.sum := rfl
@[simp] theorem setOutput_expect (bytes : List Byte) (s : State) : (setOutput bytes s).expect = s.expect := rfl
@[simp] theorem setOutput_rcmd (bytes : List Byte) (s : State) : (setOutput bytes s).rcmd = s.rcmd := rfl
@[simp] theorem setOutput_rsize (bytes : List Byte) (s : State) : (setOutput bytes s).rsize = s.rsize := rfl
@[simp] theorem setOutput_plen (bytes : List Byte) (s : State) : (setOutput bytes s).plen = s.plen := rfl
@[simp] theorem setOutput_npix (bytes : List Byte) (s : State) : (setOutput bytes s).npix = s.npix := rfl
@[simp] theorem setOutput_bpp (bytes : List Byte) (s : State) : (setOutput bytes s).bpp = s.bpp := rfl
@[simp] theorem setOutput_soff (bytes : List Byte) (s : State) : (setOutput bytes s).soff = s.soff := rfl
@[simp] theorem setOutput_skipcnt (bytes : List Byte) (s : State) : (setOutput bytes s).skipcnt = s.skipcnt := rfl
@[simp] theorem setOutput_trailbits (bytes : List Byte) (s : State) : (setOutput bytes s).trailbits = s.trailbits := rfl
@[simp] theorem setOutput_mem (bytes : List Byte) (s : State) : (setOutput bytes s).mem = { s.mem with obuf := Cells.writeRange (staleObuf s) 0 bytes } := rfl
@[simp] theorem setOutput_moves (bytes : List Byte) (s : State) : (setOutput bytes s).moves = s.moves := rfl
@[simp] theorem setOutput_rdata (bytes : List Byte) (s : State) : (setOutput bytes s).rdata = s.rdata := rfl
@[simp] theorem setOutput_busyFor (bytes : List Byte) (s : State) : (setOutput bytes s).busyFor = s.busyFor := rfl
@[simp] theorem setOutput_free (bytes : List Byte) (s : State) : (setOutput bytes s).free = s.free + 1 := rfl
@[simp] theorem setOutput_obufOpen (bytes : List Byte) (s : State) : (setOutput bytes s).obufOpen = s.obufOpen.map fun _ => s.free := rfl

/-! ### staleOutput -/

@[simp] theorem staleOutput_phase (s : State) : (staleOutput s).phase = s.phase := rfl
@[simp] theorem staleOutput_opLatch (s : State) : (staleOutput s).opLatch = s.opLatch := rfl
@[simp] theorem staleOutput_done (s : State) : (staleOutput s).done = s.done := rfl
@[simp] theorem staleOutput_err (s : State) : (staleOutput s).err = s.err := rfl
@[simp] theorem staleOutput_valid (s : State) : (staleOutput s).valid = s.valid := rfl
@[simp] theorem staleOutput_errcode (s : State) : (staleOutput s).errcode = s.errcode := rfl
@[simp] theorem staleOutput_cmdid (s : State) : (staleOutput s).cmdid = s.cmdid := rfl
@[simp] theorem staleOutput_imm (s : State) : (staleOutput s).imm = s.imm := rfl
@[simp] theorem staleOutput_ilen (s : State) : (staleOutput s).ilen = s.ilen := rfl
@[simp] theorem staleOutput_olen (s : State) : (staleOutput s).olen = s.olen := rfl
@[simp] theorem staleOutput_rstart (s : State) : (staleOutput s).rstart = s.rstart := rfl
@[simp] theorem staleOutput_rend (s : State) : (staleOutput s).rend = s.rend := rfl
@[simp] theorem staleOutput_sum (s : State) : (staleOutput s).sum = s.sum := rfl
@[simp] theorem staleOutput_expect (s : State) : (staleOutput s).expect = s.expect := rfl
@[simp] theorem staleOutput_rcmd (s : State) : (staleOutput s).rcmd = s.rcmd := rfl
@[simp] theorem staleOutput_rsize (s : State) : (staleOutput s).rsize = s.rsize := rfl
@[simp] theorem staleOutput_plen (s : State) : (staleOutput s).plen = s.plen := rfl
@[simp] theorem staleOutput_npix (s : State) : (staleOutput s).npix = s.npix := rfl
@[simp] theorem staleOutput_bpp (s : State) : (staleOutput s).bpp = s.bpp := rfl
@[simp] theorem staleOutput_soff (s : State) : (staleOutput s).soff = s.soff := rfl
@[simp] theorem staleOutput_skipcnt (s : State) : (staleOutput s).skipcnt = s.skipcnt := rfl
@[simp] theorem staleOutput_trailbits (s : State) : (staleOutput s).trailbits = s.trailbits := rfl
@[simp] theorem staleOutput_mem (s : State) : (staleOutput s).mem = { s.mem with obuf := staleObuf s } := rfl
@[simp] theorem staleOutput_moves (s : State) : (staleOutput s).moves = s.moves := rfl
@[simp] theorem staleOutput_rdata (s : State) : (staleOutput s).rdata = s.rdata := rfl
@[simp] theorem staleOutput_busyFor (s : State) : (staleOutput s).busyFor = s.busyFor := rfl
@[simp] theorem staleOutput_free (s : State) : (staleOutput s).free = s.free := rfl
@[simp] theorem staleOutput_obufOpen (s : State) : (staleOutput s).obufOpen = s.obufOpen.map fun _ => s.free := rfl

/-! ### noOutput -/

@[simp] theorem noOutput_phase (s : State) : (noOutput s).phase = s.phase := rfl
@[simp] theorem noOutput_opLatch (s : State) : (noOutput s).opLatch = s.opLatch := rfl
@[simp] theorem noOutput_done (s : State) : (noOutput s).done = s.done := rfl
@[simp] theorem noOutput_err (s : State) : (noOutput s).err = s.err := rfl
@[simp] theorem noOutput_valid (s : State) : (noOutput s).valid = s.valid := rfl
@[simp] theorem noOutput_errcode (s : State) : (noOutput s).errcode = s.errcode := rfl
@[simp] theorem noOutput_cmdid (s : State) : (noOutput s).cmdid = s.cmdid := rfl
@[simp] theorem noOutput_imm (s : State) : (noOutput s).imm = s.imm := rfl
@[simp] theorem noOutput_ilen (s : State) : (noOutput s).ilen = s.ilen := rfl
@[simp] theorem noOutput_olen (s : State) : (noOutput s).olen = 0 := rfl
@[simp] theorem noOutput_rstart (s : State) : (noOutput s).rstart = s.rstart := rfl
@[simp] theorem noOutput_rend (s : State) : (noOutput s).rend = s.rend := rfl
@[simp] theorem noOutput_sum (s : State) : (noOutput s).sum = s.sum := rfl
@[simp] theorem noOutput_expect (s : State) : (noOutput s).expect = s.expect := rfl
@[simp] theorem noOutput_rcmd (s : State) : (noOutput s).rcmd = s.rcmd := rfl
@[simp] theorem noOutput_rsize (s : State) : (noOutput s).rsize = s.rsize := rfl
@[simp] theorem noOutput_plen (s : State) : (noOutput s).plen = s.plen := rfl
@[simp] theorem noOutput_npix (s : State) : (noOutput s).npix = s.npix := rfl
@[simp] theorem noOutput_bpp (s : State) : (noOutput s).bpp = s.bpp := rfl
@[simp] theorem noOutput_soff (s : State) : (noOutput s).soff = s.soff := rfl
@[simp] theorem noOutput_skipcnt (s : State) : (noOutput s).skipcnt = s.skipcnt := rfl
@[simp] theorem noOutput_trailbits (s : State) : (noOutput s).trailbits = s.trailbits := rfl
@[simp] theorem noOutput_mem (s : State) : (noOutput s).mem = { s.mem with obuf := staleObuf s } := rfl
@[simp] theorem noOutput_moves (s : State) : (noOutput s).moves = s.moves := rfl
@[simp] theorem noOutput_rdata (s : State) : (noOutput s).rdata = s.rdata := rfl
@[simp] theorem noOutput_busyFor (s : State) : (noOutput s).busyFor = s.busyFor := rfl
@[simp] theorem noOutput_free (s : State) : (noOutput s).free = s.free + 1 := rfl
@[simp] theorem noOutput_obufOpen (s : State) : (noOutput s).obufOpen = s.obufOpen.map fun _ => s.free := rfl

/-! ### havocObuf -/

@[simp] theorem havocObuf_phase (s : State) : (havocObuf s).phase = s.phase := rfl
@[simp] theorem havocObuf_opLatch (s : State) : (havocObuf s).opLatch = s.opLatch := rfl
@[simp] theorem havocObuf_done (s : State) : (havocObuf s).done = s.done := rfl
@[simp] theorem havocObuf_err (s : State) : (havocObuf s).err = s.err := rfl
@[simp] theorem havocObuf_valid (s : State) : (havocObuf s).valid = s.valid := rfl
@[simp] theorem havocObuf_errcode (s : State) : (havocObuf s).errcode = s.errcode := rfl
@[simp] theorem havocObuf_cmdid (s : State) : (havocObuf s).cmdid = s.cmdid := rfl
@[simp] theorem havocObuf_imm (s : State) : (havocObuf s).imm = s.imm := rfl
@[simp] theorem havocObuf_ilen (s : State) : (havocObuf s).ilen = s.ilen := rfl
@[simp] theorem havocObuf_olen (s : State) : (havocObuf s).olen = s.olen := rfl
@[simp] theorem havocObuf_rstart (s : State) : (havocObuf s).rstart = s.rstart := rfl
@[simp] theorem havocObuf_rend (s : State) : (havocObuf s).rend = s.rend := rfl
@[simp] theorem havocObuf_sum (s : State) : (havocObuf s).sum = s.sum := rfl
@[simp] theorem havocObuf_expect (s : State) : (havocObuf s).expect = s.expect := rfl
@[simp] theorem havocObuf_rcmd (s : State) : (havocObuf s).rcmd = s.rcmd := rfl
@[simp] theorem havocObuf_rsize (s : State) : (havocObuf s).rsize = s.rsize := rfl
@[simp] theorem havocObuf_plen (s : State) : (havocObuf s).plen = s.plen := rfl
@[simp] theorem havocObuf_npix (s : State) : (havocObuf s).npix = s.npix := rfl
@[simp] theorem havocObuf_bpp (s : State) : (havocObuf s).bpp = s.bpp := rfl
@[simp] theorem havocObuf_soff (s : State) : (havocObuf s).soff = s.soff := rfl
@[simp] theorem havocObuf_skipcnt (s : State) : (havocObuf s).skipcnt = s.skipcnt := rfl
@[simp] theorem havocObuf_trailbits (s : State) : (havocObuf s).trailbits = s.trailbits := rfl
@[simp] theorem havocObuf_mem (s : State) : (havocObuf s).mem = { s.mem with obuf := [] } := rfl
@[simp] theorem havocObuf_moves (s : State) : (havocObuf s).moves = s.moves := rfl
@[simp] theorem havocObuf_rdata (s : State) : (havocObuf s).rdata = s.rdata := rfl
@[simp] theorem havocObuf_busyFor (s : State) : (havocObuf s).busyFor = s.busyFor := rfl
@[simp] theorem havocObuf_free (s : State) : (havocObuf s).free = s.free := rfl
@[simp] theorem havocObuf_obufOpen (s : State) : (havocObuf s).obufOpen = some s.free := rfl

/-! ### havocSum -/

@[simp] theorem havocSum_phase (s : State) : (havocSum s).phase = s.phase := rfl
@[simp] theorem havocSum_opLatch (s : State) : (havocSum s).opLatch = s.opLatch := rfl
@[simp] theorem havocSum_done (s : State) : (havocSum s).done = s.done := rfl
@[simp] theorem havocSum_err (s : State) : (havocSum s).err = s.err := rfl
@[simp] theorem havocSum_valid (s : State) : (havocSum s).valid = s.valid := rfl
@[simp] theorem havocSum_errcode (s : State) : (havocSum s).errcode = s.errcode := rfl
@[simp] theorem havocSum_cmdid (s : State) : (havocSum s).cmdid = s.cmdid := rfl
@[simp] theorem havocSum_imm (s : State) : (havocSum s).imm = s.imm := rfl
@[simp] theorem havocSum_ilen (s : State) : (havocSum s).ilen = s.ilen := rfl
@[simp] theorem havocSum_olen (s : State) : (havocSum s).olen = s.olen := rfl
@[simp] theorem havocSum_rstart (s : State) : (havocSum s).rstart = s.rstart := rfl
@[simp] theorem havocSum_rend (s : State) : (havocSum s).rend = s.rend := rfl
@[simp] theorem havocSum_sum (s : State) : (havocSum s).sum = s.any 16 (.reg .sum) := rfl
@[simp] theorem havocSum_expect (s : State) : (havocSum s).expect = s.expect := rfl
@[simp] theorem havocSum_rcmd (s : State) : (havocSum s).rcmd = s.rcmd := rfl
@[simp] theorem havocSum_rsize (s : State) : (havocSum s).rsize = s.rsize := rfl
@[simp] theorem havocSum_plen (s : State) : (havocSum s).plen = s.plen := rfl
@[simp] theorem havocSum_npix (s : State) : (havocSum s).npix = s.npix := rfl
@[simp] theorem havocSum_bpp (s : State) : (havocSum s).bpp = s.bpp := rfl
@[simp] theorem havocSum_soff (s : State) : (havocSum s).soff = s.soff := rfl
@[simp] theorem havocSum_skipcnt (s : State) : (havocSum s).skipcnt = s.skipcnt := rfl
@[simp] theorem havocSum_trailbits (s : State) : (havocSum s).trailbits = s.trailbits := rfl
@[simp] theorem havocSum_mem (s : State) : (havocSum s).mem = s.mem := rfl
@[simp] theorem havocSum_moves (s : State) : (havocSum s).moves = s.moves := rfl
@[simp] theorem havocSum_rdata (s : State) : (havocSum s).rdata = s.rdata := rfl
@[simp] theorem havocSum_busyFor (s : State) : (havocSum s).busyFor = s.busyFor := rfl
@[simp] theorem havocSum_free (s : State) : (havocSum s).free = s.free := rfl
@[simp] theorem havocSum_obufOpen (s : State) : (havocSum s).obufOpen = s.obufOpen := rfl

/-! ### havocRsize -/

@[simp] theorem havocRsize_phase (s : State) : (havocRsize s).phase = s.phase := rfl
@[simp] theorem havocRsize_opLatch (s : State) : (havocRsize s).opLatch = s.opLatch := rfl
@[simp] theorem havocRsize_done (s : State) : (havocRsize s).done = s.done := rfl
@[simp] theorem havocRsize_err (s : State) : (havocRsize s).err = s.err := rfl
@[simp] theorem havocRsize_valid (s : State) : (havocRsize s).valid = s.valid := rfl
@[simp] theorem havocRsize_errcode (s : State) : (havocRsize s).errcode = s.errcode := rfl
@[simp] theorem havocRsize_cmdid (s : State) : (havocRsize s).cmdid = s.cmdid := rfl
@[simp] theorem havocRsize_imm (s : State) : (havocRsize s).imm = s.imm := rfl
@[simp] theorem havocRsize_ilen (s : State) : (havocRsize s).ilen = s.ilen := rfl
@[simp] theorem havocRsize_olen (s : State) : (havocRsize s).olen = s.olen := rfl
@[simp] theorem havocRsize_rstart (s : State) : (havocRsize s).rstart = s.rstart := rfl
@[simp] theorem havocRsize_rend (s : State) : (havocRsize s).rend = s.rend := rfl
@[simp] theorem havocRsize_sum (s : State) : (havocRsize s).sum = s.sum := rfl
@[simp] theorem havocRsize_expect (s : State) : (havocRsize s).expect = s.expect := rfl
@[simp] theorem havocRsize_rcmd (s : State) : (havocRsize s).rcmd = s.rcmd := rfl
@[simp] theorem havocRsize_rsize (s : State) : (havocRsize s).rsize = s.any 16 (.reg .rsize) := rfl
@[simp] theorem havocRsize_plen (s : State) : (havocRsize s).plen = s.plen := rfl
@[simp] theorem havocRsize_npix (s : State) : (havocRsize s).npix = s.npix := rfl
@[simp] theorem havocRsize_bpp (s : State) : (havocRsize s).bpp = s.bpp := rfl
@[simp] theorem havocRsize_soff (s : State) : (havocRsize s).soff = s.soff := rfl
@[simp] theorem havocRsize_skipcnt (s : State) : (havocRsize s).skipcnt = s.skipcnt := rfl
@[simp] theorem havocRsize_trailbits (s : State) : (havocRsize s).trailbits = s.trailbits := rfl
@[simp] theorem havocRsize_mem (s : State) : (havocRsize s).mem = s.mem := rfl
@[simp] theorem havocRsize_moves (s : State) : (havocRsize s).moves = s.moves := rfl
@[simp] theorem havocRsize_rdata (s : State) : (havocRsize s).rdata = s.rdata := rfl
@[simp] theorem havocRsize_busyFor (s : State) : (havocRsize s).busyFor = s.busyFor := rfl
@[simp] theorem havocRsize_free (s : State) : (havocRsize s).free = s.free := rfl
@[simp] theorem havocRsize_obufOpen (s : State) : (havocRsize s).obufOpen = s.obufOpen := rfl

/-! ### havocRcmd -/

@[simp] theorem havocRcmd_phase (s : State) : (havocRcmd s).phase = s.phase := rfl
@[simp] theorem havocRcmd_opLatch (s : State) : (havocRcmd s).opLatch = s.opLatch := rfl
@[simp] theorem havocRcmd_done (s : State) : (havocRcmd s).done = s.done := rfl
@[simp] theorem havocRcmd_err (s : State) : (havocRcmd s).err = s.err := rfl
@[simp] theorem havocRcmd_valid (s : State) : (havocRcmd s).valid = s.valid := rfl
@[simp] theorem havocRcmd_errcode (s : State) : (havocRcmd s).errcode = s.errcode := rfl
@[simp] theorem havocRcmd_cmdid (s : State) : (havocRcmd s).cmdid = s.cmdid := rfl
@[simp] theorem havocRcmd_imm (s : State) : (havocRcmd s).imm = s.imm := rfl
@[simp] theorem havocRcmd_ilen (s : State) : (havocRcmd s).ilen = s.ilen := rfl
@[simp] theorem havocRcmd_olen (s : State) : (havocRcmd s).olen = s.olen := rfl
@[simp] theorem havocRcmd_rstart (s : State) : (havocRcmd s).rstart = s.rstart := rfl
@[simp] theorem havocRcmd_rend (s : State) : (havocRcmd s).rend = s.rend := rfl
@[simp] theorem havocRcmd_sum (s : State) : (havocRcmd s).sum = s.sum := rfl
@[simp] theorem havocRcmd_expect (s : State) : (havocRcmd s).expect = s.expect := rfl
@[simp] theorem havocRcmd_rcmd (s : State) : (havocRcmd s).rcmd = s.any 8 (.reg .rcmd) := rfl
@[simp] theorem havocRcmd_rsize (s : State) : (havocRcmd s).rsize = s.rsize := rfl
@[simp] theorem havocRcmd_plen (s : State) : (havocRcmd s).plen = s.plen := rfl
@[simp] theorem havocRcmd_npix (s : State) : (havocRcmd s).npix = s.npix := rfl
@[simp] theorem havocRcmd_bpp (s : State) : (havocRcmd s).bpp = s.bpp := rfl
@[simp] theorem havocRcmd_soff (s : State) : (havocRcmd s).soff = s.soff := rfl
@[simp] theorem havocRcmd_skipcnt (s : State) : (havocRcmd s).skipcnt = s.skipcnt := rfl
@[simp] theorem havocRcmd_trailbits (s : State) : (havocRcmd s).trailbits = s.trailbits := rfl
@[simp] theorem havocRcmd_mem (s : State) : (havocRcmd s).mem = s.mem := rfl
@[simp] theorem havocRcmd_moves (s : State) : (havocRcmd s).moves = s.moves := rfl
@[simp] theorem havocRcmd_rdata (s : State) : (havocRcmd s).rdata = s.rdata := rfl
@[simp] theorem havocRcmd_busyFor (s : State) : (havocRcmd s).busyFor = s.busyFor := rfl
@[simp] theorem havocRcmd_free (s : State) : (havocRcmd s).free = s.free := rfl
@[simp] theorem havocRcmd_obufOpen (s : State) : (havocRcmd s).obufOpen = s.obufOpen := rfl

/-! ### havocPalette -/

@[simp] theorem havocPalette_phase (s : State) : (havocPalette s).phase = s.phase := rfl
@[simp] theorem havocPalette_opLatch (s : State) : (havocPalette s).opLatch = s.opLatch := rfl
@[simp] theorem havocPalette_done (s : State) : (havocPalette s).done = s.done := rfl
@[simp] theorem havocPalette_err (s : State) : (havocPalette s).err = s.err := rfl
@[simp] theorem havocPalette_valid (s : State) : (havocPalette s).valid = s.valid := rfl
@[simp] theorem havocPalette_errcode (s : State) : (havocPalette s).errcode = s.errcode := rfl
@[simp] theorem havocPalette_cmdid (s : State) : (havocPalette s).cmdid = s.cmdid := rfl
@[simp] theorem havocPalette_imm (s : State) : (havocPalette s).imm = s.imm := rfl
@[simp] theorem havocPalette_ilen (s : State) : (havocPalette s).ilen = s.ilen := rfl
@[simp] theorem havocPalette_olen (s : State) : (havocPalette s).olen = s.olen := rfl
@[simp] theorem havocPalette_rstart (s : State) : (havocPalette s).rstart = s.rstart := rfl
@[simp] theorem havocPalette_rend (s : State) : (havocPalette s).rend = s.rend := rfl
@[simp] theorem havocPalette_sum (s : State) : (havocPalette s).sum = s.sum := rfl
@[simp] theorem havocPalette_expect (s : State) : (havocPalette s).expect = s.expect := rfl
@[simp] theorem havocPalette_rcmd (s : State) : (havocPalette s).rcmd = s.rcmd := rfl
@[simp] theorem havocPalette_rsize (s : State) : (havocPalette s).rsize = s.rsize := rfl
@[simp] theorem havocPalette_plen (s : State) : (havocPalette s).plen = s.any 32 (.reg .plen) := rfl
@[simp] theorem havocPalette_npix (s : State) : (havocPalette s).npix = s.npix := rfl
@[simp] theorem havocPalette_bpp (s : State) : (havocPalette s).bpp = s.bpp := rfl
@[simp] theorem havocPalette_soff (s : State) : (havocPalette s).soff = s.soff := rfl
@[simp] theorem havocPalette_skipcnt (s : State) : (havocPalette s).skipcnt = s.skipcnt := rfl
@[simp] theorem havocPalette_trailbits (s : State) : (havocPalette s).trailbits = s.trailbits := rfl
@[simp] theorem havocPalette_mem (s : State) : (havocPalette s).mem = { s.mem with pal := Cells.unspecified s.free .pal } := rfl
@[simp] theorem havocPalette_moves (s : State) : (havocPalette s).moves = s.moves := rfl
@[simp] theorem havocPalette_rdata (s : State) : (havocPalette s).rdata = s.rdata := rfl
@[simp] theorem havocPalette_busyFor (s : State) : (havocPalette s).busyFor = s.busyFor := rfl
@[simp] theorem havocPalette_free (s : State) : (havocPalette s).free = s.free := rfl
@[simp] theorem havocPalette_obufOpen (s : State) : (havocPalette s).obufOpen = s.obufOpen := rfl

/-! ### havocBpp -/

@[simp] theorem havocBpp_phase (s : State) : (havocBpp s).phase = s.phase := rfl
@[simp] theorem havocBpp_opLatch (s : State) : (havocBpp s).opLatch = s.opLatch := rfl
@[simp] theorem havocBpp_done (s : State) : (havocBpp s).done = s.done := rfl
@[simp] theorem havocBpp_err (s : State) : (havocBpp s).err = s.err := rfl
@[simp] theorem havocBpp_valid (s : State) : (havocBpp s).valid = s.valid := rfl
@[simp] theorem havocBpp_errcode (s : State) : (havocBpp s).errcode = s.errcode := rfl
@[simp] theorem havocBpp_cmdid (s : State) : (havocBpp s).cmdid = s.cmdid := rfl
@[simp] theorem havocBpp_imm (s : State) : (havocBpp s).imm = s.imm := rfl
@[simp] theorem havocBpp_ilen (s : State) : (havocBpp s).ilen = s.ilen := rfl
@[simp] theorem havocBpp_olen (s : State) : (havocBpp s).olen = s.olen := rfl
@[simp] theorem havocBpp_rstart (s : State) : (havocBpp s).rstart = s.rstart := rfl
@[simp] theorem havocBpp_rend (s : State) : (havocBpp s).rend = s.rend := rfl
@[simp] theorem havocBpp_sum (s : State) : (havocBpp s).sum = s.sum := rfl
@[simp] theorem havocBpp_expect (s : State) : (havocBpp s).expect = s.expect := rfl
@[simp] theorem havocBpp_rcmd (s : State) : (havocBpp s).rcmd = s.rcmd := rfl
@[simp] theorem havocBpp_rsize (s : State) : (havocBpp s).rsize = s.rsize := rfl
@[simp] theorem havocBpp_plen (s : State) : (havocBpp s).plen = s.plen := rfl
@[simp] theorem havocBpp_npix (s : State) : (havocBpp s).npix = s.npix := rfl
@[simp] theorem havocBpp_bpp (s : State) : (havocBpp s).bpp = s.any 4 (.reg .bpp) := rfl
@[simp] theorem havocBpp_soff (s : State) : (havocBpp s).soff = s.soff := rfl
@[simp] theorem havocBpp_skipcnt (s : State) : (havocBpp s).skipcnt = s.skipcnt := rfl
@[simp] theorem havocBpp_trailbits (s : State) : (havocBpp s).trailbits = s.trailbits := rfl
@[simp] theorem havocBpp_mem (s : State) : (havocBpp s).mem = s.mem := rfl
@[simp] theorem havocBpp_moves (s : State) : (havocBpp s).moves = s.moves := rfl
@[simp] theorem havocBpp_rdata (s : State) : (havocBpp s).rdata = s.rdata := rfl
@[simp] theorem havocBpp_busyFor (s : State) : (havocBpp s).busyFor = s.busyFor := rfl
@[simp] theorem havocBpp_free (s : State) : (havocBpp s).free = s.free := rfl
@[simp] theorem havocBpp_obufOpen (s : State) : (havocBpp s).obufOpen = s.obufOpen := rfl

/-! ### havocSoff -/

@[simp] theorem havocSoff_phase (s : State) : (havocSoff s).phase = s.phase := rfl
@[simp] theorem havocSoff_opLatch (s : State) : (havocSoff s).opLatch = s.opLatch := rfl
@[simp] theorem havocSoff_done (s : State) : (havocSoff s).done = s.done := rfl
@[simp] theorem havocSoff_err (s : State) : (havocSoff s).err = s.err := rfl
@[simp] theorem havocSoff_valid (s : State) : (havocSoff s).valid = s.valid := rfl
@[simp] theorem havocSoff_errcode (s : State) : (havocSoff s).errcode = s.errcode := rfl
@[simp] theorem havocSoff_cmdid (s : State) : (havocSoff s).cmdid = s.cmdid := rfl
@[simp] theorem havocSoff_imm (s : State) : (havocSoff s).imm = s.imm := rfl
@[simp] theorem havocSoff_ilen (s : State) : (havocSoff s).ilen = s.ilen := rfl
@[simp] theorem havocSoff_olen (s : State) : (havocSoff s).olen = s.olen := rfl
@[simp] theorem havocSoff_rstart (s : State) : (havocSoff s).rstart = s.rstart := rfl
@[simp] theorem havocSoff_rend (s : State) : (havocSoff s).rend = s.rend := rfl
@[simp] theorem havocSoff_sum (s : State) : (havocSoff s).sum = s.sum := rfl
@[simp] theorem havocSoff_expect (s : State) : (havocSoff s).expect = s.expect := rfl
@[simp] theorem havocSoff_rcmd (s : State) : (havocSoff s).rcmd = s.rcmd := rfl
@[simp] theorem havocSoff_rsize (s : State) : (havocSoff s).rsize = s.rsize := rfl
@[simp] theorem havocSoff_plen (s : State) : (havocSoff s).plen = s.plen := rfl
@[simp] theorem havocSoff_npix (s : State) : (havocSoff s).npix = s.npix := rfl
@[simp] theorem havocSoff_bpp (s : State) : (havocSoff s).bpp = s.bpp := rfl
@[simp] theorem havocSoff_soff (s : State) : (havocSoff s).soff = s.any 32 (.reg .soff) := rfl
@[simp] theorem havocSoff_skipcnt (s : State) : (havocSoff s).skipcnt = s.skipcnt := rfl
@[simp] theorem havocSoff_trailbits (s : State) : (havocSoff s).trailbits = s.trailbits := rfl
@[simp] theorem havocSoff_mem (s : State) : (havocSoff s).mem = s.mem := rfl
@[simp] theorem havocSoff_moves (s : State) : (havocSoff s).moves = s.moves := rfl
@[simp] theorem havocSoff_rdata (s : State) : (havocSoff s).rdata = s.rdata := rfl
@[simp] theorem havocSoff_busyFor (s : State) : (havocSoff s).busyFor = s.busyFor := rfl
@[simp] theorem havocSoff_free (s : State) : (havocSoff s).free = s.free := rfl
@[simp] theorem havocSoff_obufOpen (s : State) : (havocSoff s).obufOpen = s.obufOpen := rfl

/-! ### havocGrid -/

@[simp] theorem havocGrid_phase (s : State) : (havocGrid s).phase = s.phase := rfl
@[simp] theorem havocGrid_opLatch (s : State) : (havocGrid s).opLatch = s.opLatch := rfl
@[simp] theorem havocGrid_done (s : State) : (havocGrid s).done = s.done := rfl
@[simp] theorem havocGrid_err (s : State) : (havocGrid s).err = s.err := rfl
@[simp] theorem havocGrid_valid (s : State) : (havocGrid s).valid = s.valid := rfl
@[simp] theorem havocGrid_errcode (s : State) : (havocGrid s).errcode = s.errcode := rfl
@[simp] theorem havocGrid_cmdid (s : State) : (havocGrid s).cmdid = s.cmdid := rfl
@[simp] theorem havocGrid_imm (s : State) : (havocGrid s).imm = s.imm := rfl
@[simp] theorem havocGrid_ilen (s : State) : (havocGrid s).ilen = s.ilen := rfl
@[simp] theorem havocGrid_olen (s : State) : (havocGrid s).olen = s.olen := rfl
@[simp] theorem havocGrid_rstart (s : State) : (havocGrid s).rstart = s.rstart := rfl
@[simp] theorem havocGrid_rend (s : State) : (havocGrid s).rend = s.rend := rfl
@[simp] theorem havocGrid_sum (s : State) : (havocGrid s).sum = s.sum := rfl
@[simp] theorem havocGrid_expect (s : State) : (havocGrid s).expect = s.expect := rfl
@[simp] theorem havocGrid_rcmd (s : State) : (havocGrid s).rcmd = s.rcmd := rfl
@[simp] theorem havocGrid_rsize (s : State) : (havocGrid s).rsize = s.rsize := rfl
@[simp] theorem havocGrid_plen (s : State) : (havocGrid s).plen = s.plen := rfl
@[simp] theorem havocGrid_npix (s : State) : (havocGrid s).npix = s.npix := rfl
@[simp] theorem havocGrid_bpp (s : State) : (havocGrid s).bpp = s.bpp := rfl
@[simp] theorem havocGrid_soff (s : State) : (havocGrid s).soff = s.soff := rfl
@[simp] theorem havocGrid_skipcnt (s : State) : (havocGrid s).skipcnt = s.any 32 (.reg .skipcnt) := rfl
@[simp] theorem havocGrid_trailbits (s : State) : (havocGrid s).trailbits = s.any 32 (.reg .trailbits) := rfl
@[simp] theorem havocGrid_mem (s : State) : (havocGrid s).mem = { s.mem with pix := Cells.unspecified s.free .pix } := rfl
@[simp] theorem havocGrid_moves (s : State) : (havocGrid s).moves = s.moves := rfl
@[simp] theorem havocGrid_rdata (s : State) : (havocGrid s).rdata = s.rdata := rfl
@[simp] theorem havocGrid_busyFor (s : State) : (havocGrid s).busyFor = s.busyFor := rfl
@[simp] theorem havocGrid_free (s : State) : (havocGrid s).free = s.free := rfl
@[simp] theorem havocGrid_obufOpen (s : State) : (havocGrid s).obufOpen = s.obufOpen := rfl

/-! ### havocGbm -/

@[simp] theorem havocGbm_phase (s : State) : (havocGbm s).phase = s.phase := rfl
@[simp] theorem havocGbm_opLatch (s : State) : (havocGbm s).opLatch = s.opLatch := rfl
@[simp] theorem havocGbm_done (s : State) : (havocGbm s).done = s.done := rfl
@[simp] theorem havocGbm_err (s : State) : (havocGbm s).err = s.err := rfl
@[simp] theorem havocGbm_valid (s : State) : (havocGbm s).valid = s.valid := rfl
@[simp] theorem havocGbm_errcode (s : State) : (havocGbm s).errcode = s.errcode := rfl
@[simp] theorem havocGbm_cmdid (s : State) : (havocGbm s).cmdid = s.cmdid := rfl
@[simp] theorem havocGbm_imm (s : State) : (havocGbm s).imm = s.imm := rfl
@[simp] theorem havocGbm_ilen (s : State) : (havocGbm s).ilen = s.ilen := rfl
@[simp] theorem havocGbm_olen (s : State) : (havocGbm s).olen = s.olen := rfl
@[simp] theorem havocGbm_rstart (s : State) : (havocGbm s).rstart = s.rstart := rfl
@[simp] theorem havocGbm_rend (s : State) : (havocGbm s).rend = s.rend := rfl
@[simp] theorem havocGbm_sum (s : State) : (havocGbm s).sum = s.sum := rfl
@[simp] theorem havocGbm_expect (s : State) : (havocGbm s).expect = s.expect := rfl
@[simp] theorem havocGbm_rcmd (s : State) : (havocGbm s).rcmd = s.rcmd := rfl
@[simp] theorem havocGbm_rsize (s : State) : (havocGbm s).rsize = s.rsize := rfl
@[simp] theorem havocGbm_plen (s : State) : (havocGbm s).plen = s.plen := rfl
@[simp] theorem havocGbm_npix (s : State) : (havocGbm s).npix = s.npix := rfl
@[simp] theorem havocGbm_bpp (s : State) : (havocGbm s).bpp = s.bpp := rfl
@[simp] theorem havocGbm_soff (s : State) : (havocGbm s).soff = s.soff := rfl
@[simp] theorem havocGbm_skipcnt (s : State) : (havocGbm s).skipcnt = s.skipcnt := rfl
@[simp] theorem havocGbm_trailbits (s : State) : (havocGbm s).trailbits = s.trailbits := rfl
@[simp] theorem havocGbm_mem (s : State) : (havocGbm s).mem = { s.mem with gbm := Cells.unspecified s.free .gbm } := rfl
@[simp] theorem havocGbm_moves (s : State) : (havocGbm s).moves = s.moves := rfl
@[simp] theorem havocGbm_rdata (s : State) : (havocGbm s).rdata = s.rdata := rfl
@[simp] theorem havocGbm_busyFor (s : State) : (havocGbm s).busyFor = s.busyFor := rfl
@[simp] theorem havocGbm_free (s : State) : (havocGbm s).free = s.free := rfl
@[simp] theorem havocGbm_obufOpen (s : State) : (havocGbm s).obufOpen = s.obufOpen := rfl

/-! ### takeMove -/

@[simp] theorem takeMove_phase (s : State) : (takeMove s).phase = s.phase := rfl
@[simp] theorem takeMove_opLatch (s : State) : (takeMove s).opLatch = s.opLatch := rfl
@[simp] theorem takeMove_done (s : State) : (takeMove s).done = s.done := rfl
@[simp] theorem takeMove_err (s : State) : (takeMove s).err = s.err := rfl
@[simp] theorem takeMove_valid (s : State) : (takeMove s).valid = s.valid := rfl
@[simp] theorem takeMove_errcode (s : State) : (takeMove s).errcode = s.errcode := rfl
@[simp] theorem takeMove_cmdid (s : State) : (takeMove s).cmdid = s.cmdid := rfl
@[simp] theorem takeMove_imm (s : State) : (takeMove s).imm = s.imm := rfl
@[simp] theorem takeMove_ilen (s : State) : (takeMove s).ilen = s.ilen := rfl
@[simp] theorem takeMove_olen (s : State) : (takeMove s).olen = s.olen := rfl
@[simp] theorem takeMove_rstart (s : State) : (takeMove s).rstart = s.rstart := rfl
@[simp] theorem takeMove_rend (s : State) : (takeMove s).rend = s.rend := rfl
@[simp] theorem takeMove_sum (s : State) : (takeMove s).sum = s.sum := rfl
@[simp] theorem takeMove_expect (s : State) : (takeMove s).expect = s.expect := rfl
@[simp] theorem takeMove_rcmd (s : State) : (takeMove s).rcmd = s.rcmd := rfl
@[simp] theorem takeMove_rsize (s : State) : (takeMove s).rsize = s.rsize := rfl
@[simp] theorem takeMove_plen (s : State) : (takeMove s).plen = s.plen := rfl
@[simp] theorem takeMove_npix (s : State) : (takeMove s).npix = s.npix := rfl
@[simp] theorem takeMove_bpp (s : State) : (takeMove s).bpp = s.bpp := rfl
@[simp] theorem takeMove_soff (s : State) : (takeMove s).soff = s.soff := rfl
@[simp] theorem takeMove_skipcnt (s : State) : (takeMove s).skipcnt = s.skipcnt := rfl
@[simp] theorem takeMove_trailbits (s : State) : (takeMove s).trailbits = s.trailbits := rfl
@[simp] theorem takeMove_mem (s : State) : (takeMove s).mem = s.mem := rfl
@[simp] theorem takeMove_moves (s : State) : (takeMove s).moves = s.moves.tail := rfl
@[simp] theorem takeMove_rdata (s : State) : (takeMove s).rdata = s.rdata := rfl
@[simp] theorem takeMove_busyFor (s : State) : (takeMove s).busyFor = s.busyFor - 1 := rfl
@[simp] theorem takeMove_free (s : State) : (takeMove s).free = s.free := rfl
@[simp] theorem takeMove_obufOpen (s : State) : (takeMove s).obufOpen = s.obufOpen := rfl

end Sys2Proof.Machine
end

