-- ==== Sys2Proof/Laws/Ops.lean ====
section
/-! SUPPORT. What each shared operation can do, said once: the `Result` computations, `finish`, the cells an
operation reads, the output sets, and the host's writes. -/

namespace Sys2Proof.Machine

variable {w : Nat} {α β : Type}

/-! ### Computations -/

@[simp] theorem bind_ok (a : α) (f : α → Result β) : ((.ok a : Result α) >>= f) = f a := rfl
@[simp] theorem bind_error (e : Stop) (f : α → Result β) :
    ((.error e : Result α) >>= f) = .error e := rfl
@[simp] theorem pure_ok (a : α) : (pure a : Result α) = .ok a := rfl
@[simp] theorem map_ok (f : α → β) (a : α) : (f <$> (.ok a : Result α)) = .ok (f a) := rfl
@[simp] theorem map_error (f : α → β) (e : Stop) : (f <$> (.error e : Result α)) = .error e := rfl

/-- A computation that succeeds ran both of its parts. -/
theorem bind_eq_ok {r : Result α} {f : α → Result β} {b : β} :
    (r >>= f) = .ok b ↔ ∃ a, r = .ok a ∧ f a = .ok b := by
  cases r <;> simp

/-- A computation that stops stopped in its first part or in its second. -/
theorem bind_eq_error {r : Result α} {f : α → Result β} {e : Stop} :
    (r >>= f) = .error e ↔ r = .error e ∨ ∃ a, r = .ok a ∧ f a = .error e := by
  cases r <;> simp

@[simp] theorem require_eq_ok {c : Prop} [Decidable c] {e : ErrorName} {u : Unit} :
    require c e = .ok u ↔ c := by
  unfold require; split <;> simp_all

@[simp] theorem require_eq_error {c : Prop} [Decidable c] {e : ErrorName} {x : Stop} :
    require c e = .error x ↔ ¬ c ∧ x = .raised e := by
  unfold require; split <;> simp_all [eq_comm]

@[simp] theorem require_true {c : Prop} [Decidable c] (e : ErrorName) (h : c) :
    require c e = .ok () := by simp [require, h]

@[simp] theorem require_false {c : Prop} [Decidable c] (e : ErrorName) (h : ¬ c) :
    require c e = .error (.raised e) := by simp [require, h]

/-! ### Cells an operation reads -/

theorem fetchCell_eq_ok {sp : Space} {m : Cells w} {i : Nat} {v : BitVec w} :
    fetchCell sp m i = .ok v ↔ Cells.read m i = some v := by
  unfold fetchCell; split <;> simp_all

theorem fetchCell_eq_error {sp : Space} {m : Cells w} {i : Nat} {e : Stop} :
    fetchCell sp m i = .error e ↔ Cells.read m i = none ∧ e = .unwritten (.cell sp i) := by
  unfold fetchCell
  cases h : Cells.read m i <;> simp [eq_comm]

theorem holds_nil (m : Cells w) (a : Nat) : Holds m a [] := by simp [Holds]

theorem holds_cons {m : Cells w} {a : Nat} {v : BitVec w} {vs : List (BitVec w)} :
    Holds m a (v :: vs) ↔ Cells.read m a = some v ∧ Holds m (a + 1) vs := by
  constructor
  · intro h
    refine ⟨by simpa using h 0 (by simp), fun k hk => ?_⟩
    have := h (k + 1) (by simpa using hk)
    simpa [Nat.add_assoc, Nat.add_comm 1 k] using this
  · rintro ⟨h0, h⟩ k hk
    cases k with
    | zero => simpa using h0
    | succ k =>
      have := h k (by simpa using hk)
      simpa [Nat.add_assoc, Nat.add_comm 1 k] using this

/-- A range read succeeds exactly where every cell of the range is written, with their values in order. -/
theorem fetchRange_eq_ok {sp : Space} {m : Cells w} {a n : Nat} {vs : List (BitVec w)} :
    fetchRange sp m a n = .ok vs ↔ vs.length = n ∧ Holds m a vs := by
  induction n generalizing a vs with
  | zero =>
    simp only [fetchRange, Except.ok.injEq]
    exact ⟨fun h => by subst h; exact ⟨rfl, holds_nil m a⟩, fun h => (List.length_eq_zero_iff.1 h.1).symm⟩
  | succ n ih =>
    simp only [fetchRange, bind_eq_ok, pure_ok, fetchCell_eq_ok, ih, Except.ok.injEq]
    constructor
    · rintro ⟨v, hv, us, ⟨hl, hh⟩, rfl⟩
      exact ⟨by simp [hl], holds_cons.2 ⟨hv, hh⟩⟩
    · rintro ⟨hl, hh⟩
      cases vs with
      | nil => simp at hl
      | cons v us => exact ⟨v, (holds_cons.1 hh).1, us, ⟨by simpa using hl, (holds_cons.1 hh).2⟩, rfl⟩

/-- A range read can stop only at an unwritten cell of the range. -/
theorem fetchRange_eq_error {sp : Space} {m : Cells w} {a n : Nat} {e : Stop}
    (h : fetchRange sp m a n = .error e) :
    ∃ k, k < n ∧ Cells.read m (a + k) = none ∧ e = .unwritten (.cell sp (a + k)) := by
  induction n generalizing a with
  | zero => simp [fetchRange] at h
  | succ n ih =>
    simp only [fetchRange, bind_eq_error, fetchCell_eq_error, pure_ok, reduceCtorEq, and_false,
      exists_false, or_false] at h
    rcases h with ⟨h, rfl⟩ | ⟨v, -, h⟩
    · exact ⟨0, by omega, by simpa using h, by simp⟩
    · obtain ⟨k, hk, h1, h2⟩ := ih h
      exact ⟨k + 1, by omega, by rw [← h1]; congr 1; omega, by rw [h2]; congr 2; omega⟩

/-- A range read of cells that hold `vs` gives `vs`. -/
theorem fetchRange_of_holds {sp : Space} {m : Cells w} {a : Nat} {vs : List (BitVec w)} (h : Holds m a vs) :
    fetchRange sp m a vs.length = .ok vs := fetchRange_eq_ok.2 ⟨rfl, h⟩

/-- Part of what cells hold. -/
theorem holds_slice {m : Cells w} {vs : List (BitVec w)} (h : Holds m 0 vs) (a n : Nat)
    (hl : a + n ≤ vs.length) : Holds m a ((vs.drop a).take n) := by
  intro k hk
  have hk' : k < n := by simp at hk; omega
  have := h (a + k) (by omega)
  rw [Nat.zero_add] at this
  rw [this, List.getElem?_take_of_lt hk', List.getElem?_drop]

/-- A range read of part of what cells hold gives that part. -/
theorem fetchRange_slice {sp : Space} {m : Cells w} {vs : List (BitVec w)} (h : Holds m 0 vs) (a n : Nat)
    (hl : a + n ≤ vs.length) : fetchRange sp m a n = .ok ((vs.drop a).take n) :=
  fetchRange_eq_ok.2 ⟨by simp; omega, holds_slice h a n hl⟩

/-- Reading one of the cells that hold `vs`. -/
theorem fetchCell_of_holds {sp : Space} {m : Cells w} {vs : List (BitVec w)} (h : Holds m 0 vs) {i : Nat}
    (hi : i < vs.length) : fetchCell sp m i = .ok (vs.getD i 0) := by
  have := h i hi
  rw [Nat.zero_add, List.getElem?_eq_getElem hi] at this
  rw [fetchCell_eq_ok, this, List.getD_eq_getElem?_getD, List.getElem?_eq_getElem hi]
  rfl

/-- What a listed space holds. -/
theorem holds_ofList (a : Nat) (vs : List (BitVec w)) : Holds (Cells.ofList a vs) a vs := by
  intro k _
  rw [read_ofList, if_pos (by omega), Nat.add_sub_cancel_left]

/-- What a space holds after a range write. -/
theorem holds_writeRange (m : Cells w) (a : Nat) (vs : List (BitVec w)) :
    Holds (Cells.writeRange m a vs) a vs := by
  intro k hk
  rw [read_writeRange, if_pos (by omega), Nat.add_sub_cancel_left]

/-- The byte-string result stands at the start of `OBUF`. -/
theorem holds_setOutput (bytes : List Byte) (s : State) : Holds (setOutput bytes s).mem.obuf 0 bytes :=
  holds_writeRange _ 0 bytes

@[simp] theorem inputLength_eq_ok {s : State} {n : Nat} :
    inputLength s = .ok n ↔ s.ilen.toNat ≤ Config.bufCap ∧ n = s.ilen.toNat := by
  simp only [inputLength, bind_eq_ok, require_eq_ok, pure_ok, Except.ok.injEq]
  exact ⟨fun ⟨_, h, h'⟩ => ⟨h, h'.symm⟩, fun ⟨h, h'⟩ => ⟨(), h, h'.symm⟩⟩

@[simp] theorem inputLength_eq_error {s : State} {e : Stop} :
    inputLength s = .error e ↔ ¬ s.ilen.toNat ≤ Config.bufCap ∧ e = .raised .badOperand := by
  simp [inputLength, bind_eq_error]

/-! ### Completion -/

/-- A completion step ends in one of two ways that are next states, and otherwise refuses. -/
theorem finish_eq_next {s t : State} {r : Result α} {commit : α → State → State} {havoc : State → State} :
    finish s r commit havoc = .next t ↔
      (∃ a, r = .ok a ∧ t = complete (commit a s)) ∨
      (∃ e, r = .error (.raised e) ∧ t = raiseError e { havoc s with free := s.free + 1 }) := by
  unfold finish
  split <;> simp_all [eq_comm]

theorem finish_ne_fault {s : State} {r : Result α} {commit : α → State → State} {havoc : State → State}
    {f : Fault} : finish s r commit havoc ≠ .fault f := by
  unfold finish; split <;> simp

/-- A completion step refuses only for an unwritten cell its computation reads. -/
theorem finish_eq_refused {s : State} {r : Result α} {commit : α → State → State} {havoc : State → State}
    {x : Refusal} :
    finish s r commit havoc = .refused x ↔ ∃ l, r = .error (.unwritten l) ∧ x = .unwrittenCell l := by
  unfold finish
  split <;> simp_all [eq_comm]

@[simp] theorem finish_ok (s : State) (a : α) (commit : α → State → State) (havoc : State → State) :
    finish s (.ok a) commit havoc = .next (complete (commit a s)) := rfl

@[simp] theorem finish_raised (s : State) (e : ErrorName) (commit : α → State → State)
    (havoc : State → State) :
    finish s (.error (.raised e)) commit havoc =
      .next (raiseError e { havoc s with free := s.free + 1 }) := rfl

/-! ### The canonical form under the host's writes -/

theorem writeReg_mem (s : State) (r : Reg) (v : Word) : (writeReg s r v).mem = s.mem := by
  cases r <;> rfl

/-- A host write to a cell of the space keeps the canonical form. -/
theorem writeCell_wf {s : State} {sp : Space} {i : Nat} {v : Word} (h : s.mem.wf)
    (hi : i < Config.cells sp) : (writeCell s sp i v).mem.wf := by
  obtain ⟨h1, h2, h3, h4, h5, h6⟩ := h
  cases sp
  · exact ⟨wf_write h1 hi, h2, h3, h4, h5, h6⟩
  · exact ⟨h1, h2, h3, h4, h5, h6⟩
  · exact ⟨h1, h2, wf_write h3 hi, h4, h5, h6⟩
  · exact ⟨h1, h2, h3, h4, h5, h6⟩
  · exact ⟨h1, h2, h3, h4, wf_write h5 hi, h6⟩
  · exact ⟨h1, h2, h3, h4, h5, wf_write h6 hi⟩

/-! ### The canonical form under the output sets -/

theorem staleObuf_wf {s : State} (h : s.mem.wf) : Cells.wf Config.bufCap (staleObuf s) := by
  unfold staleObuf
  split
  · exact wf_havoc _ _ h.2.1
  · exact wf_nil _

theorem staleOutput_wf {s : State} (h : s.mem.wf) : (staleOutput s).mem.wf := by
  have h2 := staleObuf_wf h
  obtain ⟨h1, -, h3, h4, h5, h6⟩ := h
  exact ⟨h1, h2, h3, h4, h5, h6⟩

theorem noOutput_wf {s : State} (h : s.mem.wf) : (noOutput s).mem.wf := staleOutput_wf h

theorem setOutput_wf {bytes : List Byte} {s : State} (h : s.mem.wf) (hl : bytes.length ≤ Config.bufCap) :
    (setOutput bytes s).mem.wf := by
  have h2 := staleObuf_wf h
  obtain ⟨h1, -, h3, h4, h5, h6⟩ := h
  exact ⟨h1, wf_writeRange h2 (by simpa [Config.cells] using hl), h3, h4, h5, h6⟩

theorem havocObuf_wf {s : State} (h : s.mem.wf) : (havocObuf s).mem.wf := by
  obtain ⟨h1, -, h3, h4, h5, h6⟩ := h
  exact ⟨h1, wf_nil _, h3, h4, h5, h6⟩

theorem havocPalette_wf {s : State} (h : s.mem.wf) : (havocPalette s).mem.wf := by
  obtain ⟨h1, h2, h3, h4, h5, h6⟩ := h
  exact ⟨h1, h2, h3, h4, wf_unspecified _ .pal, h6⟩

theorem havocGrid_wf {s : State} (h : s.mem.wf) : (havocGrid s).mem.wf := by
  obtain ⟨h1, h2, h3, h4, h5, h6⟩ := h
  exact ⟨h1, h2, h3, h4, h5, wf_unspecified _ .pix⟩

theorem havocGbm_wf {s : State} (h : s.mem.wf) : (havocGbm s).mem.wf := by
  obtain ⟨h1, h2, h3, h4, h5, h6⟩ := h
  exact ⟨h1, h2, h3, wf_unspecified _ .gbm, h5, h6⟩

end Sys2Proof.Machine
end

