-- ==== Sys2Proof/Laws/Framer.lean ====
section
/-! SUPPORT. What the framer's two functions compute: the envelope is the command frame of Safety.lean, and
parsing makes the checks of `frameError` and returns the fields of the frame. -/

namespace Sys2Proof.Machine

/-- `lo8` as a number (00_scope.md R6). -/
theorem lo8_toNat (v : Half) : (lo8 v).toNat = v.toNat % 256 := by simp [lo8]

/-- `hi8` as a number (00_scope.md R6). -/
theorem hi8_toNat (v : Half) : (hi8 v).toNat = v.toNat / 256 := by
  simp [hi8, Nat.shiftRight_eq_div_pow]; have := v.isLt; omega

/-- The envelope around a command id and a payload is the command frame, with its size and checksum
(30_encoding.md R60, R61, R62, R64). -/
theorem envelope_frame (c : Byte) (p : List Byte) (h : p.length ≤ 65532) :
    (envelope (c :: p)).frame = commandFrame c p ∧ (envelope (c :: p)).size.toNat = p.length + 3 ∧
    (envelope (c :: p)).chk.toNat =
      ((p.length + 3) % 256 + (p.length + 3) / 256 + c.toNat + byteSum p) % 65536 := by
  have hs : (BitVec.ofNat 16 (p.length + 1 + 2)).toNat = p.length + 3 := by simp; omega
  have hlo : lo8 (BitVec.ofNat 16 (p.length + 1 + 2)) = BitVec.ofNat 8 ((p.length + 3) % 256) := by
    apply BitVec.eq_of_toNat_eq; rw [lo8_toNat, hs]; simp
  have hhi : hi8 (BitVec.ofNat 16 (p.length + 1 + 2)) = BitVec.ofNat 8 ((p.length + 3) / 256) := by
    apply BitVec.eq_of_toNat_eq; rw [hi8_toNat, hs]; simp; omega
  have hchk : (sum16 (lo8 (BitVec.ofNat 16 (p.length + 1 + 2)) ::
      hi8 (BitVec.ofNat 16 (p.length + 1 + 2)) :: c :: p)).toNat =
      ((p.length + 3) % 256 + (p.length + 3) / 256 + c.toNat + byteSum p) % 65536 := by
    rw [hlo, hhi]; simp [sum16, byteSum]; omega
  refine ⟨?_, hs, hchk⟩
  simp only [envelope, commandFrame, List.length_cons]
  rw [hlo, hhi]
  rw [hlo, hhi] at hchk
  have e1 : ∀ v : Half, lo8 v = BitVec.ofNat 8 (v.toNat % 256) := fun v => by
    apply BitVec.eq_of_toNat_eq; rw [lo8_toNat]; simp
  have e2 : ∀ v : Half, hi8 v = BitVec.ofNat 8 (v.toNat / 256) := fun v => by
    apply BitVec.eq_of_toNat_eq; rw [hi8_toNat]; have := v.isLt; simp; omega
  rw [e1 (sum16 _), e2 (sum16 _), hchk]
  rfl

@[simp] theorem commandFrame_length (c : Byte) (p : List Byte) :
    (commandFrame c p).length = p.length + 7 := by
  simp [commandFrame]

/-- The input length where `ILEN` is in range (10_state.md R20). -/
theorem inputLength_ok {s : State} (h : s.ilen.toNat ≤ 65539) : inputLength s = .ok s.ilen.toNat :=
  inputLength_eq_ok.2 ⟨h, rfl⟩

theorem minSize_succ (shape : Shape) : minSize shape + 1 = payloadStart shape := by cases shape <;> rfl

theorem headerBytes_eq (shape : Shape) : headerBytes shape = payloadStart shape := by cases shape <;> rfl

/-- `parse_frame` raises what the check order of 41_framer.md R104 says, and else returns the fields. -/
theorem parseFrame_eq {s : State} {b : List Byte} (h : Holds s.mem.ibuf 0 b) (shape : Shape) :
    parseFrame s b.length shape = match frameError shape b with
      | some e => .error (.raised e)
      | none => .ok
        { cmd := b.getD (idIndex shape) 0, payload := slice b (payloadStart shape) (declaredSize b + 1)
          size := BitVec.ofNat 16 (declaredSize b) } := by
  have hb : ∀ {i}, i < b.length → ibufByte s i = .ok (b.getD i 0) := fun hi => fetchCell_of_holds h hi
  unfold parseFrame frameError
  rw [headerBytes_eq]
  have h4 : 4 ≤ payloadStart shape := by cases shape <;> simp [payloadStart]
  by_cases c1 : payloadStart shape ≤ b.length
  swap
  · rw [require_false _ c1]; simp [show b.length < payloadStart shape by omega]
  rw [require_true _ c1]
  simp only [bind_ok, hb (show 1 < b.length by omega), hb (show 2 < b.length by omega), le16_toNat]
  change (require (declaredSize b + 4 ≤ b.length) _ >>= _) = _
  rw [if_neg (by omega)]
  by_cases c2 : declaredSize b + 4 ≤ b.length
  swap
  · rw [require_false _ c2]; simp [show b.length < declaredSize b + 4 by omega]
  rw [require_true _ c2, if_neg (by omega)]
  simp only [bind_ok, hb (show 0 < b.length by omega)]
  by_cases c3 : b.getD 0 0 = Config.startMarker
  swap
  · rw [require_false _ c3, if_pos (show b.getD 0 0 ≠ 0x01 from c3)]; rfl
  rw [require_true _ c3, if_neg (show ¬ (b.getD 0 0 ≠ 0x01) from fun h => h c3)]
  simp only [bind_ok]
  change (ibufByte s (declaredSize b + 3) >>= _) = _
  simp only [bind_ok, hb (show declaredSize b + 3 < b.length by omega)]
  by_cases c4 : b.getD (declaredSize b + 3) 0 = Config.endMarker
  swap
  · rw [require_false _ c4, if_pos (show b.getD (declaredSize b + 3) 0 ≠ 0x02 from c4)]; rfl
  rw [require_true _ c4, if_neg (show ¬ (b.getD (declaredSize b + 3) 0 ≠ 0x02) from fun h => h c4)]
  simp only [bind_ok]
  change (require (minSize shape ≤ declaredSize b ∧ b.length ≤ declaredSize b + 4) _ >>= _) = _
  have hm := minSize_succ shape
  by_cases c5 : minSize shape ≤ declaredSize b ∧ b.length ≤ declaredSize b + 4
  swap
  · rw [require_false _ c5, if_pos (by omega)]; rfl
  rw [require_true _ c5, if_neg (by omega)]
  simp only [bind_ok]
  have hcm : checkMagic s shape =
      if shape = .response ∧ (b.getD 3 0 ≠ 0x04 ∨ b.getD 5 0 ≠ 0x55) then .error (.raised .badMagic)
      else .ok () := by
    cases shape with
    | command => simp [checkMagic]
    | response =>
      have : 6 ≤ b.length := c1
      simp only [checkMagic, hb (show 3 < b.length by omega), hb (show 5 < b.length by omega), bind_ok]
      unfold require Config.magicCheck Config.magicUnknown
      generalize b.getD 3 0 = p; generalize b.getD 5 0 = q
      by_cases x : p = 0x04 <;> by_cases y : q = 0x55 <;> simp_all
  rw [hcm]
  by_cases c6 : shape = .response ∧ (b.getD 3 0 ≠ 0x04 ∨ b.getD 5 0 ≠ 0x55)
  · rw [if_pos c6, if_pos c6]; rfl
  rw [if_neg c6, if_neg c6]
  simp only [bind_ok]
  change (ibufBytes s 1 (declaredSize b) >>= _) = _
  have hbody : ibufBytes s 1 (declaredSize b) = .ok (slice b 1 (declaredSize b + 1)) := by
    have := fetchRange_slice (sp := .ibuf) h 1 (declaredSize b) (by omega)
    rw [ibufBytes, this, slice, Nat.add_sub_cancel]
  rw [hbody]
  simp only [bind_ok]
  change (ibufByte s (declaredSize b + 1) >>= _) = _
  rw [hb (show declaredSize b + 1 < b.length by omega)]
  simp only [bind_ok]
  change (ibufByte s (declaredSize b + 2) >>= _) = _
  rw [hb (show declaredSize b + 2 < b.length by omega)]
  simp only [bind_ok]
  have hc7 : sum16 (slice b 1 (declaredSize b + 1)) =
        le16 (b.getD (declaredSize b + 1) 0) (b.getD (declaredSize b + 2) 0) ↔
      byteSum (slice b 1 (declaredSize b + 1)) % 65536 =
      (b.getD (declaredSize b + 1) 0).toNat + 256 * (b.getD (declaredSize b + 2) 0).toNat := by
    rw [← BitVec.toNat_inj, le16_toNat]; simp [sum16, byteSum]
  by_cases c7 : sum16 (slice b 1 (declaredSize b + 1)) =
      le16 (b.getD (declaredSize b + 1) 0) (b.getD (declaredSize b + 2) 0)
  swap
  · rw [require_false _ c7, if_pos (by rwa [hc7] at c7)]; rfl
  rw [require_true _ c7, if_neg (by rw [hc7] at c7; simpa using c7)]
  simp only [bind_ok]
  have hci : commandIndex shape = idIndex shape := by cases shape <;> rfl
  rw [hci]
  have hi : idIndex shape < b.length := by cases shape <;> simp [idIndex, payloadStart] at * <;> omega
  rw [hb hi]
  simp only [bind_ok]
  change (ibufBytes s (minSize shape + 1) (declaredSize b - minSize shape) >>= _) = _
  have hpay : ibufBytes s (minSize shape + 1) (declaredSize b - minSize shape) =
      .ok (slice b (payloadStart shape) (declaredSize b + 1)) := by
    have := fetchRange_slice (sp := .ibuf) h (minSize shape + 1) (declaredSize b - minSize shape)
      (by omega)
    rw [ibufBytes, this, slice, hm]; congr 2; omega
  rw [hpay]
  simp only [bind_ok, pure_ok]
  congr 2
  apply BitVec.eq_of_toNat_eq
  rw [le16_toNat]; unfold declaredSize
  have := (b.getD 1 0).isLt; have := (b.getD 2 0).isLt
  simp; omega

/-- The same for PARSE and PARSER, whose input length is in range (41_framer.md R105, R106). -/
theorem parseInput_eq {s : State} {b : List Byte} (h : InputIs s b) (shape : Shape) :
    parseInput s shape = match frameError shape b with
      | some e => .error (.raised e)
      | none => .ok
        { cmd := b.getD (idIndex shape) 0, payload := slice b (payloadStart shape) (declaredSize b + 1)
          size := BitVec.ofNat 16 (declaredSize b) } := by
  obtain ⟨h1, h2, h3⟩ := h
  rw [parseInput, inputLength_ok (by omega), bind_ok, h1, parseFrame_eq h3]

theorem declaredSize_lt (b : List Byte) : declaredSize b < 65536 := by
  unfold declaredSize
  have := (b.getD 1 0).isLt; have := (b.getD 2 0).isLt
  omega
theorem slice_length_le (b : List Byte) (i j : Nat) : (slice b i j).length ≤ j - i := by simp [slice]


end Sys2Proof.Machine
end

