-- ==== Sys2Proof/Laws/Codec.lean ====
section
/-! SUPPORT. What the computations of the payload split and of the pixel codec answer, said once: the split,
PENC's encoding, PDEC's decoding, and the bits of streams and windows. -/

namespace Sys2Proof.Machine

/-! ### The payload split -/

theorem coloursOf_getD {n : Nat} {l : List Byte} (hl : l.length = 3 * n) {k : Nat} (hk : k < n) :
    (coloursOf l).getD k 0 = colour (l.getD (3 * k) 0) (l.getD (3 * k + 1) 0) (l.getD (3 * k + 2) 0) := by
  induction n generalizing l k with
  | zero => omega
  | succ n ih =>
    match l, hl with
    | r :: g :: b :: l, hl =>
      cases k with
      | zero => simp [coloursOf]
      | succ k =>
        have := ih (l := l) (by simp at hl; omega) (k := k) (by omega)
        simp only [coloursOf, List.getD_cons_succ, this]
        rw [show 3 * (k + 1) = 3 * k + 1 + 1 + 1 by omega]; rfl

/-- The split of an input whose table fits (42_payload_fields.md R122). -/
theorem splitInput_ok {s : State} {d : List Byte} {h : Nat} (hi : InputIs s d) (h1 : h + 1 ≤ d.length)
    (h2 : h + 1 + 3 * (d.getD h 0).toNat ≤ d.length) :
    splitInput s h = .ok
      { palette := coloursOf ((d.drop (h + 1)).take (3 * (d.getD h 0).toNat))
        image := d.drop (h + 1 + 3 * (d.getD h 0).toNat) } := by
  obtain ⟨a, b, c⟩ := hi
  rw [splitInput, inputLength_ok (by omega), bind_ok, a, splitPayload, require_true _ h1, bind_ok, ibufByte,
    fetchCell_of_holds c (by omega), bind_ok, require_true _ h2, bind_ok, ibufBytes,
    fetchRange_slice c _ _ (by omega), bind_ok, ibufBytes, fetchRange_slice c _ _ (by omega), bind_ok,
    pure_ok]
  congr 2
  rw [List.take_of_length_le (by simp)]

/-- The split of an input whose table does not fit (42_payload_fields.md R122). -/
theorem splitInput_short {s : State} {d : List Byte} {h : Nat} (hi : InputIs s d)
    (hn : ¬ (h + 1 ≤ d.length ∧ h + 1 + 3 * (d.getD h 0).toNat ≤ d.length)) :
    splitInput s h = .error (.raised .payloadTooShort) := by
  obtain ⟨a, b, c⟩ := hi
  rw [splitInput, inputLength_ok (by omega), bind_ok, a, splitPayload]
  by_cases h1 : h + 1 ≤ d.length
  · rw [require_true _ h1, bind_ok, ibufByte, fetchCell_of_holds c (by omega), bind_ok,
      require_false _ (fun h2 => hn ⟨h1, h2⟩)]
    rfl
  · rw [require_false _ h1]; rfl

/-! ### Encoding -/

/-- What extraction returns for 1 to 256 colours (43_pixel_codec.md R131). -/
theorem extract_spec {cs : List Colour} (h1 : 1 ≤ cs.length) :
    1 ≤ (extract cs).1.length ∧ (extract cs).1.length ≤ cs.length ∧ (extract cs).1.Nodup ∧
    (extract cs).2.length = cs.length ∧
    ∀ p, p < cs.length → ∃ j, (extract cs).2[p]? = some j ∧ j < (extract cs).1.length ∧
      (extract cs).1[j]? = cs[p]? := by
  obtain ⟨-, a2, a3, a4, a5⟩ := extractFrom_spec [] cs (by simp)
  have h5 : ∀ p, p < cs.length → ∃ j, (extract cs).2[p]? = some j ∧ j < (extract cs).1.length ∧
      (extract cs).1[j]? = cs[p]? := by
    intro p hp
    obtain ⟨j, a, b⟩ := a5 p hp
    refine ⟨j, a, ?_, b⟩
    by_contra hj
    have : (extractFrom [] cs).1[j]? = none :=
      List.getElem?_eq_none (by have := hj; unfold extract at this; omega)
    rw [this, List.getElem?_eq_getElem hp] at b; cases b
  obtain ⟨j, -, b, -⟩ := h5 0 (by omega)
  exact ⟨by omega, by simpa [extract] using a4, a2, a3, h5⟩

@[simp] theorem flatten_rgb_length (pal : List Colour) : ((pal.map rgb).flatten).length = 3 * pal.length := by
  induction pal with
  | nil => rfl
  | cons a p ih => simp at ih ⊢; omega

/-- The wire bytes of a table of colours: red, green, blue of each colour in order (43_pixel_codec.md R135). -/
theorem flatten_rgb_bytes (p : List Colour) (rest : List Byte) {k : Nat} (h : k < p.length) :
    (((p.map rgb).flatten ++ rest).getD (3 * k) 0).toNat = (p.getD k 0).toNat / 65536 ∧
    (((p.map rgb).flatten ++ rest).getD (1 + 3 * k) 0).toNat = (p.getD k 0).toNat / 256 % 256 ∧
    (((p.map rgb).flatten ++ rest).getD (2 + 3 * k) 0).toNat = (p.getD k 0).toNat % 256 := by
  induction p generalizing k with
  | nil => simp at h
  | cons c p ih =>
    cases k with
    | zero =>
      have := c.isLt
      simp [rgb, Nat.shiftRight_eq_div_pow]; omega
    | succ k =>
      have := ih (k := k) (by simpa using h)
      rw [show 3 * (k + 1) = 3 * k + 3 by omega, show 1 + (3 * k + 3) = (1 + 3 * k) + 3 by omega,
        show 2 + (3 * k + 3) = (2 + 3 * k) + 3 by omega]
      simpa [rgb] using this

/-- PENC's computation on 1 to 256 written pixels (43_pixel_codec.md R136). -/
theorem encodePixels_ok {s : State} {cs : List Colour} (h1 : s.npix.toNat = cs.length)
    (h2 : 1 ≤ cs.length) (h3 : cs.length ≤ 256) (h4 : Holds s.mem.pix 0 cs) :
    encodePixels s = .ok
      { palette := (extract cs).1
        bits := bpp (extract cs).1.length
        stream := packBits (indexBits (bpp (extract cs).1.length) (extract cs).2) } := by
  obtain ⟨a, b, -⟩ := extract_spec h2
  have hc : Config.npixMax = 256 := rfl
  have hp : Config.palCap = 256 := rfl
  rw [encodePixels, require_true _ (by omega), bind_ok, require_true _ (by omega), bind_ok, pixColours, h1,
    fetchRange_of_holds h4, bind_ok]
  dsimp only
  rw [require_true _ (by omega), bind_ok]
  rfl

/-! ### Bits of streams -/

/-- Bit `q` of the index bits (43_pixel_codec.md R132). -/
theorem indexBits_getElem? {b : Nat} (hb : 1 ≤ b) {idx : List Nat} {q : Nat} (h : q < idx.length * b) :
    (indexBits b idx)[q]? = some ((idx.getD (q / b) 0).testBit (q % b)) := by
  induction idx generalizing q with
  | nil => simp at h
  | cons v idx ih =>
    have hx : indexBits b (v :: idx) = bitsOf b v ++ indexBits b idx := by simp [indexBits]
    rw [hx]
    by_cases hq : q < b
    · rw [List.getElem?_append_left (by simpa using hq), bitsOf_getElem? _ _ _ hq, Nat.div_eq_of_lt hq,
        Nat.mod_eq_of_lt hq]
      rfl
    · rw [List.getElem?_append_right (by simp; omega), bitsOf_length]
      have h' : q - b < idx.length * b := by simp [Nat.succ_mul] at h; omega
      rw [ih h']
      have e : q = (q - b) + b := by omega
      conv_rhs => rw [e, Nat.add_div_right _ (by omega), Nat.add_mod_right]
      rfl

theorem bitsOfBytes_eq_indexBits (d : List Byte) : bitsOfBytes d = indexBits 8 (d.map BitVec.toNat) := by
  simp [bitsOfBytes, indexBits, Function.comp_def]

@[simp] theorem bitsOfBytes_length (d : List Byte) : (bitsOfBytes d).length = 8 * d.length := by
  rw [bitsOfBytes_eq_indexBits]; simp; omega

/-- Bit `q` of a byte string (20_memory.md R42). -/
theorem bitsOfBytes_getElem? {d : List Byte} {q : Nat} (h : q < 8 * d.length) :
    (bitsOfBytes d)[q]? = some ((d.getD (q / 8) 0).getLsbD (q % 8)) := by
  rw [bitsOfBytes_eq_indexBits, indexBits_getElem? (by omega) (by simp; omega)]
  congr 1
  simp [BitVec.getLsbD, List.getElem?_map]
  cases d[q / 8]? <;> rfl

/-- The number of a bit list as a sum of powers of two. -/
theorem numberOf_eq_sum (l : List Bool) :
    numberOf l = ((List.range l.length).map fun k => if l.getD k false then 2 ^ k else 0).sum := by
  induction l with
  | nil => rfl
  | cons b l ih =>
    rw [List.length_cons, List.range_succ_eq_map]
    simp only [numberOf, List.map_cons, List.map_map, List.sum_cons, ih, Function.comp_def,
      List.getD_cons_zero, List.getD_cons_succ]
    have h : ∀ n, (List.map (fun x => if l.getD x false = true then 2 ^ x.succ else 0) (List.range n)).sum =
        2 * (List.map (fun x => if l.getD x false = true then 2 ^ x else 0) (List.range n)).sum := by
      intro n
      induction n with
      | zero => rfl
      | succ n ih =>
        simp only [List.range_succ, List.map_append, List.sum_append, ih, List.map_cons, List.map_nil,
          List.sum_cons, List.sum_nil]
        split
        · simp [Nat.pow_succ]; omega
        · simp
    rw [h]; cases b <;> simp

/-- The number of window `i`, read from as many leading bytes as hold it (43_pixel_codec.md R142). -/
theorem numberOf_window {b : Nat} {d e : List Byte} (he : e <+: d) {i : Nat}
    (hi : (i + 1) * b ≤ 8 * e.length) :
    numberOf (((bitsOfBytes e).drop (i * b)).take b) = windowIndex b d i := by
  obtain ⟨r, rfl⟩ := he
  have hm : (i + 1) * b = i * b + b := Nat.succ_mul i b
  have hl : (((bitsOfBytes e).drop (i * b)).take b).length = b := by simp; omega
  rw [numberOf_eq_sum, hl]
  unfold windowIndex
  congr 1
  apply List.map_congr_left
  intro k hk
  have hk : k < b := List.mem_range.1 hk
  have h1 : (((bitsOfBytes e).drop (i * b)).take b).getD k false = (bitsOfBytes e).getD (i * b + k) false := by
    simp [hk]
  have h2 := bitsOfBytes_getElem? (d := e) (q := i * b + k) (by omega)
  have h3 : (e ++ r).getD ((i * b + k) / 8) 0 = e.getD ((i * b + k) / 8) 0 := by
    simp only [List.getD_eq_getElem?_getD]; rw [List.getElem?_append_left (by omega)]
  rw [h1, h3, List.getD_eq_getElem?_getD, h2]; rfl

/-! ### Decoding -/

/-- Looking up windows in a written palette (43_pixel_codec.md R143, R144). -/
theorem windowColours_ok {s : State} {pal : List Colour} (hp : s.plen.toNat = pal.length)
    (hh : Holds s.mem.pal 0 pal) (vs : List Nat) :
    windowColours s vs = .ok (vs.map fun v => if v < pal.length then some (pal.getD v 0) else none) := by
  induction vs with
  | nil => rfl
  | cons v vs ih =>
    have h : windowColour s v = .ok (if v < pal.length then some (pal.getD v 0) else none) := by
      unfold windowColour
      rw [hp]
      split
      · rw [palEntry, fetchCell_of_holds hh (by assumption)]; rfl
      · rfl
    rw [windowColours, h, bind_ok, ih, bind_ok]; rfl

/-- PDEC's computation on a written input and palette (43_pixel_codec.md R143). -/
theorem decodePixels_ok {s : State} {d : List Byte} {pal : List Colour} (hi : InputIs s d)
    (hp : s.plen.toNat = pal.length) (h1 : 1 ≤ pal.length) (h2 : pal.length ≤ 256)
    (hh : Holds s.mem.pal 0 pal) :
    let b := bpp pal.length
    decodePixels s = .ok
      { bits := b
        pixels := (List.range (windowCount b d.length)).map fun i =>
          if windowIndex b d i < pal.length then some (pal.getD (windowIndex b d i) 0) else none
        trailing := 8 * d.length - windowCount b d.length * b } := by
  intro b
  obtain ⟨ha, hb, hc⟩ := hi
  have hpos : 1 ≤ b := bpp_pos pal.length
  have hw : windowCount b d.length * b ≤ 8 * d.length := by
    unfold windowCount
    calc _ ≤ (8 * d.length / b) * b := Nat.mul_le_mul_right _ (Nat.min_le_right _ _)
      _ ≤ _ := Nat.div_mul_le_self _ _
  have hx : Config.npixMax = 256 := rfl
  have hy : Config.palCap = 256 := rfl
  rw [decodePixels, inputLength_ok (by omega), bind_ok, require_true _ (by omega), bind_ok,
    require_true _ (by omega), bind_ok]
  simp only [ha, hp, hx]
  change (ibufBytes s 0 ((windowCount b d.length * b + 7) / 8) >>= _) = _
  rw [ibufBytes, fetchRange_slice hc _ _ (by omega), bind_ok, List.drop_zero]
  change (windowColours s (groups b (windowCount b d.length) _) >>= _) = _
  rw [windowColours_ok hp hh, bind_ok]
  change Except.ok _ = Except.ok _
  congr 2
  apply List.ext_getElem?
  intro i
  simp only [List.getElem?_map]
  by_cases hw' : i < windowCount b d.length
  · rw [groups_getElem? _ _ _ _ hw', List.getElem?_range hw']
    have : (i + 1) * b ≤ windowCount b d.length * b := Nat.mul_le_mul_right _ hw'
    rw [numberOf_window (List.take_prefix _ _) (by simp; omega)]; rfl
  · rw [List.getElem?_eq_none (by simp; omega), List.getElem?_eq_none (by simp; omega)]; rfl

end Sys2Proof.Machine
end

