-- ==== Sys2Proof/Laws/Frame.lean ====
section
/-! SUPPORT. What each shared state update leaves unchanged, said once, and what follows for every operation. -/

namespace Sys2Proof.Machine

/-! ### Frames compose -/

theorem Unchanged.refl (out : Loc → Prop) (s : State) : Unchanged out s s := ⟨fun _ _ => rfl, rfl, rfl, rfl⟩

theorem Unchanged.trans {out : Loc → Prop} {s t u : State} (h : Unchanged out s t) (h' : Unchanged out t u) :
    Unchanged out s u :=
  ⟨fun l hl => (h'.1 l hl).trans (h.1 l hl), h'.2.1.trans h.2.1, h'.2.2.1.trans h.2.2.1,
    h'.2.2.2.trans h.2.2.2⟩

/-- A frame over fewer locations is a frame over more. -/
theorem Unchanged.mono {regs regs' : List Reg} {spaces spaces' : List Space} {s t : State}
    (h : Unchanged (locs regs spaces) s t) (hr : regs ⊆ regs') (hs : spaces ⊆ spaces') :
    Unchanged (locs regs' spaces') s t := by
  refine ⟨fun l hl => h.1 l fun hl' => hl ?_, h.2⟩
  cases l with
  | reg r => exact hr hl'
  | cell sp i => exact hs hl'
  | reserved o => exact hl'

/-- A frame from its registers and its cells. -/
theorem unchanged_of {regs : List Reg} {spaces : List Space} {s t : State}
    (hr : ∀ r, r ∉ regs → readReg t r = readReg s r)
    (hs : ∀ sp, sp ∉ spaces → ∀ i, readCell t sp i = readCell s sp i)
    (hm : t.moves = s.moves) (hd : t.rdata = s.rdata) (hb : t.busyFor = s.busyFor) :
    Unchanged (locs regs spaces) s t := by
  refine ⟨fun l hl => ?_, hm, hd, hb⟩
  cases l with
  | reg r => exact congrArg some (hr r hl)
  | cell sp i => exact hs sp hl i
  | reserved o => rfl

/-! ### The ends of a completion step -/

theorem complete_unchanged (s : State) : Unchanged (locs [.status, .errcode] []) s (complete s) :=
  unchanged_of (fun r hr => by cases r <;> first | exact absurd (by decide) hr | rfl)
    (fun sp _ i => by cases sp <;> rfl) rfl rfl rfl

theorem raiseError_unchanged (e : ErrorName) (s : State) :
    Unchanged (locs [.status, .errcode, .olen] []) s (raiseError e s) :=
  unchanged_of (fun r hr => by cases r <;> first | exact absurd (by decide) hr | rfl)
    (fun sp _ i => by cases sp <;> rfl) rfl rfl rfl

theorem useFree_unchanged (s : State) (n : Nat) :
    Unchanged (locs [] []) s { s with free := n } :=
  unchanged_of (fun r _ => by cases r <;> rfl) (fun sp _ i => by cases sp <;> rfl) rfl rfl rfl

/-! ### The output sets -/

theorem setOutput_unchanged (bytes : List Byte) (s : State) :
    Unchanged (locs [.olen] [.obuf]) s (setOutput bytes s) :=
  unchanged_of (fun r hr => by cases r <;> first | exact absurd (by decide) hr | rfl)
    (fun sp hs i => by cases sp <;> first | exact absurd (by decide) hs | rfl) rfl rfl rfl

theorem staleOutput_unchanged (s : State) : Unchanged (locs [] [.obuf]) s (staleOutput s) :=
  unchanged_of (fun r hr => by cases r <;> first | exact absurd (by decide) hr | rfl)
    (fun sp hs i => by cases sp <;> first | exact absurd (by decide) hs | rfl) rfl rfl rfl

theorem noOutput_unchanged (s : State) : Unchanged (locs [.olen] [.obuf]) s (noOutput s) :=
  unchanged_of (fun r hr => by cases r <;> first | exact absurd (by decide) hr | rfl)
    (fun sp hs i => by cases sp <;> first | exact absurd (by decide) hs | rfl) rfl rfl rfl

theorem commitSum_unchanged (bytes : List Byte) (s : State) :
    Unchanged (locs [.sum, .olen] [.obuf]) s (commitSum bytes s) :=
  unchanged_of (fun r hr => by cases r <;> first | exact absurd (by decide) hr | rfl)
    (fun sp hs i => by cases sp <;> first | exact absurd (by decide) hs | rfl) rfl rfl rfl

theorem commitBuilt_unchanged (b : Built) (s : State) :
    Unchanged (locs [.sum, .rsize, .olen] [.obuf]) s (commitBuilt b s) :=
  unchanged_of (fun r hr => by cases r <;> first | exact absurd (by decide) hr | rfl)
    (fun sp hs i => by cases sp <;> first | exact absurd (by decide) hs | rfl) rfl rfl rfl

theorem commitParsed_unchanged (p : Parsed) (s : State) :
    Unchanged (locs [.rcmd, .rsize, .olen] [.obuf]) s (commitParsed p s) :=
  unchanged_of (fun r hr => by cases r <;> first | exact absurd (by decide) hr | rfl)
    (fun sp hs i => by cases sp <;> first | exact absurd (by decide) hs | rfl) rfl rfl rfl

theorem commitValid_unchanged (v : Bool) (s : State) :
    Unchanged (locs [.rcmd, .rsize, .status, .olen] [.obuf]) s (commitValid v s) :=
  unchanged_of (fun r hr => by cases r <;> first | exact absurd (by decide) hr | rfl)
    (fun sp hs i => by cases sp <;> first | exact absurd (by decide) hs | rfl) rfl rfl rfl

theorem commitSplit_unchanged (p : SplitPayload) (s : State) :
    Unchanged (locs [.plen, .olen] [.pal, .obuf]) s (commitSplit p s) :=
  unchanged_of (fun r hr => by cases r <;> first | exact absurd (by decide) hr | rfl)
    (fun sp hs i => by cases sp <;> first | exact absurd (by decide) hs | rfl) rfl rfl rfl

theorem commitGbm_unchanged (fields : List Byte) (s : State) :
    Unchanged (locs [.olen] [.gbm, .obuf]) s (commitGbm fields s) :=
  unchanged_of (fun r hr => by cases r <;> first | exact absurd (by decide) hr | rfl)
    (fun sp hs i => by cases sp <;> first | exact absurd (by decide) hs | rfl) rfl rfl rfl

theorem commitPalette_unchanged (n : Nat) (e : Encoded) (s : State) :
    Unchanged (locs [.plen, .bpp, .soff] [.pal]) s (commitPalette n e s) :=
  unchanged_of (fun r hr => by cases r <;> first | exact absurd (by decide) hr | rfl)
    (fun sp hs i => by cases sp <;> first | exact absurd (by decide) hs | rfl) rfl rfl rfl

theorem commitEncoded_unchanged (e : Encoded) (s : State) :
    Unchanged (locs [.plen, .bpp, .soff, .olen] [.pal, .obuf]) s (commitEncoded e s) :=
  ((commitPalette_unchanged 0 e s).mono (by decide) (by decide)).trans
    ((setOutput_unchanged e.bytes _).mono (by decide) (by decide))

theorem commitImage_unchanged (f : ImageFrame) (s : State) :
    Unchanged (locs [.plen, .bpp, .soff, .sum, .rsize, .olen] [.pal, .obuf]) s (commitImage f s) :=
  ((commitPalette_unchanged _ f.enc s).mono (by decide) (by decide)).trans
    ((commitBuilt_unchanged f.built _).mono (by decide) (by decide))

theorem commitDecoded_unchanged (d : Decoded) (s : State) :
    Unchanged (locs [.bpp, .skipcnt, .trailbits, .olen] [.pix, .obuf]) s (commitDecoded d s) :=
  unchanged_of (fun r hr => by cases r <;> first | exact absurd (by decide) hr | rfl)
    (fun sp hs i => by cases sp <;> first | exact absurd (by decide) hs | rfl) rfl rfl rfl

/-! ### The output sets left unspecified -/

theorem havocSum_unchanged (s : State) : Unchanged (locs [.sum] []) s (havocSum s) :=
  unchanged_of (fun r hr => by cases r <;> first | exact absurd (by decide) hr | rfl)
    (fun sp _ i => by cases sp <;> rfl) rfl rfl rfl

theorem havocRsize_unchanged (s : State) : Unchanged (locs [.rsize] []) s (havocRsize s) :=
  unchanged_of (fun r hr => by cases r <;> first | exact absurd (by decide) hr | rfl)
    (fun sp _ i => by cases sp <;> rfl) rfl rfl rfl

theorem havocRcmd_unchanged (s : State) : Unchanged (locs [.rcmd] []) s (havocRcmd s) :=
  unchanged_of (fun r hr => by cases r <;> first | exact absurd (by decide) hr | rfl)
    (fun sp _ i => by cases sp <;> rfl) rfl rfl rfl

theorem havocBpp_unchanged (s : State) : Unchanged (locs [.bpp] []) s (havocBpp s) :=
  unchanged_of (fun r hr => by cases r <;> first | exact absurd (by decide) hr | rfl)
    (fun sp _ i => by cases sp <;> rfl) rfl rfl rfl

theorem havocSoff_unchanged (s : State) : Unchanged (locs [.soff] []) s (havocSoff s) :=
  unchanged_of (fun r hr => by cases r <;> first | exact absurd (by decide) hr | rfl)
    (fun sp _ i => by cases sp <;> rfl) rfl rfl rfl

theorem havocObuf_unchanged (s : State) : Unchanged (locs [] [.obuf]) s (havocObuf s) :=
  unchanged_of (fun r hr => by cases r <;> first | exact absurd (by decide) hr | rfl)
    (fun sp hs i => by cases sp <;> first | exact absurd (by decide) hs | rfl) rfl rfl rfl

theorem havocPalette_unchanged (s : State) : Unchanged (locs [.plen] [.pal]) s (havocPalette s) :=
  unchanged_of (fun r hr => by cases r <;> first | exact absurd (by decide) hr | rfl)
    (fun sp hs i => by cases sp <;> first | exact absurd (by decide) hs | rfl) rfl rfl rfl

theorem havocGrid_unchanged (s : State) : Unchanged (locs [.skipcnt, .trailbits] [.pix]) s (havocGrid s) :=
  unchanged_of (fun r hr => by cases r <;> first | exact absurd (by decide) hr | rfl)
    (fun sp hs i => by cases sp <;> first | exact absurd (by decide) hs | rfl) rfl rfl rfl

theorem havocGbm_unchanged (s : State) : Unchanged (locs [] [.gbm]) s (havocGbm s) :=
  unchanged_of (fun r hr => by cases r <;> first | exact absurd (by decide) hr | rfl)
    (fun sp hs i => by cases sp <;> first | exact absurd (by decide) hs | rfl) rfl rfl rfl

theorem havocBuilt_unchanged (s : State) :
    Unchanged (locs [.sum, .rsize] [.obuf]) s (havocBuilt s) :=
  ((((havocRsize_unchanged s).mono (by decide) (by decide)).trans
    ((havocSum_unchanged _).mono (by decide) (by decide))).trans
    ((havocObuf_unchanged _).mono (by decide) (by decide)))

theorem havocParsed_unchanged (s : State) :
    Unchanged (locs [.rcmd, .rsize] [.obuf]) s (havocParsed s) :=
  ((((havocRsize_unchanged s).mono (by decide) (by decide)).trans
    ((havocRcmd_unchanged _).mono (by decide) (by decide))).trans
    ((havocObuf_unchanged _).mono (by decide) (by decide)))

theorem havocSplit_unchanged (s : State) :
    Unchanged (locs [.plen] [.pal, .obuf]) s (havocSplit s) :=
  (((havocPalette_unchanged s).mono (by decide) (by decide)).trans
    ((havocObuf_unchanged _).mono (by decide) (by decide)))

theorem havocEncoded_unchanged (s : State) :
    Unchanged (locs [.plen, .bpp, .soff] [.pal, .obuf]) s (havocEncoded s) :=
  (((((havocSoff_unchanged s).mono (by decide) (by decide)).trans
    ((havocBpp_unchanged _).mono (by decide) (by decide))).trans
    ((havocPalette_unchanged _).mono (by decide) (by decide))).trans
    ((havocObuf_unchanged _).mono (by decide) (by decide)))

theorem havocImage_unchanged (s : State) :
    Unchanged (locs [.plen, .bpp, .soff, .sum, .rsize] [.pal, .obuf]) s (havocImage s) :=
  (((havocBuilt_unchanged s).mono (by decide) (by decide)).trans
    ((havocEncoded_unchanged _).mono (by decide) (by decide)))

theorem havocDecoded_unchanged (s : State) :
    Unchanged (locs [.bpp, .skipcnt, .trailbits] [.pix, .obuf]) s (havocDecoded s) :=
  ((((havocBpp_unchanged s).mono (by decide) (by decide)).trans
    ((havocGrid_unchanged _).mono (by decide) (by decide))).trans
    ((staleOutput_unchanged _).mono (by decide) (by decide)))

theorem havocChecked_unchanged (s : State) : Unchanged (locs [.sum] [.obuf]) s (havocChecked s) :=
  ((havocSum_unchanged s).mono (by decide) (by decide)).trans
    ((staleOutput_unchanged _).mono (by decide) (by decide))

theorem havocBoxMode_unchanged (s : State) : Unchanged (locs [] [.gbm, .obuf]) s (havocBoxMode s) :=
  ((havocGbm_unchanged s).mono (by decide) (by decide)).trans
    ((staleOutput_unchanged _).mono (by decide) (by decide))

/-- A completion step's frame from the frames of what it commits and of what an error leaves unspecified. -/
theorem finish_unchanged {α : Type} {regs : List Reg} {spaces : List Space} {s t : State} {r : Result α}
    {commit : α → State → State} {havoc : State → State} (h : finish s r commit havoc = .next t)
    (h1 : ∀ a, Unchanged (locs regs spaces) s (commit a s)) (h2 : Unchanged (locs regs spaces) s (havoc s))
    (hr : [Reg.status, .errcode, .olen] ⊆ regs) : Unchanged (locs regs spaces) s t := by
  rcases finish_eq_next.1 h with ⟨a, -, rfl⟩ | ⟨e, -, rfl⟩
  · exact (h1 a).trans ((complete_unchanged _).mono
      (fun r hr' => hr (by simp at hr' ⊢; tauto)) (List.nil_subset _))
  · exact h2.trans (((useFree_unchanged _ _).mono (List.nil_subset _) (List.nil_subset _)).trans
      ((raiseError_unchanged e _).mono hr (List.nil_subset _)))

end Sys2Proof.Machine
end

