-- ==== Sys2Proof/Laws/PerInstr.lean ====
section
/-! SUPPORT. The statements made per instruction, one lemma per constructor. -/

namespace Sys2Proof.Laws.CommandWords

/-- The command word of an operation is a legal word that decodes to it, with the opcode in bits 7 to 0 and
zeros above (30_encoding.md R72, R73). -/
def Statement (i : Instr) : Prop :=
  decode (encode i) = .ok i ∧ (CommandWord.ofWord (encode i)).wellFormed = true ∧
    (encode i).toNat = (opcode i).toNat ∧ decodeTableWord 32 (encode i).toNat = some i

theorem nop : Statement .nop := by unfold Statement; decide
theorem csum : Statement .csum := by unfold Statement; decide
theorem csval : Statement .csval := by unfold Statement; decide
theorem buildN : Statement .buildN := by unfold Statement; decide
theorem buildI : Statement .buildI := by unfold Statement; decide
theorem buildB : Statement .buildB := by unfold Statement; decide
theorem parse : Statement .parse := by unfold Statement; decide
theorem parser : Statement .parser := by unfold Statement; decide
theorem isvalid : Statement .isvalid := by unfold Statement; decide
theorem penc : Statement .penc := by unfold Statement; decide
theorem imgbuild : Statement .imgbuild := by unfold Statement; decide
theorem pdec : Statement .pdec := by unfold Statement; decide
theorem psplitS : Statement .psplitS := by unfold Statement; decide
theorem psplitM : Statement .psplitM := by unfold Statement; decide
theorem gbmode : Statement .gbmode := by unfold Statement; decide
theorem clear : Statement .clear := by unfold Statement; decide

end Sys2Proof.Laws.CommandWords
end

