-- ==== Sys2Proof/Laws/Step.lean ====
section
/-! SUPPORT. The register window, whose turn it is, and what the host's side of a step does. -/

namespace Sys2Proof

theorem Space.contains_iff (sp : Space) (o : Nat) :
    sp.contains o = true ↔ sp.base ≤ o ∧ o < sp.base + sp.unit * Config.cells sp := by
  simp only [Space.contains, Bool.and_eq_true, decide_eq_true_eq]

/-- A cell the address decoder names is a cell of its space. -/
theorem locate_cell_lt {o i : Nat} {sp : Space} (h : locate o = .cell sp i) : i < Config.cells sp := by
  unfold locate at h
  split at h
  · split at h <;> cases h
  · split at h
    · rename_i sp' hf
      cases h
      obtain ⟨h1, h2⟩ := (Space.contains_iff sp o).1 (List.find?_some (p := fun x : Space => x.contains o) hf)
      apply Nat.div_lt_of_lt_mul
      omega
    · cases h

theorem decodeAccess_cell_lt {a : Access} {sp : Space} {i : Nat} (h : decodeAccess a = .ok (.cell sp i)) :
    i < Config.cells sp := by
  unfold decodeAccess at h
  split at h
  · cases h
  split at h
  · cases h
  dsimp only at h
  split at h
  · split at h
    · exact locate_cell_lt (Except.ok.inj h)
    · cases h
  · exact locate_cell_lt (Except.ok.inj h)

end Sys2Proof

namespace Sys2Proof.Machine

/-- In phase IDLE, and in BUSY before the completion step is due, the next move of the host is the step. -/
theorem step_host {s : State} {m : Move} {ms : List Move} (h : s.phase = .idle ∨ s.busyFor ≠ 0)
    (hm : s.moves = m :: ms) : step s = hostMove m s := by
  unfold step nextEvent
  rw [hm]
  cases hp : s.phase with
  | idle => rfl
  | busy =>
    rcases h with h | h
    · rw [hp] at h; cases h
    · cases hb : s.busyFor with
      | zero => exact absurd hb h
      | succ n => rfl

/-- The completion step comes when its time has come or the host has no move left. -/
theorem step_completion {s : State} (hp : s.phase = .busy) (hm : s.moves = [] ∨ s.busyFor = 0) :
    step s = completionStep s := by
  have h : nextEvent s = .completion := by
    unfold nextEvent
    rw [hp]
    rcases hm with h | h
    · simp [h]
    · rw [h]; cases s.moves <;> simp
  simp [step, h]

theorem step_rest {s : State} (hp : s.phase = .idle) (hm : s.moves = []) : step s = .next s := by
  simp [step, nextEvent, hp, hm]

@[simp] theorem takeMove_peek (s : State) (l : Loc) : (takeMove s).peek l = s.peek l := by
  cases l with
  | reg r => cases r <;> rfl
  | cell sp i => rfl
  | reserved o => rfl

/-- A host read changes no location (20_memory.md R45). -/
@[simp] theorem hostRead_peek (n : Nat) (l l' : Loc) (s : State) : (hostRead n l s).peek l' = s.peek l' := by
  unfold hostRead
  split <;> (cases l' with
    | reg r => cases r <;> rfl
    | cell sp i => rfl
    | reserved o => rfl)

@[simp] theorem hostRead_phase (n : Nat) (l : Loc) (s : State) : (hostRead n l s).phase = s.phase := by
  unfold hostRead; split <;> rfl
@[simp] theorem hostRead_moves (n : Nat) (l : Loc) (s : State) : (hostRead n l s).moves = s.moves := by
  unfold hostRead; split <;> rfl
@[simp] theorem hostRead_busyFor (n : Nat) (l : Loc) (s : State) :
    (hostRead n l s).busyFor = s.busyFor := by
  unfold hostRead; split <;> rfl
@[simp] theorem hostRead_mem (n : Nat) (l : Loc) (s : State) : (hostRead n l s).mem = s.mem := by
  unfold hostRead; split <;> rfl

/-- The bits of `STATUS` (10_state.md R16). -/
theorem statusWord_getLsbD (busy done err valid : Bool) (k : Nat) :
    (statusWord busy done err valid).getLsbD k =
      match k with
      | 0 => busy
      | 1 => done
      | 2 => err
      | 3 => valid
      | _ => false := by
  match k with
  | 0 | 1 | 2 | 3 => revert busy done err valid; decide
  | k + 4 =>
    by_cases h : k < 28
    · revert busy done err valid k; decide
    · exact BitVec.getLsbD_of_ge _ _ (by omega)

/-- A host read of a location that holds a value returns it. -/
theorem hostRead_rdata {n : Nat} {l : Loc} {s : State} {v : Word} (h : s.peek l = some v) :
    (hostRead n l s).rdata = v := by
  simp [hostRead, h]

/-- A host read leaves the latch and the outcome bits alone. -/
theorem hostRead_outcome (n : Nat) (l : Loc) (s : State) :
    (hostRead n l s).opLatch = s.opLatch ∧ (hostRead n l s).done = s.done ∧ (hostRead n l s).err = s.err ∧
      (hostRead n l s).valid = s.valid ∧ (hostRead n l s).errcode = s.errcode := by
  unfold hostRead; split <;> exact ⟨rfl, rfl, rfl, rfl, rfl⟩

/-- The start step changes no location but the latch, `STATUS` and `ERRCODE` (10_state.md R12). -/
theorem startStep_peek {w : Word} {s : State} {l : Loc}
    (h : l ∉ [Loc.reg .ctrl, .reg .status, .reg .errcode]) : (startStep w s).peek l = s.peek l := by
  cases l with
  | reg r => cases r <;> simp at h <;> rfl
  | cell sp i => cases sp <;> rfl
  | reserved o => rfl

/-- A write of a register's width at its offset reaches that register (20_memory.md R43). -/
theorem decodeAccess_writeReg (r : Reg) (d : Datum) :
    decodeAccess (.write 4 r.offset d) = .ok (.reg r) := by
  rw [show decodeAccess (.write 4 r.offset d) = decodeAccess (.read 4 r.offset) from rfl]
  cases r <;> decide

/-- A host write to `CTRL` in phase IDLE is the start step (10_state.md R12). -/
theorem step_ctrl_write {s : State} {d : Datum} {ms : List Move} (h : s.phase = .idle)
    (hm : s.moves = writeMove (.reg .ctrl) d :: ms) :
    step s = .next (startStep (datumValue s d) (takeMove s)) := by
  rw [step_host (.inl h) hm]
  simp only [writeMove, hostMove, h, idleAccess]
  rw [show decodeAccess (.write ((Loc.reg Reg.ctrl).unit.getD 4) (Loc.reg Reg.ctrl).offset d)
    = .ok (.reg .ctrl) from decodeAccess_writeReg .ctrl d]
  cases d <;> rfl

/-- A poll in phase BUSY reads `STATUS` and stays the host's next move (30_encoding.md R76). -/
theorem step_poll_busy {s : State} {ms : List Move} {n : Nat} (h : s.phase = .busy) (hb : s.busyFor = n + 1)
    (hm : s.moves = .poll :: ms) :
    step s = .next (hostRead 4 (.reg .status) { s with busyFor := s.busyFor - 1 }) := by
  rw [step_host (.inr (by omega)) hm]
  unfold hostMove; rw [h]

/-! ### Runs -/

theorem runsTo_zero (s : State) : RunsTo 0 s s := rfl

theorem run_succ_eq_next (M : Host.Core) (k : Nat) (s t : M.State) :
    M.run (k + 1) s = .next t ↔ ∃ u, M.step s = .next u ∧ M.run k u = .next t := by
  rw [Host.Core.run]
  cases M.step s <;> simp

theorem runsTo_succ {k : Nat} {s t : State} :
    RunsTo (k + 1) s t ↔ ∃ u, step s = .next u ∧ RunsTo k u t :=
  run_succ_eq_next Sys2Proof.core k s t

theorem runsTo_add {j k : Nat} {s u t : State} (h1 : RunsTo j s u) (h2 : RunsTo k u t) :
    RunsTo (j + k) s t := by
  induction j generalizing s with
  | zero => cases h1; simpa using h2
  | succ j ih =>
    obtain ⟨x, hx, hu⟩ := runsTo_succ.1 h1
    rw [show j + 1 + k = (j + k) + 1 by omega]
    exact runsTo_succ.2 ⟨x, hx, ih hu⟩

end Sys2Proof.Machine
end

