-- ==== Sys2Proof/Tests/Slice0.lean ====
section
/-! SUPPORT. Tests: the checks refuse ill-formed terms, the words of the opcode map, one step per vector of
95_test_vectors.md, and a witness for the hypotheses of every obligation that has some. -/

namespace Sys2Proof.Tests

open Sys2Proof.Machine

/-! ### The checks refuse (30_encoding.md R72 to R74, 20_memory.md R43, R44) -/

theorem test_upperZero_refuses : CommandWord.upperZero { op := 0x10, upper := 1 } = false := by decide
theorem test_opKnown_refuses : CommandWord.opKnown { op := 0x03, upper := 0 } = false := by decide
theorem test_wellFormed_accepts : CommandWord.wellFormed { op := 0x3F, upper := 0 } = true := by decide
theorem test_insideWindow_refuses : Access.insideWindow (.read 4 0x5FFFE) = false := by decide
theorem test_sizeOk_refuses : Access.sizeOk (.write 2 0x20000 (.lit 0)) = false := by decide
theorem test_aligned_refuses : Access.aligned (.read 4 0x00006) = false := by decide
theorem test_access_accepts : Access.wellFormed (.read 4 0x00004) = true := by decide
theorem test_register_byte_access_refused : decodeAccess (.read 1 0x00014) = .error .badShape := by decide
theorem test_byte_space_word_access_refused : decodeAccess (.read 4 0x20000) = .error .badShape := by decide

/-! ### The opcode map, every word written out (30_encoding.md R72, R73) -/

theorem test_word_nop : decode 0b00000000000000000000000000000000 = .ok .nop := by decide
theorem test_word_csum : decode 0b00000000000000000000000000000001 = .ok .csum := by decide
theorem test_word_csval : decode 0b00000000000000000000000000000010 = .ok .csval := by decide
theorem test_word_buildN : decode 0b00000000000000000000000000010000 = .ok .buildN := by decide
theorem test_word_buildI : decode 0b00000000000000000000000000010001 = .ok .buildI := by decide
theorem test_word_buildB : decode 0b00000000000000000000000000010010 = .ok .buildB := by decide
theorem test_word_parse : decode 0b00000000000000000000000000011000 = .ok .parse := by decide
theorem test_word_parser : decode 0b00000000000000000000000000011001 = .ok .parser := by decide
theorem test_word_isvalid : decode 0b00000000000000000000000000011010 = .ok .isvalid := by decide
theorem test_word_penc : decode 0b00000000000000000000000000100000 = .ok .penc := by decide
theorem test_word_imgbuild : decode 0b00000000000000000000000000100001 = .ok .imgbuild := by decide
theorem test_word_pdec : decode 0b00000000000000000000000000100010 = .ok .pdec := by decide
theorem test_word_psplitS : decode 0b00000000000000000000000000101000 = .ok .psplitS := by decide
theorem test_word_psplitM : decode 0b00000000000000000000000000101001 = .ok .psplitM := by decide
theorem test_word_gbmode : decode 0b00000000000000000000000000101010 = .ok .gbmode := by decide
theorem test_word_clear : decode 0b00000000000000000000000000111111 = .ok .clear := by decide
/-- V99, V100. -/
theorem test_word_illegal :
    decode 0x00000003 = .error .unknownOpcode ∧ decode 0x00000110 = .error .upperNotZero := by decide

/-! ### Small states -/

/-- The next state, where there is one. -/
def ran : Host.Outcome State Fault Refusal → Option State
  | .next t => some t
  | .fault _ => none
  | .refused _ => none

/-- After reset the host has done `IN bytes`. -/
def withIn (bytes : List Byte) : State :=
  { State.reset with ilen := BitVec.ofNat 32 bytes.length
                     mem := { Memory.unwritten with ibuf := Cells.ofList 0 bytes } }

/-- The same with the range registers and `EXPECT` written. -/
def withRange (bytes : List Byte) (a b : Word) (e : Half) : State :=
  { withIn bytes with rstart := a, rend := b, expect := e }

/-- After reset the host has written `CMDID` and done `IN bytes`. -/
def withCommand (c : Byte) (bytes : List Byte) : State := { withIn bytes with cmdid := c }

/-- After reset the host has written `PIX`, `NPIX` and `HDR`. -/
def withPixels (colours : List Colour) (header : List Byte) : State :=
  { State.reset with npix := BitVec.ofNat 32 colours.length
                     mem := { Memory.unwritten with pix := Cells.ofList 0 colours
                                                    hdr := Cells.ofList 0 header } }

/-- After reset the host has written `PAL`, `PLEN` and done `IN bytes`. -/
def withPalette (pal : List Colour) (bytes : List Byte) : State :=
  { State.reset with plen := BitVec.ofNat 32 pal.length, ilen := BitVec.ofNat 32 bytes.length
                     mem := { Memory.unwritten with pal := Cells.ofList 0 pal
                                                    ibuf := Cells.ofList 0 bytes } }

/-- The byte-string result. -/
def output (t : State) : List (Option Byte) := (List.range t.olen.toNat).map fun k => Cells.read t.mem.obuf k

/-! ### One step per vector (95_test_vectors.md) -/

/-- V1. -/
theorem test_csum : (ran (exec .csum (withRange [0x04, 0x00, 0x74, 0x17] 0 4 0))).map
    (fun t => (t.sum, t.olen, statusOf t)) = some (0x008F, 0, 0x2) := by decide
/-- V10. -/
theorem test_csum_bad_range : (ran (exec .csum (withRange [0x04, 0x00, 0x74, 0x17] 3 2 0))).map
    (fun t => (t.errcode, statusOf t)) = some (0x42, 0x6) := by decide
/-- V13. -/
theorem test_csval : (ran (exec .csval (withRange [0x04, 0x00, 0x74, 0x17] 0 4 0x008F))).map
    (fun t => (t.sum, statusOf t)) = some (0x008F, 0x2) := by decide
/-- V15. -/
theorem test_csval_high_byte : (ran (exec .csval (withRange [0x04, 0x00, 0x74, 0x17] 0 4 0x018F))).map
    (fun t => (t.sum, t.errcode, statusOf t)) = some (0x008F, 0x21, 0x6) := by decide
/-- V21. -/
theorem test_buildN : (ran (exec .buildN { State.reset with cmdid := 0xFF })).map
    (fun t => (output t, t.rsize, t.sum)) =
      some ([0x01, 0x03, 0x00, 0xFF, 0x02, 0x01, 0x02].map some, 3, 0x0102) := by decide
/-- V20, S1. -/
theorem test_buildI : (ran (exec .buildI { State.reset with cmdid := 0x74, imm := 0x17 })).map
    (fun t => (output t, t.rsize, t.sum)) =
      some ([0x01, 0x04, 0x00, 0x74, 0x17, 0x8F, 0x00, 0x02].map some, 4, 0x008F) := by decide
/-- V22. -/
theorem test_buildB : (ran (exec .buildB (withCommand 0x45 [0xFF, 0xFF, 0xFF, 0xFF]))).map
    (fun t => (output t, t.rsize, t.sum)) =
      some ([0x01, 0x07, 0x00, 0x45, 0xFF, 0xFF, 0xFF, 0xFF, 0x48, 0x04, 0x02].map some, 7, 0x0448) := by
  decide
/-- V29a: the length is tested before a byte is read. -/
theorem test_buildB_too_long : (ran (exec .buildB { State.reset with ilen := 65533 })).map
    (fun t => (t.errcode, t.olen)) = some (0x41, 0) := by decide
/-- V32. -/
theorem test_parse : (ran (exec .parse
    (withIn [0x01, 0x07, 0x00, 0x45, 0xFF, 0xFF, 0xFF, 0xFF, 0x48, 0x04, 0x02]))).map
    (fun t => (t.rcmd, t.rsize, output t, statusOf t)) =
      some (0x45, 7, [0xFF, 0xFF, 0xFF, 0xFF].map some, 0x2) := by decide
/-- V44: bytes after the frame. -/
theorem test_parse_bad_size : (ran (exec .parse
    (withIn [0x01, 0x03, 0x00, 0x74, 0x77, 0x00, 0x02, 0x00, 0xF4, 0x00, 0x02]))).map
    (fun t => (t.errcode, statusOf t)) = some (0x15, 0x6) := by decide
/-- V52. -/
theorem test_parser : (ran (exec .parser
    (withIn [0x01, 0x06, 0x00, 0x04, 0x74, 0x55, 0x00, 0xD3, 0x00, 0x02]))).map
    (fun t => (t.rcmd, t.rsize, output t)) = some (0x74, 6, [some 0x00]) := by decide
/-- V56: the magic is tested before the checksum. -/
theorem test_parser_bad_magic : (ran (exec .parser
    (withIn [0x01, 0x05, 0x00, 0x04, 0x74, 0x54, 0xD2, 0x00, 0x02]))).map
    (fun t => (t.errcode, statusOf t)) = some (0x14, 0x6) := by decide
/-- V31. -/
theorem test_isvalid : (ran (exec .isvalid
    (withIn [0x01, 0x03, 0x00, 0x74, 0x77, 0x00, 0x02]))).map statusOf = some 0xA := by decide
/-- V36. -/
theorem test_isvalid_bad_frame : (ran (exec .isvalid
    (withIn [0x01, 0x04, 0x00, 0x74, 0x16, 0x8F, 0x00, 0x02]))).map
    (fun t => (statusOf t, t.errcode, t.olen)) = some (0x2, 0, 0) := by decide
/-- V68. -/
theorem test_penc : (ran (exec .penc (withPixels
    [0x0000FF, 0x0000FF, 0xFF0000, 0x0000FF, 0x00FF00, 0xFF0000, 0x00FF00, 0x0000FF] []))).map
    (fun t => (t.plen, t.bpp, t.soff, output t)) =
      some (3, 2, 10, [0x03, 0x00, 0x00, 0xFF, 0xFF, 0x00, 0x00, 0x00, 0xFF, 0x00, 0x10, 0x26].map some) := by
  decide
/-- V70: six pad bits. -/
theorem test_penc_pad : (ran (exec .penc (withPixels
    [0x000001, 0x000002, 0x000003, 0x000001, 0x000002] []))).map
    (fun t => ((output t).drop 10, t.mem.pal)) =
      some ([some 0x24, some 0x01], [(0, 0x000001), (1, 0x000002), (2, 0x000003)]) := by decide
/-- V95. -/
theorem test_imgbuild : (ran (exec .imgbuild (withPixels [0xAA0000, 0x00BB00, 0xAA0000]
    [0x44, 0x00, 0x0A, 0x0A, 0x04, 0x00, 0x00, 0x00, 0x00, 0x00, 0x00]))).map
    (fun t => (output t, t.rsize, t.sum, t.soff)) =
      some ([0x01, 0x15, 0x00, 0x44, 0x00, 0x0A, 0x0A, 0x04, 0x00, 0x00, 0x00, 0x00, 0x00, 0x00, 0x02, 0xAA,
        0x00, 0x00, 0x00, 0xBB, 0x00, 0x02, 0xDA, 0x01, 0x02].map some, 21, 0x01DA, 21) := by decide
/-- V83: windows of three bits in one byte. -/
theorem test_pdec : (ran (exec .pdec
    (withPalette [0x000001, 0x000002, 0x000003, 0x000004, 0x000005] [0x99]))).map
    (fun t => ((List.range 4).map (Cells.read t.mem.pix), t.bpp, t.skipcnt, t.trailbits)) =
      some ([some 0x000002, some 0x000004, some 0, some 0], 3, 0, 2) := by decide
/-- The first byte of V80: the fourth window is out of bounds. -/
theorem test_pdec_out_of_bounds : (ran (exec .pdec
    (withPalette [0xFF0000, 0x00FF00, 0x0000FF] [0xE4]))).map
    (fun t => ((List.range 4).map (Cells.read t.mem.pix), t.bpp, t.skipcnt, statusOf t)) =
      some ([some 0xFF0000, some 0x00FF00, some 0x0000FF, some 0], 2, 1, 0x2) := by decide
/-- V59. -/
theorem test_psplitS : (ran (exec .psplitS (withIn
    [0xA0, 0xA1, 0xA2, 0xA3, 0xA4, 0xA5, 0xA6, 0xA7, 0xA8, 0xA9, 0x02, 0xFF, 0x00, 0x00, 0x00, 0x00, 0xFF,
      0x55, 0xAA]))).map (fun t => (t.plen, t.mem.pal, output t)) =
      some (2, [(0, 0xFF0000), (1, 0x0000FF)], [some 0x55, some 0xAA]) := by decide
/-- V59d. -/
theorem test_psplitS_short : (ran (exec .psplitS (withIn
    [0xA0, 0xA1, 0xA2, 0xA3, 0xA4, 0xA5, 0xA6, 0xA7, 0xA8, 0xA9, 0x02, 0xFF, 0x00, 0x00, 0x00, 0x00]))).map
    (fun t => t.errcode) = some 0x31 := by decide
/-- V59e. -/
theorem test_psplitM : (ran (exec .psplitM (withIn
    [0xA0, 0xA1, 0xA2, 0xA3, 0xA4, 0xA5, 0xA6, 0xA7, 0xA8, 0x01, 0x12, 0x34, 0x56, 0x0F]))).map
    (fun t => (t.plen, t.mem.pal, output t)) = some (1, [(0, 0x123456)], [some 0x0F]) := by decide
/-- V59f: PSPLIT.S's bytes are not PSPLIT.M's. -/
theorem test_psplitM_not_interchangeable : (ran (exec .psplitM (withIn
    [0xA0, 0xA1, 0xA2, 0xA3, 0xA4, 0xA5, 0xA6, 0xA7, 0xA8, 0xA9, 0x02, 0xFF, 0x00, 0x00, 0x00, 0x00, 0xFF,
      0x55, 0xAA]))).map (fun t => t.errcode) = some 0x31 := by decide
/-- V59h: extra bytes are ignored. -/
theorem test_gbmode : (ran (exec .gbmode (withIn
    [1, 2, 3, 4, 5, 6, 7, 8, 9, 10, 11, 12, 13, 14, 15, 16, 0xAA, 0xBB]))).map
    (fun t => (t.mem.gbm.map Prod.snd, t.olen)) =
      some ([1, 2, 3, 4, 5, 6, 7, 8, 9, 10, 11, 12, 13, 14, 15, 16], 0) := by decide
/-- V59i. -/
theorem test_gbmode_short : (ran (exec .gbmode (withIn (List.replicate 15 0)))).map
    (fun t => t.errcode) = some 0x31 := by decide
/-- V96. -/
theorem test_nop : (ran (exec .nop { State.reset with phase := .busy, olen := 8, sum := 0x8F })).map
    (fun t => (statusOf t, t.olen, t.sum)) = some (0x2, 8, 0x8F) := by decide
/-- V98. -/
theorem test_clear : (ran (exec .clear
    { State.reset with phase := .busy, opLatch := 0x3F, olen := 8, sum := 0x8F, cmdid := 0x74 })).map
    (fun t => (statusOf t, t.olen, t.sum, t.cmdid, readReg t .ctrl)) = some (0, 0, 0, 0x74, 0x3F) := by
  decide
/-- V99. -/
theorem test_illegal : (ran (step (State.reset.withFetchWord 32 0x00000003))).map
    (fun t => (statusOf t, t.errcode, t.olen, readReg t .ctrl)) = some (0x6, 0x43, 0, 3) := by decide
/-- V20 as a step of the machine, from the word in the latch. -/
theorem test_step_runs_the_word :
    (ran (step (State.withFetchWord { State.reset with cmdid := 0x74, imm := 0x17 } 32 0x00000011))).map
      (fun t => (statusOf t, output t)) =
      some (0x2, [0x01, 0x04, 0x00, 0x74, 0x17, 0x8F, 0x00, 0x02].map some) := by decide

/-! ### Witnesses: states and operands that meet the hypotheses of the obligations -/

theorem withIn_inputIs (bytes : List Byte) (h : bytes.length ≤ 65539) : InputIs (withIn bytes) bytes :=
  ⟨by simp [withIn]; omega, h, holds_ofList 0 bytes⟩

theorem withCommand_inputIs (c : Byte) (bytes : List Byte) (h : bytes.length ≤ 65539) :
    InputIs (withCommand c bytes) bytes := withIn_inputIs bytes h

theorem withPalette_inputIs (pal : List Colour) (bytes : List Byte) (h : bytes.length ≤ 65539) :
    InputIs (withPalette pal bytes) bytes := ⟨by simp [withPalette]; omega, h, holds_ofList 0 bytes⟩

theorem withPixels_npix {n : Nat} (c : Colour) (header : List Byte) (h : n ≤ 256) :
    (withPixels (List.replicate n c) header).npix.toNat = n := by
  simp [withPixels]; omega

theorem withPixels_holds (colours : List Colour) (header : List Byte) :
    Holds (withPixels colours header).mem.pix 0 colours ∧ Holds (withPixels colours header).mem.hdr 0 header :=
  ⟨holds_ofList 0 colours, holds_ofList 0 header⟩

theorem replicate_le {n : Nat} (b : Byte) (h : n ≤ 65539) : (List.replicate n b).length ≤ 65539 := by
  rw [List.length_replicate]; exact h

/-- The state in which the host is about to make one move. -/
def about (m : Move) : State := { State.reset with moves := [m] }

/-- The same in phase BUSY, one move before the completion step is due. -/
def busyAbout (m : Move) : State := { State.reset with phase := .busy, moves := [m], busyFor := 1 }

theorem test_witness_OpcodeMapDecodes : (0x00000003 : Word) ∉ [(0x00000000 : Word), 0x00000001, 0x00000002,
    0x00000010, 0x00000011, 0x00000012, 0x00000018, 0x00000019, 0x0000001A, 0x00000020, 0x00000021, 0x00000022,
    0x00000028, 0x00000029, 0x0000002A, 0x0000003F] := by decide

theorem test_witness_EveryStepKeepsTheInvariant :
    (State.reset.withFetchWord 32 0).Inv ∧ ∃ t, step (State.reset.withFetchWord 32 0) = .next t :=
  ⟨⟨wf_unwritten, by simp [StatusLegal, State.withFetchWord, startStep],
    by simp [ResultWritten, State.withFetchWord, startStep, State.reset]⟩, _, rfl⟩

theorem test_witness_CompletionStepRunsTheLatchedOperation :
    (State.reset.withFetchWord 32 1).phase = .busy ∧ (State.reset.withFetchWord 32 1).moves = [] ∧
    decode (State.reset.withFetchWord 32 1).opLatch = .ok .csum := by decide
/-- The other case: the host has moves left, and the time has come. -/
theorem test_witness_CompletionStepRunsTheLatchedOperation_due :
    (State.withFetchWord (about .poll) 32 0x3F).phase = .busy ∧
    (State.withFetchWord (about .poll) 32 0x3F).busyFor = 0 ∧
    decode (State.withFetchWord (about .poll) 32 0x3F).opLatch = .ok .clear := by decide

theorem test_witness_IllegalWordRaisesIllegalOp :
    (∀ i, encode i ≠ 0x00000003) ∧ (∀ i, encode i ≠ 0xFFFFFFFF) ∧
    (about (writeMove (.reg .ctrl) (.lit 0x00000003))).phase = .idle ∧
    (State.reset.withFetchWord 32 0x00000003).phase = .busy ∧
    (State.reset.withFetchWord 32 0x00000003).moves = [] ∧
    (State.reset.withFetchWord 32 0x00000003).opLatch = 0x00000003 ∧
    datumValue { about (writeMove (.reg .ctrl) .lastRead) with rdata := 0x00000003 } .lastRead = 0x00000003 :=
  ⟨by intro i; cases i <;> decide, by intro i; cases i <;> decide, by decide, by decide, by decide, by decide,
    by decide⟩

theorem test_witness_CtrlWriteInIdleStartsTheOperation :
    (about (writeMove (.reg .ctrl) (.lit 0x11))).phase = .idle ∧
    (about (writeMove (.reg .ctrl) (.lit 0x11))).moves = [writeMove (.reg .ctrl) (.lit 0x11)] ∧
    (about (writeMove (.reg .ctrl) .lastRead)).moves = [writeMove (.reg .ctrl) .lastRead] := by decide

theorem test_witness_CtrlWriteInBusyIsDropped :
    (busyAbout (writeMove (.reg .ctrl) .lastRead)).phase = .busy ∧
    (busyAbout (writeMove (.reg .ctrl) .lastRead)).busyFor = 0 + 1 ∧
    (busyAbout (writeMove (.reg .ctrl) .lastRead)).moves = [writeMove (.reg .ctrl) .lastRead] := by decide

/-- One access for each clause: `STATUS` at 4 and `CTRL` at 0 go on, `ERRCODE` at 8 does not. -/
theorem test_witness_BusyHostAccessOnlyToStatusAndCtrl :
    (busyAbout (.access (.read 4 4))).phase = .busy ∧ (busyAbout (.access (.read 4 4))).busyFor = 0 + 1 ∧
    decodeAccess (.read 4 4) = .ok (.reg .status) ∧ decodeAccess (.read 4 0) = .ok (.reg .ctrl) ∧
    decodeAccess (.read 4 8) = .ok (.reg .errcode) ∧ decodeAccess (.write 1 0x5FFFF (.lit 0)) =
      .ok (.reserved 0x5FFFF) := by decide

/-- One access for each disjunct, each at the end of the window or of a register. -/
theorem test_witness_AccessOfTheWrongShapeIsRefused :
    (about (.access (.read 2 0x5FFFE))).phase = .idle ∧ (busyAbout (.access (.read 2 0x5FFFE))).busyFor ≠ 0 ∧
    (0x5FFFE + 2 ≤ 0x60000 ∧ 2 ≠ 1 ∧ 2 ≠ 4) ∧ (0x5FFFA + 4 ≤ 0x60000 ∧ 0x5FFFA % 4 ≠ 0) ∧
    ((locate 0x0004C).unit = some 4 ∧ 4 ≠ 1) ∧ ((locate 0x30000).unit = some 1 ∧ 1 ≠ 4) := by decide

theorem test_witness_AccessOutsideTheWindowFaults :
    (about (.access (.read 4 0x5FFFD))).phase = .idle ∧ 0x60000 < (Access.read 4 0x5FFFD).offset + 4 ∧
    (busyAbout (.access (.read 1 0x60000))).busyFor ≠ 0 ∧ 0x60000 < (Access.read 1 0x60000).offset + 1 := by
  decide

/-- The table of 60_exceptions.md R162. -/
theorem test_error_codes :
    [ErrorName.packetIncomplete, .badStartMarker, .badEndMarker, .badMagic, .badSize, .checksumMismatch,
      .payloadTooShort, .emptyInput, .emptyPalette, .paletteOverflow, .payloadTooLong, .badOperand,
      .illegalOp].map errorCode =
    [0x11, 0x12, 0x13, 0x14, 0x15, 0x21, 0x31, 0x32, 0x33, 0x34, 0x41, 0x42, 0x43] := by decide

/-- 10_state.md R16: BUSY, DONE, ERR, VALID are bits 0, 1, 2, 3. -/
theorem test_status_bits : statusWord true false false false = 1 ∧ statusWord false true false false = 2 ∧
    statusWord false false true false = 4 ∧ statusWord false false false true = 8 := by decide

/-- The last cell of each space, and the two ends of each range of reserved offsets that touches one. -/
theorem test_witness_RegisterMapReachesEveryLocation :
    (10 < 11 ∧ 15 < 16 ∧ 255 < 256 ∧ 65538 < 65539) ∧
    decodeAccess (.read 1 0x0008A) = .ok (.cell .hdr 10) ∧ decodeAccess (.read 1 0x0008B) = .ok (.reserved 0x0008B) ∧
    decodeAccess (.read 1 0x30002) = .ok (.cell .ibuf 65538) ∧
    decodeAccess (.read 1 0x30003) = .ok (.reserved 0x30003) ∧
    decodeAccess (.read 1 0x00037) = .ok (.reserved 0x00037) ∧
    decodeAccess (.read 1 0x5FFFF) = .ok (.reserved 0x5FFFF) := by decide

theorem test_witness_ReservedOffsetsIgnoreWrites :
    (about (.access (.write 4 0x00034 (.lit 7)))).phase = .idle ∧
    (about (.access (.write 4 0x00034 (.lit 7)))).moves = [.access (.write 4 0x00034 (.lit 7))] ∧
    decodeAccess (.write 4 0x00034 (.lit 7)) = .ok (.reserved 0x00034) ∧
    decodeAccess (.write 1 0x5FFFF .lastRead) = .ok (.reserved 0x5FFFF) := by decide

/-- A register that holds a value, and a cell that holds none. -/
theorem test_witness_HostReadHasNoSideEffect :
    (about (.access (.read 4 0x3C))).phase = .idle ∧ decodeAccess (.read 4 0x3C) = .ok (.reg .npix) ∧
    State.reset.peek (.reg .npix) = some 256 ∧ decodeAccess (.read 1 0x40000) = .ok (.cell .obuf 0) ∧
    State.reset.peek (.cell .obuf 0) = none := by decide

/-- One location for each clause. -/
theorem test_witness_HostWriteStoresTheStoredBits :
    (∀ r, (about (writeMove (.reg r) (.lit 0xFFFFFFFF))).phase = .idle) ∧
    (∀ l ∈ [Loc.cell .ibuf 65538, .cell .hdr 10, .cell .pal 255, .cell .pix 255, .cell .obuf 0, .cell .gbm 0],
      (about (writeMove l (.lit 0xFFFFFFFF))).moves = [writeMove l (.lit 0xFFFFFFFF)] ∧
      decodeAccess (.write (l.unit.getD 4) l.offset (.lit 0xFFFFFFFF)) = .ok l) ∧
    (about (writeMove (.reg .ilen) .lastRead)).moves = [writeMove (.reg .ilen) .lastRead] :=
  ⟨fun _ => rfl, by decide, by decide⟩

/-- `NPIX` read twice. -/
theorem test_witness_TwoReadsOfOneLocationAgree :
    State.moves { State.reset with moves := [.access (.read 4 0x3C), .access (.read 4 0x3C)] } =
      .access (.read 4 0x3C) :: .access (.read 4 0x3C) :: [] ∧
    decodeAccess (.read 4 0x3C) = .ok (.reg .npix) ∧ State.reset.peek (.reg .npix) ≠ none := by decide

/-- The completion step of ISVALID, after which `OBUF` is unspecified, on a state whose `OBUF[0]` is written. -/
theorem test_witness_WrittenCellStaysWritten :
    (let s : State := { State.reset.withFetchWord 32 0x1A with
        mem := { Memory.unwritten with obuf := [(0, 0x55)] } };
      (∃ t, step s = .next t) ∧ nextEvent s ≠ .host .reset ∧ s.peek (.cell .obuf 0) ≠ none) ∧
    0 < Config.cells .obuf :=
  ⟨⟨⟨_, rfl⟩, by decide, by decide⟩, by decide⟩

/-- An error (GBMODE of an empty input) and ISVALID. -/
theorem test_witness_UnspecifiedCellsHoldAValue :
    (∃ t, exec .gbmode (withIn []) = .next t ∧ t.err = true) ∧ Space.gbm ∈ outputSpaces .gbmode ∧
    15 < Config.cells .gbm ∧ (∃ t, exec .isvalid (withIn []) = .next t) ∧
    Space.obuf ∈ outputSpaces .isvalid ∧ 65538 < Config.cells .obuf :=
  ⟨⟨_, rfl, rfl⟩, by decide, by decide, ⟨_, rfl⟩, by decide, by decide⟩

/-- CSUM of an empty input where `OBUF[0]` holds a byte: `OBUF[0]` goes on holding one, `OBUF[1]` stays unwritten
(40_checksum.md:47). GBMODE of the same input raises. -/
theorem test_witness_NothingIsStoredBeyondOlen :
    let s : State := { withIn [] with mem := { Memory.unwritten with obuf := [(0, 0x55)] } };
    (∃ t, exec .csum s = .next t ∧ t.err = false ∧ t.olen = 0 ∧ (t.peek (.cell .obuf 0)).isSome = true ∧
      t.peek (.cell .obuf 1) = none) ∧
    ∃ t, exec .gbmode s = .next t ∧ t.err = true ∧ (t.peek (.cell .obuf 0)).isSome = true :=
  ⟨⟨_, rfl, rfl, rfl, rfl, rfl⟩, ⟨_, rfl, rfl, rfl⟩⟩

theorem test_witness_ResetMoveRestoresTheResetState :
    (about .reset).phase = .idle ∧ (about .reset).moves = [.reset] ∧ (busyAbout .reset).busyFor ≠ 0 ∧
    (busyAbout .reset).moves = [.reset] := by decide

theorem test_witness_IdleWithoutHostMovesRestsForEver :
    State.reset.phase = .idle ∧ State.reset.moves = [] := by decide

/-- With an access of each kind before the poll and another move after it; and with nothing to follow. -/
theorem test_witness_StartedOperationReachesItsCompletion :
    (let early : List Move := [.access (.read 4 0), writeMove (.reg .ctrl) .lastRead, .poll];
      (about (writeMove (.reg .ctrl) (.lit 0x3F))).phase = .idle ∧
      ∀ m ∈ early, AllowedInBusy m) ∧
    [Move.poll, .reset].head? = some .poll ∧ encode .clear = 0x3F ∧ ∀ i, encode i ≠ 0x00000110 := by
  refine ⟨⟨rfl, ?_⟩, rfl, rfl, by intro i; cases i <;> decide⟩
  intro m hm
  simp only [List.mem_cons, List.not_mem_nil, or_false] at hm
  rcases hm with rfl | rfl | rfl
  · exact ⟨.reg .ctrl, by decide, .inl rfl⟩
  · exact ⟨.reg .ctrl, by decide, .inl rfl⟩
  · trivial

theorem test_witness_PollWaitsForIdle :
    (about .poll).moves = [.poll] ∧ (about .poll).phase = .idle ∧
    (busyAbout .poll).moves = [.poll] ∧ (busyAbout .poll).phase = .busy ∧
    (busyAbout .poll).busyFor = 0 + 1 := by decide

theorem test_witness_OpStatementEndsInIdle :
    State.phase { State.reset with moves := stmtMoves (.op .nop) ++ [.reset] } = .idle ∧
    InputsWritten .nop { State.reset with moves := stmtMoves (.op .nop) ++ [.reset] } := by
  refine ⟨rfl, fun l hl => ?_⟩
  cases l with
  | reg r => cases hl
  | cell sp i => cases sp <;> cases hl
  | reserved o => cases hl

/-- With the longest result and with none. -/
theorem test_witness_LoopFeedsTheResultBack :
    (let s : State := { about .loop with
        olen := 65539, mem := { Memory.unwritten with obuf := Cells.ofList 0 (List.replicate 65539 0x55) } };
      s.phase = .idle ∧ s.moves = [.loop] ∧ OutputIs s (List.replicate 65539 0x55)) ∧
    OutputIs (about .loop) [] :=
  ⟨⟨rfl, rfl, (List.length_replicate (n := 65539) (a := (0x55 : Byte))).symm, holds_ofList _ _⟩, rfl,
    holds_nil _ _⟩

theorem test_witness_InLoadsTheInput :
    (let s : State := { State.reset with moves := pseudoMoves (.input (List.replicate 65539 0)) ++ [] };
      s.phase = .idle ∧ s.moves = pseudoMoves (.input (List.replicate 65539 0)) ++ []) ∧
    (List.replicate 65539 (0 : Byte)).length ≤ 65539 :=
  ⟨⟨rfl, rfl⟩, replicate_le _ (by omega)⟩

theorem test_witness_OperationsWriteOnlyTheirOutputSet : ∃ t, exec .gbmode (withIn []) = .next t := ⟨_, rfl⟩

/-- Two states that agree on CSUM's input set and differ outside it. -/
theorem test_witness_OutputSetDependsOnInputSetAlone :
    (∀ l, inputs .csum (withIn []) l → State.peek { withIn [] with sum := 7, npix := 1 } l = (withIn []).peek l) ∧
    State.free { withIn [] with sum := 7, npix := 1 } = (withIn []).free ∧
    State.valid { withIn [] with sum := 7, npix := 1 } = (withIn []).valid ∧
    ∃ t, exec .csum (withIn []) = .next t ∧ t.err = false := by
  refine ⟨fun l hl => ?_, rfl, rfl, _, rfl, rfl⟩
  cases l with
  | reg r => cases r <;> first | rfl | exact absurd hl (by simp [inputs, inputRegs])
  | cell sp i => rfl
  | reserved o => rfl

/-- NOP has no input; a CSUM of the empty range has its inputs written; PENC right after reset has not
(70_reset_and_hazards.md R192). -/
theorem test_witness_OperationCompletesWhenInputsAreWritten :
    InputsWritten .nop State.reset ∧
    InputsWritten .csum (withIn []) ∧
    exec .penc State.reset = .refused (.unwrittenCell (.cell .pix 0)) := by
  refine ⟨fun l hl => ?_, fun l hl => ?_, rfl⟩
  · cases l with
    | reg r => cases hl
    | cell sp i => cases sp <;> cases hl
    | reserved o => cases hl
  · cases l with
    | reg r => simp [State.peek]
    | cell sp i =>
      cases sp
      case ibuf => exact absurd hl (by simp [inputs, inputCells, withIn, State.reset])
      all_goals cases hl
    | reserved o => cases hl

theorem test_witness_RaisedErrorLeavesTheStatedState :
    ∃ t, exec .gbmode (withIn []) = .next t ∧ t.err = true := ⟨_, rfl, rfl⟩

theorem test_witness_InputLengthAboveCapacityIsBadOperand :
    65539 < (BitVec.ofNat 32 65540).toNat ∧ 65539 < (BitVec.allOnes 32).toNat ∧
    State.ilen { State.reset with ilen := 65540 } = BitVec.ofNat 32 65540 := by decide

/-- A whole input, an empty range at its end, and the illegal ranges and length next to them. -/
theorem test_witness_CsumSumsTheRange :
    (let s := withRange [0x04, 0x00, 0x74, 0x17] 0 4 0;
      s.ilen.toNat ≤ 65539 ∧ s.rstart.toNat ≤ s.rend.toNat ∧ s.rend.toNat ≤ s.ilen.toNat ∧
      Holds s.mem.ibuf s.rstart.toNat [0x04, 0x00, 0x74, 0x17]) ∧
    (let s := withRange [0x04, 0x00, 0x74, 0x17] 4 4 0;
      s.ilen.toNat ≤ 65539 ∧ s.rstart.toNat ≤ s.rend.toNat ∧ s.rend.toNat ≤ s.ilen.toNat ∧
      Holds s.mem.ibuf s.rstart.toNat []) ∧
    (let s := withRange [0x04, 0x00, 0x74, 0x17] 4 3 0; ¬ s.rstart.toNat ≤ s.rend.toNat) ∧
    (let s := withRange [0x04, 0x00, 0x74, 0x17] 0 5 0; ¬ s.rend.toNat ≤ s.ilen.toNat) ∧
    ¬ (State.ilen { State.reset with ilen := 65540 }).toNat ≤ 65539 := by decide

/-- The same states with a matching and with a different `EXPECT`. -/
theorem test_witness_CsvalComparesTheSum :
    (let s := withRange [0x04, 0x00, 0x74, 0x17] 0 4 0x008F;
      s.ilen.toNat ≤ 65539 ∧ s.rstart.toNat ≤ s.rend.toNat ∧ s.rend.toNat ≤ s.ilen.toNat ∧
      Holds s.mem.ibuf s.rstart.toNat [0x04, 0x00, 0x74, 0x17] ∧
      byteSum [0x04, 0x00, 0x74, 0x17] % 65536 = s.expect.toNat) ∧
    byteSum [0x04, 0x00, 0x74, 0x17] % 65536 ≠
      (withRange [0x04, 0x00, 0x74, 0x17] 0 4 0x018F).expect.toNat ∧
    (let s := withRange [0x04, 0x00, 0x74, 0x17] 0 5 0; ¬ s.rend.toNat ≤ s.ilen.toNat) ∧
    ¬ (State.ilen { State.reset with ilen := 65540 }).toNat ≤ 65539 := by decide

theorem test_witness_ChecksumLaws :
    (0 : Byte) ≠ 255 ∧ (254 : Byte).toNat < 255 ∧ 0 < (1 : Byte).toNat ∧ byteSum [0xFF] < 65536 := by decide

/-- The longest payload, and both ends of the range that is too long. -/
theorem test_witness_BuildBFramesTheInput :
    (InputIs (withCommand 0xAA (List.replicate 65532 0x55)) (List.replicate 65532 0x55) ∧
      (List.replicate 65532 (0x55 : Byte)).length ≤ 65532) ∧
    (65532 < (State.ilen { State.reset with ilen := 65533 }).toNat ∧
      (State.ilen { State.reset with ilen := 65533 }).toNat ≤ 65539) ∧
    (65532 < (State.ilen { State.reset with ilen := 65539 }).toNat ∧
      (State.ilen { State.reset with ilen := 65539 }).toNat ≤ 65539) ∧
    65539 < (State.ilen { State.reset with ilen := 65540 }).toNat :=
  ⟨⟨withCommand_inputIs _ _ (replicate_le _ (by omega)), List.length_replicate.le⟩, by decide, by decide,
    by decide⟩

/-- The length above which PARSE, PARSER, ISVALID, PSPLIT.S, PSPLIT.M and GBMODE raise BadOperand (V51). -/
theorem test_witness_length_above_capacity :
    65539 < (State.ilen { State.reset with ilen := 65540 }).toNat := by decide

/-- One input for success (V30) and one for each error of the check order (V34, V39, V40, V45, V36). -/
theorem test_witness_ParseFollowsTheCheckOrder :
    (∀ b : List Byte, b.length ≤ 65539 → InputIs (withIn b) b) ∧
    frameError .command [0x01, 0x04, 0x00, 0x74, 0x17, 0x8F, 0x00, 0x02] = none ∧
    frameError .command [0x01, 0x04, 0x00] = some .packetIncomplete ∧
    frameError .command [0x01, 0x05, 0x00, 0x74, 0x17, 0x8F, 0x00, 0x02] = some .packetIncomplete ∧
    frameError .command [0x00, 0x04, 0x00, 0x74, 0x17, 0x8F, 0x00, 0x02] = some .badStartMarker ∧
    frameError .command [0x01, 0x04, 0x00, 0x74, 0x17, 0x8F, 0x00, 0x03] = some .badEndMarker ∧
    frameError .command [0x01, 0x04, 0x00, 0x74, 0x17, 0x8F, 0x00, 0x02, 0xAA, 0xBB] = some .badSize ∧
    frameError .command [0x01, 0x00, 0x00, 0x02] = some .badSize ∧
    frameError .command [0x01, 0x04, 0x00, 0x74, 0x16, 0x8F, 0x00, 0x02] = some .checksumMismatch :=
  ⟨withIn_inputIs, by decide, by decide, by decide, by decide, by decide, by decide, by decide, by decide⟩

/-- V53, V58a, V58, V55, V56, V57. -/
theorem test_witness_ParserFollowsTheCheckOrder :
    (∀ b : List Byte, b.length ≤ 65539 → InputIs (withIn b) b) ∧
    frameError .response [0x01, 0x05, 0x00, 0x04, 0x74, 0x55, 0xD2, 0x00, 0x02] = none ∧
    frameError .response [0x01, 0x05, 0x00, 0x04, 0x74] = some .packetIncomplete ∧
    frameError .response [0x01, 0x04, 0x00, 0x04, 0x74, 0x08, 0x00, 0x02] = some .badSize ∧
    frameError .response [0x01, 0x05, 0x00, 0x05, 0x74, 0x55, 0xD2, 0x00, 0x02] = some .badMagic ∧
    frameError .response [0x01, 0x05, 0x00, 0x04, 0x74, 0x54, 0xD2, 0x00, 0x02] = some .badMagic ∧
    frameError .response [0x01, 0x05, 0x00, 0x04, 0x74, 0x55, 0xD3, 0x00, 0x02] = some .checksumMismatch :=
  ⟨withIn_inputIs, by decide, by decide, by decide, by decide, by decide, by decide⟩

theorem test_witness_IsvalidConvertsParseFailures :
    InputIs (withIn []) [] ∧ InputIs (withIn (List.replicate 65539 0)) (List.replicate 65539 0) :=
  ⟨withIn_inputIs _ (by simp), withIn_inputIs _ (replicate_le _ (by omega))⟩

theorem test_witness_ParsedFrameFillsTheInput :
    (∃ t, exec .parse (withIn [0x01, 0x03, 0x00, 0x74, 0x77, 0x00, 0x02]) = .next t ∧ t.err = false) ∧
    ∃ t, exec .parser (withIn [0x01, 0x05, 0x00, 0x04, 0x74, 0x55, 0xD2, 0x00, 0x02]) = .next t ∧
      t.err = false := ⟨⟨_, rfl, rfl⟩, _, rfl, rfl⟩

theorem test_witness_ParseOfBuiltFrameRoundTrips :
    InputIs (withCommand 0x74 [0x17]) [0x17] ∧
    (∃ t, exec .buildB (withCommand 0x74 [0x17]) = .next t ∧
      OutputIs t [0x01, 0x04, 0x00, 0x74, 0x17, 0x8F, 0x00, 0x02]) ∧
    InputIs (withIn [0x01, 0x04, 0x00, 0x74, 0x17, 0x8F, 0x00, 0x02])
      [0x01, 0x04, 0x00, 0x74, 0x17, 0x8F, 0x00, 0x02] :=
  ⟨withCommand_inputIs _ _ (by simp), ⟨_, rfl, rfl, by decide⟩, withIn_inputIs _ (by simp)⟩

/-- V36, V38 to V42, and V44: a bit for each clause. -/
theorem test_witness_SingleBitCorruptionIsDetected :
    (∀ j k, j < 8 → InputIs (withIn (flipBit (commandFrame 0x74 [0x17]) j k))
      (flipBit (commandFrame 0x74 [0x17]) j k)) ∧
    flipBit (commandFrame 0x74 [0x17]) 0 0 = [0x00, 0x04, 0x00, 0x74, 0x17, 0x8F, 0x00, 0x02] ∧
    declaredSize (flipBit (commandFrame 0x74 [0x17]) 1 0) = 5 ∧
    declaredSize (flipBit (commandFrame 0x74 [0x17]) 2 7) = 32772 ∧
    declaredSize (flipBit (commandFrame 0x74 [0x17]) 1 2) = 0 ∧
    (flipBit (commandFrame 0x74 [0x17]) 1 2).getD 3 0 = 0x74 ∧
    flipBit (commandFrame 0x74 [0x77, 0x00, 0x02, 0x00]) 1 2 =
      [0x01, 0x03, 0x00, 0x74, 0x77, 0x00, 0x02, 0x00, 0xF4, 0x00, 0x02] ∧
    3 ≤ [0x17].length + 5 ∧ [0x17].length + 6 = 7 :=
  ⟨fun j k _ => withIn_inputIs _ (by simp [flipBit]), by decide, by decide, by decide, by decide, by decide,
    by decide, by decide, by decide⟩

/-- The shortest payload that has a table, one that fits exactly, and the two ways to be too short. -/
theorem test_witness_PayloadSplitFindsPaletteAndImage :
    (∀ b : List Byte, b.length ≤ 65539 → InputIs (withIn b) b) ∧
    (let d : List Byte := List.replicate 10 0 ++ [0x01, 0x12, 0x34, 0x56];
      10 + 1 ≤ d.length ∧ 10 + 1 + 3 * (d.getD 10 0).toNat ≤ d.length) ∧
    (let d : List Byte := List.replicate 9 0 ++ [0x00];
      9 + 1 ≤ d.length ∧ 9 + 1 + 3 * (d.getD 9 0).toNat ≤ d.length) ∧
    (let d : List Byte := List.replicate 10 0;
      ¬ (10 + 1 ≤ d.length ∧ 10 + 1 + 3 * (d.getD 10 0).toNat ≤ d.length)) ∧
    (let d : List Byte := List.replicate 9 0 ++ [0x01, 0x12, 0x34];
      ¬ (9 + 1 ≤ d.length ∧ 9 + 1 + 3 * (d.getD 9 0).toNat ≤ d.length)) :=
  ⟨withIn_inputIs, by decide, by decide, by decide, by decide⟩

theorem test_witness_GbmodeCopiesTheSixteenFields :
    (let s := withIn (List.replicate 16 7);
      16 ≤ s.ilen.toNat ∧ s.ilen.toNat ≤ 65539 ∧ Holds s.mem.ibuf 0 (List.replicate 16 7)) ∧
    (withIn (List.replicate 15 7)).ilen.toNat < 16 := by decide

theorem test_witness_BitsPerPixelIsCeilingOfLog :
    (1 ≤ 1 ∧ 1 ≤ 256) ∧ (1 ≤ 256 ∧ 256 ≤ 256) ∧ bpp 1 = 1 ∧ bpp 256 = 8 := by decide

theorem test_witness_ExtractionListsColoursFirstSeen : [(0x000007 : Colour)] ≠ [] := by decide

/-- A short last group and a whole one. -/
theorem test_witness_PackedByteIsReversedGroup :
    8 * 0 < [true].length ∧ 8 * 1 < (List.replicate 16 true).length ∧
    (((List.replicate 16 true).drop (8 * 1)).take 8).length = 8 := by decide

/-- One pixel and a full grid. -/
theorem test_witness_PencEncodesThePixels :
    (let s := withPixels [0x000007] [];
      s.npix.toNat = 1 ∧ Holds s.mem.pix 0 [0x000007]) ∧
    (let s := withPixels (List.replicate 256 0xFF0000) [];
      s.npix.toNat = 256 ∧
      Holds s.mem.pix 0 (List.replicate 256 0xFF0000)) :=
  ⟨⟨rfl, (withPixels_holds _ _).1⟩, withPixels_npix _ _ (by omega), (withPixels_holds _ _).1⟩

theorem test_witness_EmptyInputFailsFast : (withPixels [] []).npix = 0 := by decide

/-- The lengths just outside the legal ones, for PENC, IMGBUILD and PDEC. -/
theorem test_witness_lengths_of_the_pixel_codec :
    256 < (State.npix { State.reset with npix := 257 }).toNat ∧ (withPixels [] []).npix = 0 ∧
    65539 < (State.ilen { State.reset with ilen := 65540 }).toNat ∧
    256 < (State.plen { withIn [] with plen := 257 }).toNat ∧
    (withIn []).ilen.toNat ≤ 65539 ∧ (withIn []).plen = 0 := by decide

theorem test_witness_ImgbuildFramesWhatPencEncodes :
    (let s := withPixels [0x000007] (List.replicate 11 0x44);
      s.npix.toNat = 1 ∧ Holds s.mem.pix 0 [0x000007] ∧ (List.replicate 11 (0x44 : Byte)).length = 11 ∧
      Holds s.mem.hdr 0 (List.replicate 11 0x44)) ∧
    (let s := withPixels (List.replicate 256 0xFF0000) (List.replicate 11 0x44);
      s.npix.toNat = 256 ∧ Holds s.mem.pix 0 (List.replicate 256 0xFF0000)) :=
  ⟨⟨rfl, (withPixels_holds _ _).1, rfl, (withPixels_holds _ _).2⟩,
    withPixels_npix _ _ (by omega), (withPixels_holds _ _).1⟩

/-- One colour and no byte; 256 colours and the longest input. -/
theorem test_witness_PdecDecodesTheStream :
    (let s := withPalette [0xABCDEF] [];
      InputIs s [] ∧ s.plen.toNat = 1 ∧ Holds s.mem.pal 0 [0xABCDEF]) ∧
    (let s := withPalette (List.replicate 256 0) (List.replicate 65539 0);
      InputIs s (List.replicate 65539 0) ∧ s.plen.toNat = 256 ∧ Holds s.mem.pal 0 (List.replicate 256 0)) :=
  ⟨⟨withPalette_inputIs _ _ (by simp), rfl, holds_ofList _ _⟩,
    withPalette_inputIs _ _ (replicate_le _ (by omega)),
    congrArg (fun n => (BitVec.ofNat 32 n).toNat) (List.length_replicate (n := 256) (a := (0 : Colour))),
    holds_ofList _ _⟩

/-- V69 and V88. -/
theorem test_witness_ImageRoundTrip :
    (let s := withPixels [0xAA0000, 0x00BB00, 0xAA0000] [];
      s.npix.toNat = 3 ∧ Holds s.mem.pix 0 [0xAA0000, 0x00BB00, 0xAA0000]) ∧
    (∃ t, exec .penc (withPixels [0xAA0000, 0x00BB00, 0xAA0000] []) = .next t ∧
      OutputIs t [0x02, 0xAA, 0x00, 0x00, 0x00, 0xBB, 0x00, 0x02] ∧
      InputIs (withPalette [0xAA0000, 0x00BB00] [0x02])
        (([0x02, 0xAA, 0x00, 0x00, 0x00, 0xBB, 0x00, 0x02] : List Byte).drop t.soff.toNat) ∧
      (withPalette [0xAA0000, 0x00BB00] [0x02]).plen = t.plen ∧
      (withPalette [0xAA0000, 0x00BB00] [0x02]).mem.pal = t.mem.pal) :=
  ⟨⟨rfl, (withPixels_holds _ _).1⟩, _, rfl, ⟨rfl, by decide⟩, withPalette_inputIs _ _ (by simp), rfl, rfl⟩

/-- The 256 colours `0` to `255`. -/
def manyColours : List Colour := (List.range 256).map (BitVec.ofNat 24)

/-- PENC answers a next state with a byte string that fits behind ten header bytes. -/
theorem penc_output {s : State} {cs : List Colour} (h1 : s.npix.toNat = 256) (h2 : 256 ≤ cs.length)
    (h3 : cs.length ≤ 256) (h4 : Holds s.mem.pix 0 cs) :
    ∃ t out, exec .penc s = .next t ∧ OutputIs t out ∧
      InputIs (withIn (List.replicate 10 0 ++ out)) (List.replicate 10 0 ++ out) := by
  have he := encodePixels_ok (by omega) (by omega) h3 h4
  obtain ⟨-, h5, -, h6, -⟩ := extract_spec (cs := cs) (by omega)
  have hb : cs.length * bpp (extract cs).1.length ≤ 256 * 8 := Nat.mul_le_mul h3 (bpp_le _)
  generalize hE : Encoded.mk _ _ _ = e at he
  have hl : e.bytes.length ≤ 1025 := by
    subst hE
    simp only [Encoded.bytes, paletteTable, List.length_append, List.length_cons, flatten_rgb_length,
      packBits_length, indexBits_length, h6]
    omega
  have hx : exec .penc s = .next (complete (commitEncoded e s)) := by
    show finish s (encodePixels s) commitEncoded havocEncoded = _
    rw [he]; rfl
  refine ⟨_, e.bytes, hx, ⟨?_, holds_setOutput _ _⟩, withIn_inputIs _ ?_⟩
  · simp [commitEncoded]; omega
  · rw [List.length_append, List.length_replicate]; omega

/-- V67: 256 distinct colours. -/
theorem test_witness_PaletteOf256DoesNotSurviveTheWire :
    (withPixels manyColours []).npix.toNat = 256 ∧ manyColours.length = 256 ∧ manyColours.Nodup ∧
    Holds (withPixels manyColours []).mem.pix 0 manyColours ∧
    ∃ t out, exec .penc (withPixels manyColours []) = .next t ∧ OutputIs t out ∧
      InputIs (withIn (List.replicate 10 0 ++ out)) (List.replicate 10 0 ++ out) := by
  have hl : manyColours.length = 256 := by simp [manyColours]
  have hn : (withPixels manyColours []).npix.toNat = 256 := by simp [withPixels, hl]
  refine ⟨hn, hl, ?_, (withPixels_holds _ _).1, ?_⟩
  · refine (List.nodup_map_iff_inj_on List.nodup_range).2 fun x hx y hy h => ?_
    have := congrArg BitVec.toNat h
    simp at hx hy this
    omega
  · exact penc_output hn (by omega) (by omega) (withPixels_holds _ _).1

end Sys2Proof.Tests
end

section
/-! Where an error, or ISVALID, leaves a space unspecified, every cell of it holds a value: first what each
unspecified space holds, then the operations, each a completion step (`finish`) over those. -/

namespace Sys2Proof.Machine

/-- Every cell of space `sp` holds a value. -/
def SpaceWritten (sp : Space) (s : State) : Prop := ∀ k, k < Config.cells sp → s.peek (.cell sp k) ≠ none

/-- A step that changes no cell of a space leaves it wholly written. -/
theorem SpaceWritten.of_unchanged {sp : Space} {regs : List Reg} {spaces : List Space} {s t : State}
    (h : SpaceWritten sp s) (hu : Unchanged (locs regs spaces) s t) (hsp : sp ∉ spaces) : SpaceWritten sp t := by
  obtain ⟨hpeek, -⟩ := hu
  intro k hk
  rw [hpeek (.cell sp k) hsp]
  exact h k hk

/-! ### The spaces left unspecified -/

theorem havocObuf_obufWritten (s : State) : SpaceWritten .obuf (havocObuf s) := by
  intro k hk
  have hk' : k < Config.bufCap := hk
  simp [State.peek, readCell, obufByte_havocObuf, hk']

theorem havocPalette_palWritten (s : State) : SpaceWritten .pal (havocPalette s) := by
  intro k hk
  simp [State.peek, readCell, read_unspecified, hk]

theorem havocGrid_pixWritten (s : State) : SpaceWritten .pix (havocGrid s) := by
  intro k hk
  simp [State.peek, readCell, read_unspecified, hk]

theorem havocGbm_gbmWritten (s : State) : SpaceWritten .gbm (havocGbm s) := by
  intro k hk
  simp [State.peek, readCell, read_unspecified, hk]

/-- `PAL`, then `OBUF`, left unspecified: the second leaves the first alone. -/
theorem havocObuf_havocPalette_written (s : State) :
    ∀ sp ∈ [Space.pal, .obuf], SpaceWritten sp (havocObuf (havocPalette s)) :=
  List.forall_mem_cons.2
    ⟨(havocPalette_palWritten s).of_unchanged (havocObuf_unchanged _) (by decide),
      List.forall_mem_singleton.2 (havocObuf_obufWritten _)⟩

theorem havocDecoded_pixWritten (s : State) : SpaceWritten .pix (havocDecoded s) :=
  (havocGrid_pixWritten _).of_unchanged (staleOutput_unchanged _) (by decide)

theorem havocBoxMode_gbmWritten (s : State) : SpaceWritten .gbm (havocBoxMode s) :=
  (havocGbm_gbmWritten s).of_unchanged (staleOutput_unchanged _) (by decide)

/-- ISVALID leaves `OBUF` unspecified whatever its verdict (41_framer.md R107). -/
theorem commitValid_obufWritten (v : Bool) (s : State) : SpaceWritten .obuf (commitValid v s) :=
  havocObuf_obufWritten (havocRcmd (havocRsize s))

/-! ### Completion steps -/

/-- Ending a completion step without an error leaves a wholly written space so. -/
theorem SpaceWritten.complete {sp : Space} {s : State} (h : SpaceWritten sp s) :
    SpaceWritten sp (complete s) :=
  h.of_unchanged (complete_unchanged s) List.not_mem_nil

/-- Raising an error leaves a wholly written space so. -/
theorem SpaceWritten.raiseError {sp : Space} {s : State} (h : SpaceWritten sp s) (e : ErrorName) (n : Nat) :
    SpaceWritten sp (raiseError e { s with free := n }) :=
  (h.of_unchanged (useFree_unchanged s n) List.not_mem_nil).of_unchanged (raiseError_unchanged e _)
    List.not_mem_nil

/-- A completion step that raises an error leaves wholly written every space its `havoc` does. -/
theorem finish_error_written {α : Type} {sps : List Space} {s t : State} {r : Result α}
    {commit : α → State → State} {havoc : State → State} (h : finish s r commit havoc = .next t)
    (he : t.err = true) (hh : ∀ sp ∈ sps, SpaceWritten sp (havoc s)) : ∀ sp ∈ sps, SpaceWritten sp t := by
  rcases finish_eq_next.1 h with ⟨a, -, rfl⟩ | ⟨e, -, rfl⟩
  · simp at he
  · exact fun sp hsp => (hh sp hsp).raiseError e _

/-- BUILD.N as a completion step (41_framer.md R101). -/
theorem exec_buildN_eq_finish (s : State) :
    exec .buildN s = finish s (buildFrame s.cmdid 0 (.ok [])) commitBuilt havocBuilt := rfl

/-- BUILD.I as a completion step (41_framer.md R102). -/
theorem exec_buildI_eq_finish (s : State) :
    exec .buildI s = finish s (buildFrame s.cmdid 1 (.ok [s.imm])) commitBuilt havocBuilt := rfl

/-- R7, R163: after an error every cell of the operation's output spaces holds a value. -/
theorem exec_error_written {i : Instr} {s t : State} (h : exec i s = .next t) (he : t.err = true) :
    ∀ sp ∈ outputSpaces i, SpaceWritten sp t := by
  cases i with
  | nop | csum | csval | clear => exact List.forall_mem_nil _
  | buildN =>
    rw [exec_buildN_eq_finish] at h
    exact finish_error_written h he (List.forall_mem_singleton.2 (havocObuf_obufWritten _))
  | buildI =>
    rw [exec_buildI_eq_finish] at h
    exact finish_error_written h he (List.forall_mem_singleton.2 (havocObuf_obufWritten _))
  | buildB | parse | parser | isvalid =>
    exact finish_error_written h he (List.forall_mem_singleton.2 (havocObuf_obufWritten _))
  | penc | imgbuild | psplitS | psplitM =>
    exact finish_error_written h he (havocObuf_havocPalette_written _)
  | pdec => exact finish_error_written h he (List.forall_mem_singleton.2 (havocDecoded_pixWritten s))
  | gbmode => exact finish_error_written h he (List.forall_mem_singleton.2 (havocBoxMode_gbmWritten s))

/-- R107: after ISVALID, with an error or without one, every byte of `OBUF` holds a value. -/
theorem exec_isvalid_obufWritten {s t : State} (h : exec .isvalid s = .next t) : SpaceWritten .obuf t := by
  rcases finish_eq_next.1 h with ⟨v, -, rfl⟩ | ⟨e, -, rfl⟩
  · exact (commitValid_obufWritten v s).complete
  · exact SpaceWritten.raiseError (havocObuf_obufWritten _) e _

/-- Settles O31: after an error by the operation's `havoc`, after ISVALID by `OBUF` in both of its outcomes. -/
theorem unspecifiedCellsHoldAValue : Obligations.UnspecifiedCellsHoldAValue := by
  intro i s t sp k h hor hsp hk
  rcases hor with he | rfl
  · exact exec_error_written h he sp hsp k hk
  · obtain rfl : sp = .obuf := List.mem_singleton.1 hsp
    exact exec_isvalid_obufWritten h k hk

end Sys2Proof.Machine
end

section
/-! The register window reaches every location (20_memory.md R43, R44), and what a host write leaves in each. -/

namespace Sys2Proof

/-- The cells of each space as numbers (00_scope.md R5, 20_memory.md R40). -/
theorem Config.cells_eq (sp : Space) : Config.cells sp =
    match sp with
    | .ibuf => 65539
    | .obuf => 65539
    | .hdr => 11
    | .gbm => 16
    | .pal => 256
    | .pix => 256 := by
  cases sp <;> rfl

/-- The offset of a cell of `sp` lies in `sp` and in no other space (20_memory.md R43). -/
theorem Space.contains_offset {sp : Space} {i : Nat} (h : i < Config.cells sp) (sp' : Space) :
    sp'.contains (Loc.cell sp i).offset = decide (sp' = sp) := by
  rw [Bool.eq_iff_iff, Space.contains_iff, decide_eq_true_iff]
  rw [Config.cells_eq] at h ⊢
  cases sp <;> cases sp' <;> simp only [Loc.offset, Space.base, Space.unit, reduceCtorEq, iff_true, iff_false] at h ⊢ <;> omega

/-- The spaces begin behind the registers. -/
theorem Space.base_ge (sp : Space) : 0x80 ≤ sp.base := by cases sp <;> decide

theorem Space.unit_pos (sp : Space) : 0 < sp.unit := by cases sp <;> decide

/-- The address decoder finds each cell at its offset (20_memory.md R43). -/
theorem locate_cell {sp : Space} {i : Nat} (h : i < Config.cells sp) :
    locate (Loc.cell sp i).offset = .cell sp i := by
  have hbase : ¬ (Loc.cell sp i).offset < 0x80 := by
    have := sp.base_ge
    simp only [Loc.offset]
    omega
  have hfind : [Space.hdr, .gbm, .pal, .pix, .ibuf, .obuf].find? (fun sp' => decide (sp' = sp)) = some sp := by
    cases sp <;> rfl
  have hindex : ((Loc.cell sp i).offset - sp.base) / sp.unit = i := by
    rw [Loc.offset, Nat.add_sub_cancel_left, Nat.mul_div_cancel_left _ sp.unit_pos]
  simp only [locate, if_neg hbase, Space.contains_offset h, hfind, hindex]

/-- A write of a cell's width at its offset reaches that cell (20_memory.md R43, R44). -/
theorem decodeAccess_writeCell {sp : Space} {i : Nat} (h : i < Config.cells sp) (d : Datum) :
    decodeAccess (.write sp.unit (Loc.cell sp i).offset d) = .ok (.cell sp i) := by
  have hwf : (Access.write sp.unit (Loc.cell sp i).offset d).insideWindow = true ∧
      (Access.write sp.unit (Loc.cell sp i).offset d).sizeOk = true ∧
      (Access.write sp.unit (Loc.cell sp i).offset d).aligned = true := by
    rw [Config.cells_eq] at h
    cases sp <;>
      simp [Access.insideWindow, Access.sizeOk, Access.aligned, Access.size, Access.offset, Loc.offset,
        Space.base, Space.unit, Config.windowBytes] at h ⊢ <;> omega
  obtain ⟨hwindow, hsize, haligned⟩ := hwf
  simp only [decodeAccess, hwindow, hsize, haligned]
  rw [show (Access.write sp.unit (Loc.cell sp i).offset d).offset = (Loc.cell sp i).offset from rfl,
    locate_cell h]
  simp [Loc.unit, Access.size]

end Sys2Proof

namespace Sys2Proof.Machine

/-- The host's write to a register or to a cell of a space reaches it (20_memory.md R43). -/
theorem decodeAccess_write {l : Loc} (hcell : ∀ sp i, l = .cell sp i → i < Config.cells sp)
    (hres : ∀ o, l ≠ .reserved o) (d : Datum) :
    decodeAccess (.write (l.unit.getD 4) l.offset d) = .ok l := by
  cases l with
  | reg r => exact decodeAccess_writeReg r d
  | cell sp i => exact decodeAccess_writeCell (hcell sp i rfl) d
  | reserved o => exact absurd rfl (hres o)

@[simp] theorem datumValue_takeMove (s : State) (d : Datum) : datumValue (takeMove s) d = datumValue s d := by
  cases d <;> rfl

/-- A host write in phase IDLE is one step, and does what `hostWrite` says (20_memory.md R45). -/
theorem step_write {s : State} {l : Loc} {d : Datum} {ms : List Move} (hp : s.phase = .idle)
    (hm : s.moves = writeMove l d :: ms) (hcell : ∀ sp i, l = .cell sp i → i < Config.cells sp)
    (hres : ∀ o, l ≠ .reserved o) :
    step s = .next (hostWrite l (datumValue s d) (takeMove s)) := by
  rw [step_host (.inl hp) hm]
  simp only [writeMove, hostMove, hp, idleAccess, decodeAccess_write hcell hres, datumValue_takeMove]

/-! ### What a host write changes -/

/-- Keeping the low `n` bits of a word and widening again is the remainder modulo `2 ^ n`. -/
theorem setWidth_setWidth_word (v : Word) {n : Nat} (hn : n ≤ 32) :
    (v.setWidth n).setWidth 32 = BitVec.ofNat 32 (v.toNat % 2 ^ n) := by
  apply BitVec.eq_of_toNat_eq
  rw [BitVec.toNat_setWidth_of_le hn, BitVec.toNat_setWidth, BitVec.toNat_ofNat,
    Nat.mod_eq_of_lt (lt_of_le_of_lt (Nat.mod_le _ _) v.isLt)]

theorem writeReg_peek_of_ne {s : State} {r : Reg} {v : Word} {l : Loc} (h : l ≠ .reg r) :
    (writeReg s r v).peek l = s.peek l := by
  cases l with
  | reg r' => cases r <;> first | rfl | (cases r' <;> first | rfl | exact absurd rfl h)
  | cell sp i => cases r <;> rfl
  | reserved o => rfl

theorem writeCell_peek_of_ne {s : State} {sp : Space} {i : Nat} {v : Word} {l : Loc} (h : l ≠ .cell sp i) :
    (writeCell s sp i v).peek l = s.peek l := by
  cases l with
  | reg r => cases sp <;> cases r <;> rfl
  | cell sp' j =>
    by_cases hsp : sp' = sp
    · subst hsp
      have hij : j ≠ i := fun hij => h (by rw [hij])
      cases sp' <;> simp [State.peek, readCell, writeCell, read_write, hij]
    · cases sp <;> cases sp' <;> first | rfl | exact absurd rfl hsp
  | reserved o => rfl

/-- A host write to anything but `CTRL` changes at most the location it names (20_memory.md R45). -/
theorem hostWrite_peek_of_ne {s : State} {l l' : Loc} {v : Word} (hctrl : l ≠ .reg .ctrl) (h : l' ≠ l) :
    (hostWrite l v s).peek l' = s.peek l' := by
  cases l with
  | reg r =>
    cases r <;> first | exact absurd rfl hctrl | exact writeReg_peek_of_ne h
  | cell sp i => exact writeCell_peek_of_ne h
  | reserved o => rfl

/-- A host write to anything but `CTRL` leaves the phase and the host's moves alone. -/
theorem hostWrite_phase_moves {s : State} {l : Loc} {v : Word} (hctrl : l ≠ .reg .ctrl) :
    (hostWrite l v s).phase = s.phase ∧ (hostWrite l v s).moves = s.moves := by
  cases l with
  | reg r => cases r <;> first | exact absurd rfl hctrl | exact ⟨rfl, rfl⟩
  | cell sp i => cases sp <;> exact ⟨rfl, rfl⟩
  | reserved o => exact ⟨rfl, rfl⟩

/-- A written cell of a space the host may write holds the value cut to its stored bits. -/
theorem writeCell_peek_self (s : State) (i : Nat) (v : Word) :
    (∀ sp, sp = .ibuf ∨ sp = .hdr →
      (writeCell s sp i v).peek (.cell sp i) = some (BitVec.ofNat 32 (v.toNat % 256))) ∧
    ∀ sp, sp = .pal ∨ sp = .pix →
      (writeCell s sp i v).peek (.cell sp i) = some (BitVec.ofNat 32 (v.toNat % 2 ^ 24)) := by
  have h8 : (v.setWidth 8).setWidth 32 = BitVec.ofNat 32 (v.toNat % 256) := setWidth_setWidth_word v (by omega)
  have h24 := setWidth_setWidth_word v (n := 24) (by omega)
  constructor <;> rintro sp (rfl | rfl) <;>
    simp only [State.peek, readCell, writeCell, read_write, if_true, Option.map_some, h8, h24]

/-- Settles O17: the write is `hostWrite`, whose frame and value are read off per kind of location. -/
theorem hostWriteStoresTheStoredBits : Obligations.HostWriteStoresTheStoredBits := by
  intro s l d ms hctrl hcell hres hp hm v
  obtain ⟨hphase, hmoves⟩ := hostWrite_phase_moves (s := takeMove s) (v := v) hctrl
  refine ⟨_, step_write hp hm hcell hres, hphase.trans hp, hmoves.trans (by rw [takeMove_moves, hm]; rfl),
    fun l' hl' => ?_, fun hl => ?_, ?_, fun hl => ?_, fun i hl => ?_, fun i hl => ?_, fun i hl => ?_,
    fun hl => ?_⟩
  · rw [hostWrite_peek_of_ne hctrl hl', takeMove_peek]
  · simp only [List.mem_cons, List.not_mem_nil, or_false] at hl
    rcases hl with rfl | rfl <;> exact congrArg some (setWidth_setWidth_word v (n := 8) (by omega))
  · rintro rfl
    exact congrArg some (setWidth_setWidth_word v (n := 16) (by omega))
  · simp only [List.mem_cons, List.not_mem_nil, or_false] at hl
    rcases hl with rfl | rfl | rfl | rfl | rfl <;> rfl
  · rcases hl with rfl | rfl
    · exact (writeCell_peek_self _ i v).1 _ (.inl rfl)
    · exact (writeCell_peek_self _ i v).1 _ (.inr rfl)
  · rcases hl with rfl | rfl
    · exact (writeCell_peek_self _ i v).2 _ (.inl rfl)
    · exact (writeCell_peek_self _ i v).2 _ (.inr rfl)
  · rcases hl with rfl | rfl <;> rfl
  · simp only [List.mem_cons, List.not_mem_nil, or_false] at hl
    rcases hl with rfl | rfl | rfl | rfl | rfl | rfl | rfl | rfl | rfl | rfl <;> rfl

/-! ### The start step and the latch -/

/-- Settles O6: the write is the start step. -/
theorem ctrlWriteInIdleStartsTheOperation : Obligations.CtrlWriteInIdleStartsTheOperation := by
  intro s d ms hp hm
  refine ⟨_, step_ctrl_write hp hm, rfl, rfl, rfl, rfl, rfl, rfl, ?_, rfl, fun l hl => ?_⟩
  · rw [startStep_moves, takeMove_moves, hm]; rfl
  · rw [startStep_peek hl, takeMove_peek]

/-- In phase BUSY a write to `CTRL` or to `STATUS` is a move that changes nothing (10_state.md R12, 20_memory.md
R47; log entry 10). -/
theorem busyAccess_write {size offset : Nat} {d : Datum} {l : Loc} {s : State}
    (hd : decodeAccess (.write size offset d) = .ok l) (hl : l = .reg .ctrl ∨ l = .reg .status) :
    busyAccess (.write size offset d) s = .next s := by
  simp only [busyAccess, hd, if_pos hl]

/-- In phase BUSY a read of `CTRL` or of `STATUS` is a host read (20_memory.md R47). -/
theorem busyAccess_read {size offset : Nat} {l : Loc} {s : State}
    (hd : decodeAccess (.read size offset) = .ok l) (hl : l = .reg .ctrl ∨ l = .reg .status) :
    busyAccess (.read size offset) s = .next (hostRead size l s) := by
  simp only [busyAccess, hd, if_pos hl]

/-- Before the completion step is due, an access in phase BUSY is the step. -/
theorem step_access_busy {s : State} {a : Access} {ms : List Move} (hp : s.phase = .busy) (hb : s.busyFor ≠ 0)
    (hm : s.moves = .access a :: ms) : step s = busyAccess a (takeMove s) := by
  rw [step_host (.inr hb) hm]
  simp only [hostMove, hp]

/-- Settles O7: the write is dropped once its move is taken off the list. -/
theorem ctrlWriteInBusyIsDropped : Obligations.CtrlWriteInBusyIsDropped := by
  intro s d ms n hp hb hm
  rw [step_access_busy hp (by omega) hm, takeMove, hm, hb]
  exact busyAccess_write (decodeAccess_writeReg .ctrl d) (.inl rfl)

/-- Settles O4. -/
theorem completionStepRunsTheLatchedOperation : Obligations.CompletionStepRunsTheLatchedOperation := by
  intro s i hp hdue hd
  rw [step_completion hp hdue, completionStep, hd]

end Sys2Proof.Machine
end

section
/-! The reset state and the stored bits of each location (10_state.md R14, R16, R31), and phase BUSY up to its
completion step (10_state.md R12, 70_reset_and_hazards.md R203). -/

namespace Sys2Proof.Machine

/-! ### Reset and stored bits -/

/-- Settles O1: register by register, and no space lists a cell. -/
theorem resetLeavesTheStatedValues : Obligations.ResetLeavesTheStatedValues := by
  refine ⟨rfl, fun r => ?_, fun sp i => ?_⟩
  · cases r <;> rfl
  · cases sp <;> rfl

/-- In the reset state no flag is set and the result is empty. -/
theorem reset_inv : State.reset.Inv :=
  ⟨wf_unwritten, by simp [StatusLegal, State.reset], by simp [ResultWritten, State.reset]⟩

/-- Settles O2. -/
theorem resetMeetsTheInvariant : Obligations.ResetMeetsTheInvariant := reset_inv

/-- A written cell of a space, as the host sees it, is the number stored in it. -/
theorem map_setWidth_toNat {w : Nat} (hw : w ≤ 32) {m : Cells w} {k : Nat} {v : BitVec w}
    (h : Cells.read m k = some v) :
    ∃ x, (Cells.read m k).map (BitVec.setWidth 32) = some x ∧ x.toNat = v.toNat :=
  ⟨v.setWidth 32, by rw [h]; rfl, BitVec.toNat_setWidth_of_le hw⟩

/-- Settles O14: each register and each written cell is its stored bits zero-extended, and `STATUS` is
`statusWord`. -/
theorem locationsHoldTheirStoredBits : Obligations.LocationsHoldTheirStoredBits := by
  intro s
  refine ⟨rfl, ⟨statusOf s, rfl, ?_, ?_, ?_, ?_, fun k hk => ?_⟩, ?_, ?_, ?_⟩
  · rw [statusOf, statusWord_getLsbD]
    cases s.phase <;> rfl
  · exact statusWord_getLsbD _ _ _ _ 1
  · exact statusWord_getLsbD _ _ _ _ 2
  · exact statusWord_getLsbD _ _ _ _ 3
  · obtain ⟨j, rfl⟩ := Nat.exists_eq_add_of_le' hk
    exact statusWord_getLsbD _ _ _ _ (j + 4)
  · have h8 : 8 ≤ 32 := by omega
    have h16 : 16 ≤ 32 := by omega
    simp only [List.forall_mem_cons]
    exact ⟨⟨_, rfl, BitVec.toNat_setWidth_of_le h8⟩, ⟨_, rfl, BitVec.toNat_setWidth_of_le h8⟩,
      ⟨_, rfl, BitVec.toNat_setWidth_of_le h8⟩, ⟨_, rfl, rfl⟩, ⟨_, rfl, rfl⟩, ⟨_, rfl, rfl⟩, ⟨_, rfl, rfl⟩,
      ⟨_, rfl, BitVec.toNat_setWidth_of_le h16⟩, ⟨_, rfl, BitVec.toNat_setWidth_of_le h16⟩,
      ⟨_, rfl, BitVec.toNat_setWidth_of_le h8⟩, ⟨_, rfl, BitVec.toNat_setWidth_of_le h16⟩, ⟨_, rfl, rfl⟩,
      ⟨_, rfl, rfl⟩, ⟨_, rfl, BitVec.toNat_setWidth_of_le (by omega)⟩, ⟨_, rfl, rfl⟩, ⟨_, rfl, rfl⟩,
      ⟨_, rfl, rfl⟩, List.forall_mem_nil _⟩
  · have h8 : 8 ≤ 32 := by omega
    simp only [List.forall_mem_cons]
    refine ⟨fun _ _ h => map_setWidth_toNat h8 h, fun k v h => ?_, fun _ _ h => map_setWidth_toNat h8 h,
      fun _ _ h => map_setWidth_toNat h8 h, List.forall_mem_nil _⟩
    exact ⟨v.setWidth 32, congrArg (Option.map _) (obufByte_of_read h), BitVec.toNat_setWidth_of_le h8⟩
  · have h24 : 24 ≤ 32 := by omega
    simp only [List.forall_mem_cons]
    exact ⟨fun _ _ h => map_setWidth_toNat h24 h, fun _ _ h => map_setWidth_toNat h24 h, List.forall_mem_nil _⟩

/-! ### Decoding the latched word -/

/-- The fields of a command word make up the word (30_encoding.md R72). -/
theorem toWord_ofWord (w : Word) : (CommandWord.ofWord w).toWord = w := by
  apply BitVec.eq_of_toNat_eq
  simp only [CommandWord.toWord, CommandWord.ofWord, BitVec.toNat_append, BitVec.extractLsb'_toNat,
    Nat.shiftRight_zero]
  rw [← Nat.shiftLeft_add_eq_or_of_lt (Nat.mod_lt _ (by omega)), Nat.shiftLeft_eq, Nat.shiftRight_eq_div_pow]
  have := w.isLt
  omega

/-- The opcode map has each operation at its opcode (30_encoding.md R73). -/
theorem op_of_lookup {op : Byte} {i : Instr} (h : opcodeMap.lookup op = some i) : op = opcode i := by
  have hmem : (op, i) ∈ opcodeMap := by
    obtain ⟨l₁, l₂, heq, -⟩ := List.lookup_eq_some_iff.1 h
    rw [heq]
    simp
  have hmap : ∀ p ∈ opcodeMap, p.1 = opcode p.2 := by decide
  exact hmap (op, i) hmem

/-- A word that decodes to an operation is that operation's word (30_encoding.md R73). -/
theorem eq_encode_of_decode {w : Word} {i : Instr} (h : decode w = .ok i) : w = encode i := by
  unfold decode at h
  dsimp only at h
  split at h
  · cases h
  · next hupper =>
    split at h
    · next j hlookup =>
      cases h
      rw [← toWord_ofWord w, encode, ← op_of_lookup hlookup, ← not_ne_iff.1 hupper]
    · cases h

/-- A word that is no operation's word does not decode (30_encoding.md R73, R74). -/
theorem decode_error_of_ne_encode {w : Word} (h : ∀ i, encode i ≠ w) : ∃ e, decode w = .error e := by
  cases hd : decode w with
  | error e => exact ⟨e, rfl⟩
  | ok i => exact absurd (eq_encode_of_decode hd).symm (h i)

/-- The word of an operation decodes to it (30_encoding.md R73). -/
theorem decode_encode (i : Instr) : decode (encode i) = .ok i := by cases i <;> decide

/-! ### Phase BUSY -/

/-- `t` is `s` later in phase BUSY: only the host's moves, what it has read and the time to completion differ. -/
def BusyLater (s t : State) : Prop := ∃ ms v b, t = { s with moves := ms, rdata := v, busyFor := b }

theorem BusyLater.refl (s : State) : BusyLater s s := ⟨s.moves, s.rdata, s.busyFor, rfl⟩

theorem BusyLater.trans {s t u : State} (h : BusyLater s t) (h' : BusyLater t u) : BusyLater s u := by
  obtain ⟨_, _, _, rfl⟩ := h
  obtain ⟨ms, v, b, rfl⟩ := h'
  exact ⟨ms, v, b, rfl⟩

/-- Later in phase BUSY every location holds what it held. -/
theorem BusyLater.peek {s t : State} (h : BusyLater s t) (l : Loc) : t.peek l = s.peek l := by
  obtain ⟨_, _, _, rfl⟩ := h
  cases l with
  | reg r => cases r <;> rfl
  | cell sp i => cases sp <;> rfl
  | reserved o => rfl

/-- A host read of a register uses up no open event. -/
theorem hostRead_reg_busyLater (n : Nat) (r : Reg) (s : State) : BusyLater s (hostRead n (.reg r) s) :=
  ⟨s.moves, readReg s r, s.busyFor, rfl⟩

/-- An access that phase BUSY allows is one step: the move is taken and nothing of DPF changes. -/
theorem step_allowed_access {s : State} {a : Access} {ms : List Move} (hp : s.phase = .busy)
    (hb : s.busyFor ≠ 0) (hm : s.moves = .access a :: ms) (ha : AllowedInBusy (.access a)) :
    ∃ t, step s = .next t ∧ BusyLater s t ∧ t.moves = ms ∧ t.busyFor = s.busyFor - 1 := by
  obtain ⟨l, hd, hl⟩ := ha
  have htake : BusyLater s (takeMove s) := ⟨_, s.rdata, _, rfl⟩
  have htail : (takeMove s).moves = ms := by rw [takeMove_moves, hm]; rfl
  rw [step_access_busy hp hb hm]
  cases a with
  | write size offset d => exact ⟨_, busyAccess_write hd hl, htake, htail, rfl⟩
  | read size offset =>
    refine ⟨_, busyAccess_read hd hl, ?_, by rw [hostRead_moves, htail], by rw [hostRead_busyFor]; rfl⟩
    rcases hl with rfl | rfl <;> exact htake.trans (hostRead_reg_busyLater _ _ _)

/-- From `s` in phase BUSY the completion step comes to be due, with nothing of DPF changed and with no move from
`rest` on used up. -/
def ReachesCompletion (s : State) (early rest : List Move) : Prop :=
  ∃ k u left, RunsTo k s u ∧ BusyLater s u ∧ left <:+ early ∧ u.moves = left ++ rest ∧
    (u.moves = [] ∨ u.busyFor = 0)

/-- Where it is due it is reached. -/
theorem ReachesCompletion.now {s : State} {early rest : List Move} (hm : s.moves = early ++ rest)
    (hdue : s.moves = [] ∨ s.busyFor = 0) : ReachesCompletion s early rest :=
  ⟨0, s, early, runsTo_zero s, .refl s, List.suffix_refl _, hm, hdue⟩

/-- One step of phase BUSY before it is reached. -/
theorem ReachesCompletion.of_step {s t : State} {early left rest : List Move} (hstep : step s = .next t)
    (hlater : BusyLater s t) (hleft : left <:+ early) (h : ReachesCompletion t left rest) :
    ReachesCompletion s early rest := by
  obtain ⟨k, u, left', hrun, hu, hleft', hum, hdue⟩ := h
  exact ⟨k + 1, u, left', runsTo_succ.2 ⟨t, hstep, hrun⟩, hlater.trans hu, hleft'.trans hleft, hum, hdue⟩

/-- A poll in phase BUSY is one step that leaves the host's moves as they are. -/
theorem step_poll_busyLater {s : State} {ms : List Move} {n : Nat} (hp : s.phase = .busy)
    (hb : s.busyFor = n + 1) (hm : s.moves = .poll :: ms) :
    ∃ t, step s = .next t ∧ BusyLater s t ∧ t.moves = s.moves ∧ t.busyFor = n :=
  ⟨_, step_poll_busy hp hb hm, .trans ⟨s.moves, s.rdata, s.busyFor - 1, rfl⟩ (hostRead_reg_busyLater 4 .status _),
    by rw [hostRead_moves], by rw [hostRead_busyFor, hb]; rfl⟩

/-- Phase BUSY, with `n` moves to go before completion: while the host makes moves that BUSY allows, then polls or
does nothing, the completion step comes to be due (70_reset_and_hazards.md R193, R203, R204). -/
theorem busy_reaches_completion (n : Nat) {s : State} {early rest : List Move} (hp : s.phase = .busy)
    (hb : s.busyFor = n) (hm : s.moves = early ++ rest) (hearly : ∀ m ∈ early, AllowedInBusy m)
    (hrest : rest = [] ∨ rest.head? = some .poll) : ReachesCompletion s early rest := by
  induction n generalizing s early with
  | zero => exact .now hm (.inr hb)
  | succ n ih =>
    have hnext : ∀ t left, step s = .next t → BusyLater s t → t.moves = left ++ rest → t.busyFor = n →
        left <:+ early → ReachesCompletion s early rest := by
      intro t left hstep hlater htm htb hleft
      refine .of_step hstep hlater hleft (ih ?_ htb htm fun m h => hearly m (hleft.subset h))
      obtain ⟨_, _, _, rfl⟩ := hlater
      exact hp
    cases early with
    | nil =>
      cases rest with
      | nil => exact .now hm (.inl hm)
      | cons m ms =>
        obtain rfl : m = .poll := by simpa using hrest
        obtain ⟨t, hstep, hlater, htm, htb⟩ := step_poll_busyLater hp hb hm
        exact hnext t [] hstep hlater (htm.trans hm) htb (List.suffix_refl _)
    | cons m early =>
      have hallowed := hearly m List.mem_cons_self
      cases m with
      | poll =>
        obtain ⟨t, hstep, hlater, htm, htb⟩ := step_poll_busyLater hp hb hm
        exact hnext t (.poll :: early) hstep hlater (htm.trans hm) htb (List.suffix_refl _)
      | access a =>
        obtain ⟨t, hstep, hlater, htm, htb⟩ := step_allowed_access hp (by omega) hm hallowed
        exact hnext t early hstep hlater htm (by rw [htb, hb]; rfl) (List.suffix_cons _ _)
      | loop => exact hallowed.elim
      | reset => exact hallowed.elim

/-- The completion step of an illegal word raises IllegalOp (30_encoding.md R74). -/
theorem step_illegal {s : State} (hp : s.phase = .busy) (hdue : s.moves = [] ∨ s.busyFor = 0)
    (hw : ∀ i, encode i ≠ s.opLatch) : step s = .next (raiseIllegal s) := by
  obtain ⟨e, hd⟩ := decode_error_of_ne_encode hw
  rw [step_completion hp hdue, completionStep, hd]

/-- Raising an error leaves what `Failed` says (60_exceptions.md R163). -/
theorem raiseError_failed (e : ErrorName) (s : State) : Failed e (raiseError e s) := ⟨rfl, rfl, rfl, rfl, rfl, rfl⟩

/-- Settles O20: the start step, then phase BUSY by induction on its length. -/
theorem startedOperationReachesItsCompletion : Obligations.StartedOperationReachesItsCompletion := by
  intro s d early rest hp hm hearly hrest
  have hstart := step_ctrl_write hp hm
  have hm' : (startStep (datumValue s d) (takeMove s)).moves = early ++ rest := by
    rw [startStep_moves, takeMove_moves, hm]; rfl
  obtain ⟨k, u, left, hrun, hlater, hleft, hum, hdue⟩ :=
    busy_reaches_completion _ (startStep_phase _ _) rfl hm' hearly hrest
  have hpeek := hlater.peek
  obtain ⟨_, _, _, rfl⟩ := hlater
  refine ⟨k + 1, _, left, runsTo_succ.2 ⟨_, hstart, hrun⟩, hleft, hum, rfl, rfl, rfl, rfl, rfl, rfl,
    fun l hl => ?_, fun i hi => ?_, fun hw => ?_⟩
  · rw [hpeek, startStep_peek hl, takeMove_peek]
  · exact completionStepRunsTheLatchedOperation _ i rfl hdue
      (show decode (datumValue s d) = .ok i by rw [hi, decode_encode])
  · exact ⟨_, step_illegal rfl hdue hw, raiseError_failed _ _⟩

end Sys2Proof.Machine
end

section
/-! What every operation leaves unchanged (10_state.md R33): each is a completion step whose commit and whose
error stay inside its output set. -/

namespace Sys2Proof.Machine

/-- CSVAL of a legal range: the sum is committed, then compared (40_checksum.md R92). -/
theorem exec_csval_of_ok {s : State} {bytes : List Byte} (h : rangeBytes s = .ok bytes) :
    exec .csval s =
      finish (commitSum bytes s) (require (sum16 bytes = s.expect) .checksumMismatch) (fun _ t => t) id := by
  change execCsval s = _
  rw [execCsval, h]

/-- CSVAL where the range cannot be read (40_checksum.md R92). -/
theorem exec_csval_of_error {s : State} {e : Stop} (h : rangeBytes s = .error e) :
    exec .csval s = finish s (.error e : Result Unit) (fun _ t => t) havocChecked := by
  change execCsval s = _
  rw [execCsval, h]

/-- CSVAL ends in one of three ways: the sum matches, it does not, or the range is illegal (40_checksum.md R92). -/
theorem exec_csval_eq_next {s t : State} (h : exec .csval s = .next t) :
    (∃ bytes, t = complete (commitSum bytes s)) ∨
    (∃ bytes, t = raiseError .checksumMismatch { commitSum bytes s with free := s.free + 1 + 1 }) ∨
    ∃ e, t = raiseError e { havocChecked s with free := s.free + 1 } := by
  cases hr : rangeBytes s with
  | ok bytes =>
    rw [exec_csval_of_ok hr] at h
    rcases finish_eq_next.1 h with ⟨u, -, rfl⟩ | ⟨e, he, rfl⟩
    · exact .inl ⟨bytes, rfl⟩
    · obtain ⟨-, heq⟩ := require_eq_error.1 he
      cases heq
      exact .inr (.inl ⟨bytes, rfl⟩)
  | error e =>
    rw [exec_csval_of_error hr] at h
    rcases finish_eq_next.1 h with ⟨u, hu, -⟩ | ⟨e', -, rfl⟩
    · cases hu
    · exact .inr (.inr ⟨e', rfl⟩)

/-- Ending without an error stays inside the output set, if what was committed does. -/
theorem Unchanged.complete {regs : List Reg} {spaces : List Space} {s u : State}
    (h : Unchanged (locs regs spaces) s u) (hr : [Reg.status, .errcode] ⊆ regs) :
    Unchanged (locs regs spaces) s (complete u) :=
  h.trans ((complete_unchanged u).mono hr (List.nil_subset _))

/-- Raising an error stays inside the output set, if what it leaves unspecified does. -/
theorem Unchanged.raiseError {regs : List Reg} {spaces : List Space} {s u : State}
    (h : Unchanged (locs regs spaces) s u) (e : ErrorName) (n : Nat)
    (hr : [Reg.status, .errcode, .olen] ⊆ regs) :
    Unchanged (locs regs spaces) s (raiseError e { u with free := n }) :=
  h.trans (((useFree_unchanged u n).mono (List.nil_subset _) (List.nil_subset _)).trans
    ((raiseError_unchanged e _).mono hr (List.nil_subset _)))

/-- CLEAR changes the result registers alone (44_system.md R151). -/
theorem execClear_unchanged {s t : State} (h : execClear s = .next t) :
    Unchanged (locs (outputRegs .clear) []) s t := by
  cases h
  refine unchanged_of (fun r hr => ?_) (fun sp _ i => by cases sp <;> rfl) rfl rfl rfl
  cases r <;> first | exact absurd (by decide) hr | rfl

/-- R33: an operation changes nothing outside its output set, but for the bytes of `OBUF` that CSUM, CSVAL, PDEC
and GBMODE leave unspecified (log entry 9). -/
theorem exec_unchanged {i : Instr} {s t : State} (h : exec i s = .next t) : Unchanged (outputs i) s t := by
  cases i with
  | nop => cases h; exact complete_unchanged s
  | clear => exact execClear_unchanged h
  | csum =>
    exact finish_unchanged h (fun bytes => (commitSum_unchanged bytes s).mono (by decide) (by decide))
      ((havocChecked_unchanged s).mono (by decide) (by decide)) (by decide)
  | csval =>
    have hsum : ∀ bytes, Unchanged (outputs .csval) s (commitSum bytes s) :=
      fun bytes => (commitSum_unchanged bytes s).mono (by decide) (by decide)
    rcases exec_csval_eq_next h with ⟨bytes, rfl⟩ | ⟨bytes, rfl⟩ | ⟨e, rfl⟩
    · exact (hsum bytes).complete (by decide)
    · exact (hsum bytes).raiseError _ _ (by decide)
    · exact Unchanged.raiseError ((havocChecked_unchanged s).mono (by decide) (by decide)) e _ (by decide)
  | buildN =>
    rw [exec_buildN_eq_finish] at h
    exact finish_unchanged h (fun b => (commitBuilt_unchanged b s).mono (by decide) (by decide))
      ((havocBuilt_unchanged s).mono (by decide) (by decide)) (by decide)
  | buildI =>
    rw [exec_buildI_eq_finish] at h
    exact finish_unchanged h (fun b => (commitBuilt_unchanged b s).mono (by decide) (by decide))
      ((havocBuilt_unchanged s).mono (by decide) (by decide)) (by decide)
  | buildB =>
    exact finish_unchanged h (fun b => (commitBuilt_unchanged b s).mono (by decide) (by decide))
      ((havocBuilt_unchanged s).mono (by decide) (by decide)) (by decide)
  | parse | parser =>
    exact finish_unchanged h (fun p => (commitParsed_unchanged p s).mono (by decide) (by decide))
      ((havocParsed_unchanged s).mono (by decide) (by decide)) (by decide)
  | isvalid =>
    exact finish_unchanged h (fun v => (commitValid_unchanged v s).mono (by decide) (by decide))
      ((havocParsed_unchanged s).mono (by decide) (by decide)) (by decide)
  | penc =>
    exact finish_unchanged h (fun e => (commitEncoded_unchanged e s).mono (by decide) (by decide))
      ((havocEncoded_unchanged s).mono (by decide) (by decide)) (by decide)
  | imgbuild =>
    exact finish_unchanged h (fun f => (commitImage_unchanged f s).mono (by decide) (by decide))
      ((havocImage_unchanged s).mono (by decide) (by decide)) (by decide)
  | pdec =>
    exact finish_unchanged h (fun d => (commitDecoded_unchanged d s).mono (by decide) (by decide))
      ((havocDecoded_unchanged s).mono (by decide) (by decide)) (by decide)
  | psplitS | psplitM =>
    exact finish_unchanged h (fun p => (commitSplit_unchanged p s).mono (by decide) (by decide))
      ((havocSplit_unchanged s).mono (by decide) (by decide)) (by decide)
  | gbmode =>
    exact finish_unchanged h (fun f => (commitGbm_unchanged f s).mono (by decide) (by decide))
      ((havocBoxMode_unchanged s).mono (by decide) (by decide)) (by decide)

/-- No operation reads a cell of a space it may change: the spaces of its input set (10_state.md R33). -/
theorem space_not_output_of_inputCells {i : Instr} {s : State} {sp : Space} {k : Nat}
    (h : inputCells s i sp k) : sp ∉ outputSpaces i ++ staleSpaces i := by
  cases i with
  | nop | clear | buildN | buildI => cases sp <;> exact h.elim
  | csum | csval | buildB | parse | parser | isvalid | psplitS | psplitM | gbmode =>
    cases sp with
    | ibuf => decide
    | obuf | hdr | gbm | pal | pix => exact h.elim
  | penc =>
    cases sp with
    | pix => decide
    | ibuf | obuf | hdr | gbm | pal => exact h.elim
  | imgbuild =>
    cases sp with
    | pix | hdr => decide
    | ibuf | obuf | gbm | pal => exact h.elim
  | pdec =>
    cases sp with
    | ibuf | pal => decide
    | obuf | hdr | gbm | pix => exact h.elim

/-- The input set and the output set of an operation are disjoint (10_state.md R33). -/
theorem inputs_not_outputs {i : Instr} {s : State} {l : Loc} (h : inputs i s l) : ¬ outputs i l := by
  cases l with
  | reg r =>
    have hdisjoint : ∀ r ∈ inputRegs i, r ∉ outputRegs i := by cases i <;> decide
    exact hdisjoint r h
  | cell sp k => exact space_not_output_of_inputCells h
  | reserved o => exact h.elim

/-- Settles O27: the frame of each operation, and that its input set is outside its output set. -/
theorem operationsWriteOnlyTheirOutputSet : Obligations.OperationsWriteOnlyTheirOutputSet := by
  intro i s t h
  have hframe := exec_unchanged h
  exact ⟨hframe, fun l hl => hframe.1 l (inputs_not_outputs hl)⟩

/-! ### An input length above the capacity -/

/-- What raising `e` gives an operation that is a completion step. -/
theorem finish_fails {α : Type} {s : State} {r : Result α} {e : ErrorName} (hr : r = .error (.raised e))
    (commit : α → State → State) (havoc : State → State) :
    ∃ t, finish s r commit havoc = .next t ∧ Failed e t := by
  subst hr
  exact ⟨_, finish_raised s e commit havoc, raiseError_failed e _⟩

/-- A computation that begins with the input length raises BadOperand where `ILEN > BUF_CAP` (10_state.md R20). -/
theorem inputLength_bind_eq_badOperand {α : Type} {s : State} (h : 65539 < s.ilen.toNat) (f : Nat → Result α) :
    (inputLength s >>= f) = .error (.raised .badOperand) := by
  rw [inputLength_eq_error.2 ⟨not_le.2 h, rfl⟩, bind_error]

/-- ISVALID does not convert BadOperand (41_framer.md R107, 60_exceptions.md R172). -/
theorem verdict_badOperand : verdict (.error (.raised .badOperand)) = .error (.raised .badOperand) := rfl

/-- Every operation that reads `ILEN` ends with BadOperand where `ILEN > BUF_CAP`. -/
theorem exec_fails_of_ilen {i : Instr} {s : State}
    (hi : i ∈ [Instr.csum, .csval, .buildB, .parse, .parser, .isvalid, .pdec, .psplitS, .psplitM, .gbmode])
    (h : 65539 < s.ilen.toNat) : ∃ t, exec i s = .next t ∧ Failed .badOperand t := by
  have hrange : rangeBytes s = .error (.raised .badOperand) := inputLength_bind_eq_badOperand h _
  have hparse : ∀ shape, parseInput s shape = .error (.raised .badOperand) :=
    fun shape => inputLength_bind_eq_badOperand h _
  have hsplit : ∀ n, splitInput s n = .error (.raised .badOperand) :=
    fun n => inputLength_bind_eq_badOperand h _
  cases i with
  | nop | buildN | buildI | penc | imgbuild | clear => exact absurd hi (by decide)
  | csum => exact finish_fails hrange _ _
  | csval =>
    rw [exec_csval_of_error hrange]
    exact finish_fails rfl _ _
  | buildB => exact finish_fails (inputLength_bind_eq_badOperand h _) _ _
  | parse => exact finish_fails (hparse _) _ _
  | parser => exact finish_fails (hparse _) _ _
  | isvalid => exact finish_fails ((congrArg verdict (hparse _)).trans verdict_badOperand) _ _
  | pdec => exact finish_fails (inputLength_bind_eq_badOperand h _) _ _
  | psplitS => exact finish_fails (hsplit _) _ _
  | psplitM => exact finish_fails (hsplit _) _ _
  | gbmode => exact finish_fails (inputLength_bind_eq_badOperand h _) _ _

/-- Settles O33. -/
theorem inputLengthAboveCapacityIsBadOperand : Obligations.InputLengthAboveCapacityIsBadOperand := by
  intro s i hi h
  obtain ⟨t, ht, hfailed⟩ := exec_fails_of_ilen hi h
  exact ⟨t, ht, hfailed, exec_unchanged ht⟩

end Sys2Proof.Machine
end

section
/-! How much each computation returns, and what an operation leaves in `OBUF` (10_state.md R21, R27, R32). -/

namespace Sys2Proof.Machine

/-! ### The sizes of the results -/

theorem envelope_length (inner : List Byte) : (envelope inner).frame.length = inner.length + 6 := by
  simp [envelope]

theorem fetchRange_length {w : Nat} {sp : Space} {m : Cells w} {a n : Nat} {vs : List (BitVec w)}
    (h : fetchRange sp m a n = .ok vs) : vs.length = n := (fetchRange_eq_ok.1 h).1

/-- A built frame fits `OBUF`: the longest has 65535 bytes after the size field (41_framer.md R100). -/
theorem buildFrame_length {cmd : Byte} {n : Nat} {payload : Result (List Byte)} {b : Built}
    (h : buildFrame cmd n payload = .ok b) (hp : ∀ p, payload = .ok p → p.length = n) :
    b.frame.length ≤ Config.bufCap := by
  simp only [buildFrame, bind_eq_ok, require_eq_ok, pure_ok, Except.ok.injEq] at h
  obtain ⟨-, hn, p, hpay, rfl⟩ := h
  rw [envelope_length, List.length_cons, hp p hpay]
  have hcap : Config.bufCap = 65539 := rfl
  omega

theorem buildInput_length {s : State} {b : Built} (h : buildInput s = .ok b) :
    b.frame.length ≤ Config.bufCap := by
  simp only [buildInput, bind_eq_ok, pure_ok, Except.ok.injEq] at h
  obtain ⟨n, -, b', hb, -, -, rfl⟩ := h
  exact buildFrame_length hb fun p hp => fetchRange_length hp

/-- Where the computation succeeds its result has property `P`. -/
def Returns {α : Type} (P : α → Prop) (r : Result α) : Prop := ∀ a, r = .ok a → P a

/-- What a sequence returns is what its last part returns. -/
theorem Returns.bind {α β : Type} {P : β → Prop} {r : Result α} {f : α → Result β} (hf : ∀ a, Returns P (f a)) :
    Returns P (r >>= f) := by
  intro b hb
  obtain ⟨a, -, hb⟩ := bind_eq_ok.1 hb
  exact hf a b hb

/-- A parsed payload is shorter than the frame's 16-bit size (41_framer.md R104). -/
theorem parseFrame_length (s : State) (n : Nat) (shape : Shape) :
    Returns (fun p => p.payload.length ≤ Config.bufCap) (parseFrame s n shape) := by
  refine .bind fun _ => .bind fun lo => .bind fun hi => .bind fun _ => .bind fun start => .bind fun _ =>
    .bind fun stop => .bind fun _ => .bind fun _ => .bind fun _ => .bind fun body => .bind fun chkLo =>
    .bind fun chkHi => .bind fun _ => .bind fun cmd => fun p hp => ?_
  obtain ⟨payload, hpayload, heq⟩ := bind_eq_ok.1 hp
  cases heq
  have hlen : payload.length = (le16 lo hi).toNat - minSize shape := fetchRange_length hpayload
  have hlt := (le16 lo hi).isLt
  change payload.length ≤ 65539
  omega

theorem parseInput_length {s : State} {shape : Shape} {p : Parsed} (h : parseInput s shape = .ok p) :
    p.payload.length ≤ Config.bufCap := by
  obtain ⟨n, -, hp⟩ := bind_eq_ok.1 h
  exact parseFrame_length s n shape p hp

/-- A split finds at most 255 colours, and its image is part of the input (42_payload_fields.md R122). -/
theorem splitInput_length {s : State} {h : Nat} {p : SplitPayload} (hs : splitInput s h = .ok p) :
    p.palette.length ≤ Config.palCap ∧ p.image.length ≤ Config.bufCap := by
  simp only [splitInput, splitPayload, bind_eq_ok, pure_ok, Except.ok.injEq, inputLength_eq_ok] at hs
  obtain ⟨n, ⟨hcap, rfl⟩, -, -, count, -, -, -, triples, htriples, image, himage, rfl⟩ := hs
  constructor
  · have hlt := count.isLt
    change (coloursOf triples).length ≤ 256
    rw [coloursOf_length count.toNat triples (fetchRange_length htriples)]
    omega
  · have hlen : image.length = _ := fetchRange_length himage
    change image.length ≤ _
    omega

theorem boxMode_length {s : State} {fields : List Byte} (h : boxMode s = .ok fields) :
    fields.length = Config.gbmLen := by
  simp only [boxMode, bind_eq_ok] at h
  obtain ⟨-, -, -, -, hfields⟩ := h
  exact fetchRange_length hfields

/-- PENC finds at most 256 colours, and its table and stream together have at most 1025 bytes
(43_pixel_codec.md R135, R136). -/
theorem encodePixels_length {s : State} {e : Encoded} (h : encodePixels s = .ok e) :
    e.palette.length ≤ Config.palCap ∧ e.bytes.length ≤ 1025 := by
  simp only [encodePixels, bind_eq_ok, require_eq_ok, pure_ok, Except.ok.injEq] at h
  obtain ⟨-, hmax, -, hne, colours, hcolours, -, hpal, rfl⟩ := h
  have hlen : colours.length = s.npix.toNat := fetchRange_length hcolours
  have hmax' : s.npix.toNat ≤ 256 := hmax
  have hpal' : (extract colours).1.length ≤ 256 := hpal
  obtain ⟨-, -, -, hidx, -⟩ := extract_spec (cs := colours) (by omega)
  have hbits : colours.length * bpp (extract colours).1.length ≤ 256 * 8 :=
    Nat.mul_le_mul (by omega) (bpp_le _)
  refine ⟨hpal, ?_⟩
  simp only [Encoded.bytes, paletteTable, List.length_append, List.length_cons, flatten_rgb_length,
    packBits_length, indexBits_length, hidx]
  omega

theorem buildImage_length {s : State} {f : ImageFrame} (h : buildImage s = .ok f) :
    f.enc.palette.length ≤ Config.palCap ∧ f.built.frame.length ≤ Config.bufCap := by
  simp only [buildImage, bind_eq_ok, pure_ok, Except.ok.injEq] at h
  obtain ⟨e, he, header, hheader, rfl⟩ := h
  obtain ⟨hpal, hbytes⟩ := encodePixels_length he
  have hlen : header.length = 11 := fetchRange_length hheader
  refine ⟨hpal, ?_⟩
  rw [envelope_length, List.length_append, hlen]
  change _ ≤ 65539
  omega

theorem windowColours_length {s : State} {vs : List Nat} {cs : List (Option Colour)}
    (h : windowColours s vs = .ok cs) : cs.length = vs.length := by
  induction vs generalizing cs with
  | nil => cases h; rfl
  | cons v vs ih =>
    simp only [windowColours, bind_eq_ok, pure_ok, Except.ok.injEq] at h
    obtain ⟨c, -, cs', hcs, rfl⟩ := h
    rw [List.length_cons, List.length_cons, ih hcs]

/-- PDEC's grid is the whole grid (43_pixel_codec.md R143, R146). -/
theorem decodePixels_grid_length {s : State} {d : Decoded} (h : decodePixels s = .ok d) :
    d.grid.length = Config.npixMax := by
  simp only [decodePixels, bind_eq_ok, pure_ok, Except.ok.injEq] at h
  obtain ⟨n, -, -, -, -, -, bytes, -, pixels, hpixels, rfl⟩ := h
  have hlen := windowColours_length hpixels
  rw [groups_length] at hlen
  have hle : pixels.length ≤ Config.npixMax := hlen ▸ Nat.min_le_left _ _
  rw [Decoded.grid, List.length_append, List.length_map, List.length_replicate]
  exact Nat.add_sub_of_le hle

/-! ### How a completion step ends -/

/-- A completion step that raised nothing committed the result of its computation. -/
theorem finish_succeeds {α : Type} {s t : State} {r : Result α} {commit : α → State → State}
    {havoc : State → State} (h : finish s r commit havoc = .next t) (he : t.err = false) :
    ∃ a, r = .ok a ∧ t = complete (commit a s) := by
  rcases finish_eq_next.1 h with hok | ⟨e, -, rfl⟩
  · exact hok
  · cases he

/-- Every operation but NOP, CSVAL and CLEAR is one `finish`. -/
theorem exec_eq_finish {i : Instr} (hi : i ∉ [Instr.nop, .csval, .clear]) (s : State) :
    ∃ (α : Type) (r : Result α) (commit : α → State → State) (havoc : State → State),
      exec i s = finish s r commit havoc := by
  cases i with
  | nop | csval | clear => exact absurd (by decide) hi
  | buildN => exact ⟨_, _, _, _, exec_buildN_eq_finish s⟩
  | buildI => exact ⟨_, _, _, _, exec_buildI_eq_finish s⟩
  | csum | buildB | parse | parser | isvalid | penc | imgbuild | pdec | psplitS | psplitM | gbmode =>
    exact ⟨_, _, _, _, rfl⟩

/-- Every operation but CLEAR ends by completing or by raising an error (10_state.md R12, 60_exceptions.md
R163). -/
theorem exec_ends {i : Instr} {s t : State} (h : exec i s = .next t) :
    i = .clear ∨ (∃ u, t = complete u) ∨ ∃ e u, t = raiseError e u := by
  by_cases hi : i ∈ [Instr.nop, .csval, .clear]
  · simp only [List.mem_cons, List.not_mem_nil, or_false] at hi
    rcases hi with rfl | rfl | rfl
    · cases h
      exact .inr (.inl ⟨_, rfl⟩)
    · rcases exec_csval_eq_next h with ⟨_, rfl⟩ | ⟨_, rfl⟩ | ⟨_, rfl⟩
      · exact .inr (.inl ⟨_, rfl⟩)
      · exact .inr (.inr ⟨_, _, rfl⟩)
      · exact .inr (.inr ⟨_, _, rfl⟩)
    · exact .inl rfl
  · obtain ⟨α, r, commit, havoc, hexec⟩ := exec_eq_finish hi s
    rw [hexec] at h
    rcases finish_eq_next.1 h with ⟨a, -, rfl⟩ | ⟨e, -, rfl⟩
    · exact .inr (.inl ⟨_, rfl⟩)
    · exact .inr (.inr ⟨_, _, rfl⟩)

/-- An operation that ends with ERR set raised an error (60_exceptions.md R163). -/
theorem exec_failed_of_err {i : Instr} {s t : State} (h : exec i s = .next t) (he : t.err = true) :
    ∃ e, Failed e t := by
  rcases exec_ends h with rfl | ⟨u, rfl⟩ | ⟨e, u, rfl⟩
  · cases h; cases he
  · cases he
  · exact ⟨e, raiseError_failed e u⟩

/-! ### `OBUF` after an operation without a byte-string result -/

/-- A byte of `OBUF` reads as unwritten exactly where `obufByte` has none. -/
theorem peek_obuf_eq_none {s : State} {k : Nat} : s.peek (.cell .obuf k) = none ↔ obufByte s k = none :=
  Option.map_eq_none_iff

theorem staleOutput_obufNotStored (s : State) : ObufNotStored s (staleOutput s) := by
  intro k hk
  rw [peek_obuf_eq_none, peek_obuf_eq_none, obufByte_staleOutput s hk, Option.map_eq_none_iff]

theorem noOutput_obufNotStored (s : State) : ObufNotStored s (noOutput s) := by
  intro k hk
  rw [peek_obuf_eq_none, obufByte_noOutput, ← peek_obuf_eq_none]
  exact staleOutput_obufNotStored s k hk

theorem commitSum_obufNotStored (bytes : List Byte) (s : State) : ObufNotStored s (commitSum bytes s) :=
  noOutput_obufNotStored { s with sum := sum16 bytes }

theorem commitGbm_obufNotStored (fields : List Byte) (s : State) : ObufNotStored s (commitGbm fields s) :=
  noOutput_obufNotStored { s with mem := { s.mem with gbm := Cells.ofList 0 fields } }

theorem commitDecoded_obufNotStored (d : Decoded) (s : State) : ObufNotStored s (commitDecoded d s) :=
  noOutput_obufNotStored
    { s with bpp := BitVec.ofNat 4 d.bits
             skipcnt := BitVec.ofNat 32 (d.pixels.count none)
             trailbits := BitVec.ofNat 32 d.trailing
             mem := { s.mem with pix := Cells.ofList 0 d.grid } }

theorem havocChecked_obufNotStored (s : State) : ObufNotStored s (havocChecked s) :=
  staleOutput_obufNotStored (havocSum s)

theorem havocBoxMode_obufNotStored (s : State) : ObufNotStored s (havocBoxMode s) :=
  staleOutput_obufNotStored (havocGbm s)

theorem havocDecoded_obufNotStored (s : State) : ObufNotStored s (havocDecoded s) :=
  staleOutput_obufNotStored (havocGrid (havocBpp s))

/-- A completion step without a byte-string result, from what it commits and what an error leaves. -/
theorem finish_noResult {α : Type} {s t : State} {r : Result α} {commit : α → State → State}
    {havoc : State → State} (h : finish s r commit havoc = .next t)
    (holen : ∀ a, (commit a s).olen = 0) (hcommit : ∀ a, ObufNotStored s (commit a s))
    (hhavoc : ObufNotStored s (havoc s)) : t.olen = 0 ∧ ObufNotStored s t := by
  rcases finish_eq_next.1 h with ⟨a, -, rfl⟩ | ⟨e, -, rfl⟩
  · exact ⟨holen a, hcommit a⟩
  · exact ⟨rfl, hhavoc⟩

/-- CSUM, CSVAL, PDEC and GBMODE leave `OLEN` 0 and store no byte of `OBUF`, with an error or without one
(40_checksum.md R91, 43_pixel_codec.md R143). -/
theorem exec_noResult {i : Instr} {s t : State} (hi : i ∈ [Instr.csum, .csval, .pdec, .gbmode])
    (h : exec i s = .next t) : t.olen = 0 ∧ ObufNotStored s t := by
  simp only [List.mem_cons, List.not_mem_nil, or_false] at hi
  rcases hi with rfl | rfl | rfl | rfl
  · exact finish_noResult h (fun _ => rfl) (fun b => commitSum_obufNotStored b s) (havocChecked_obufNotStored s)
  · rcases exec_csval_eq_next h with ⟨bytes, rfl⟩ | ⟨bytes, rfl⟩ | ⟨e, rfl⟩
    · exact ⟨rfl, commitSum_obufNotStored bytes s⟩
    · exact ⟨rfl, commitSum_obufNotStored bytes s⟩
    · exact ⟨rfl, havocChecked_obufNotStored s⟩
  · exact finish_noResult h (fun _ => rfl) (fun d => commitDecoded_obufNotStored d s)
      (havocDecoded_obufNotStored s)
  · exact finish_noResult h (fun _ => rfl) (fun f => commitGbm_obufNotStored f s) (havocBoxMode_obufNotStored s)

/-! ### `OBUF` after an operation with a byte-string result -/

/-- `t` ends an operation on `s` without an error, with a byte-string result that fits `OBUF` (10_state.md R21). -/
def EndsWithOutput (s t : State) : Prop :=
  ∃ bytes u, t = complete (setOutput bytes u) ∧ bytes.length ≤ Config.bufCap ∧
    ∀ k, obufByte u k = obufByte s k

/-- The operations with a byte-string result end with one that fits `OBUF`, where they raise no error. -/
theorem exec_endsWithOutput {i : Instr} {s t : State}
    (hi : i ∉ [Instr.nop, .csum, .csval, .isvalid, .pdec, .gbmode, .clear]) (h : exec i s = .next t)
    (he : t.err = false) : EndsWithOutput s t := by
  cases i with
  | nop | csum | csval | isvalid | pdec | gbmode | clear => exact absurd (by decide) hi
  | buildN =>
    rw [exec_buildN_eq_finish] at h
    obtain ⟨b, hb, rfl⟩ := finish_succeeds h he
    exact ⟨b.frame, _, rfl, buildFrame_length hb (fun p hp => by cases hp; rfl), fun _ => rfl⟩
  | buildI =>
    rw [exec_buildI_eq_finish] at h
    obtain ⟨b, hb, rfl⟩ := finish_succeeds h he
    exact ⟨b.frame, _, rfl, buildFrame_length hb (fun p hp => by cases hp; rfl), fun _ => rfl⟩
  | buildB =>
    obtain ⟨b, hb, rfl⟩ := finish_succeeds h he
    exact ⟨b.frame, _, rfl, buildInput_length hb, fun _ => rfl⟩
  | parse | parser =>
    obtain ⟨p, hp, rfl⟩ := finish_succeeds h he
    exact ⟨p.payload, _, rfl, parseInput_length hp, fun _ => rfl⟩
  | penc =>
    obtain ⟨e, hx, rfl⟩ := finish_succeeds h he
    exact ⟨e.bytes, _, rfl, (encodePixels_length hx).2.trans (by decide), fun _ => rfl⟩
  | imgbuild =>
    obtain ⟨f, hf, rfl⟩ := finish_succeeds h he
    exact ⟨f.built.frame, _, rfl, (buildImage_length hf).2, fun _ => rfl⟩
  | psplitS | psplitM =>
    obtain ⟨p, hp, rfl⟩ := finish_succeeds h he
    exact ⟨p.image, _, rfl, (splitInput_length hp).2, fun _ => rfl⟩

/-- `OLEN` is the length of a byte string that fits `OBUF`. -/
theorem setOutput_olen_toNat {bytes : List Byte} (hl : bytes.length ≤ Config.bufCap) (s : State) :
    (setOutput bytes s).olen.toNat = bytes.length := by
  have hcap : Config.bufCap = 65539 := rfl
  rw [setOutput_olen, BitVec.toNat_ofNat, Nat.mod_eq_of_lt (by omega)]

/-- From `OLEN` on a byte-string result stores nothing (10_state.md R27, R32). -/
theorem EndsWithOutput.obuf_beyond {s t : State} (h : EndsWithOutput s t) {k : Nat} (hk : t.olen.toNat ≤ k)
    (hcap : k < Config.bufCap) : t.peek (.cell .obuf k) = none ↔ s.peek (.cell .obuf k) = none := by
  obtain ⟨bytes, u, rfl, hl, hu⟩ := h
  rw [complete_olen, setOutput_olen_toNat hl] at hk
  have hbyte : obufByte (complete (setOutput bytes u)) k = obufByte (setOutput bytes u) k := rfl
  rw [peek_obuf_eq_none, peek_obuf_eq_none, hbyte, obufByte_setOutput bytes u hcap, if_neg (not_lt.2 hk),
    Option.map_eq_none_iff, hu]

/-- Settles O32: NOP and CLEAR keep `OBUF`; the others are `exec_noResult` and `exec_endsWithOutput`. -/
theorem nothingIsStoredBeyondOlen : Obligations.NothingIsStoredBeyondOlen := by
  intro i s t h
  refine ⟨fun hi => (exec_noResult hi h).1, fun hcase k hk hcap => ?_⟩
  by_cases hnone : i ∈ [Instr.csum, .csval, .pdec, .gbmode]
  · exact (exec_noResult hnone h).2 k hcap
  obtain ⟨he, hisvalid⟩ := hcase.resolve_right hnone
  by_cases hkeeps : i = .nop ∨ i = .clear
  · have hout : ¬ outputs i (.cell .obuf k) := by
      rcases hkeeps with rfl | rfl <;> exact List.not_mem_nil
    rw [(exec_unchanged h).1 _ hout]
  · refine (exec_endsWithOutput ?_ h he).obuf_beyond hk hcap
    simp only [List.mem_cons, List.not_mem_nil, or_false] at hnone ⊢
    tauto

end Sys2Proof.Machine
end

section
/-! What one step of the system can be, said once, and what every step keeps: the invariant (10_state.md R12, R16,
R17, R21, R27) and the written cells (R32). -/

namespace Sys2Proof.Machine

/-! ### One step -/

/-- Only the outside world's part of the state differs: its moves, what it has read, the time to completion and
the count of open events. -/
def OutsideOnly (s t : State) : Prop :=
  ∃ ms v b n, t = { s with moves := ms, rdata := v, busyFor := b, free := n }

theorem takeMove_outsideOnly (s : State) : OutsideOnly s (takeMove s) := ⟨_, s.rdata, _, s.free, rfl⟩

theorem hostRead_outsideOnly (n : Nat) (l : Loc) (s : State) : OutsideOnly s (hostRead n l s) := by
  unfold hostRead
  split
  · exact ⟨s.moves, _, s.busyFor, s.free, rfl⟩
  · exact ⟨s.moves, _, s.busyFor, _, rfl⟩

theorem OutsideOnly.trans {s t u : State} (h : OutsideOnly s t) (h' : OutsideOnly t u) : OutsideOnly s u := by
  obtain ⟨_, _, _, _, rfl⟩ := h
  obtain ⟨ms, v, b, n, rfl⟩ := h'
  exact ⟨ms, v, b, n, rfl⟩

theorem OutsideOnly.peek {s t : State} (h : OutsideOnly s t) (l : Loc) : t.peek l = s.peek l := by
  obtain ⟨_, _, _, _, rfl⟩ := h
  cases l with
  | reg r => cases r <;> rfl
  | cell sp i => cases sp <;> rfl
  | reserved o => rfl

/-- What a step of the system can be: a step of the outside world alone, a host write, a reset, the completion step
of an operation, or that of an illegal word. -/
inductive StepTo (s t : State) : Prop where
  | outside (h : OutsideOnly s t)
  | write (l : Loc) (v : Word) (hcell : ∀ sp i, l = .cell sp i → i < Config.cells sp)
      (h : t = hostWrite l v (takeMove s))
  | reset (he : nextEvent s = .host .reset) (h : t = resetStep (takeMove s))
  | operation (i : Instr) (h : exec i s = .next t)
  | illegal (h : t = raiseIllegal s)

theorem accessStop_ne_next {a : Access} {e : AccessError} {t : State} : accessStop a e ≠ .next t := by
  cases e <;> simp [accessStop]

/-- An access in phase IDLE is a read or a write of a location. -/
theorem idleAccess_stepTo {a : Access} {s t : State} (h : idleAccess a (takeMove s) = .next t) : StepTo s t := by
  unfold idleAccess at h
  split at h
  · exact absurd h accessStop_ne_next
  · next l hd =>
    split at h
    · cases h
      exact .outside ((takeMove_outsideOnly s).trans (hostRead_outsideOnly _ _ _))
    · cases h
      exact .write l _ (fun sp i hl => decodeAccess_cell_lt (hl ▸ hd)) rfl

/-- An access in phase BUSY changes nothing of DPF. -/
theorem busyAccess_stepTo {a : Access} {s t : State} (h : busyAccess a (takeMove s) = .next t) : StepTo s t := by
  unfold busyAccess at h
  split at h
  · exact absurd h accessStop_ne_next
  · split at h
    · split at h <;> cases h
      · exact .outside ((takeMove_outsideOnly s).trans (hostRead_outsideOnly _ _ _))
      · exact .outside (takeMove_outsideOnly s)
    · cases h

theorem hostMove_stepTo {m : Move} {s t : State} (he : nextEvent s = .host m) (h : hostMove m s = .next t) :
    StepTo s t := by
  unfold hostMove at h
  split at h
  · exact idleAccess_stepTo h
  · exact busyAccess_stepTo h
  · cases h
    exact .outside ((takeMove_outsideOnly s).trans (hostRead_outsideOnly _ _ _))
  · cases h
    exact .outside (.trans ⟨s.moves, s.rdata, s.busyFor - 1, s.free, rfl⟩ (hostRead_outsideOnly _ _ _))
  · cases h
    exact .outside ⟨_, _, _, s.free, rfl⟩
  · cases h
  · cases h
    exact .reset he rfl

/-- Every step of the system is one of the five kinds (10_state.md R12). -/
theorem step_stepTo {s t : State} (h : step s = .next t) : StepTo s t := by
  unfold step at h
  split at h
  · cases h
    exact .outside ⟨s.moves, s.rdata, s.busyFor, s.free, rfl⟩
  · next m he => exact hostMove_stepTo he h
  · unfold completionStep at h
    split at h
    · exact .operation _ h
    · cases h
      exact .illegal rfl

/-! ### The canonical form -/

/-- A palette that fits `PAL`, written there, keeps the canonical form. -/
theorem wf_writePalette {m : Memory} {pal : List Colour} (h : m.wf) (hl : pal.length ≤ Config.palCap) :
    Memory.wf { m with pal := Cells.writeRange m.pal 0 pal } := by
  obtain ⟨h1, h2, h3, h4, h5, h6⟩ := h
  exact ⟨h1, h2, h3, h4, wf_writeRange h5 (by rwa [Nat.zero_add]), h6⟩

theorem commitSum_wf {s : State} (bytes : List Byte) (h : s.mem.wf) : (commitSum bytes s).mem.wf :=
  noOutput_wf (s := { s with sum := sum16 bytes }) h

theorem commitBuilt_wf {s : State} {b : Built} (h : s.mem.wf) (hl : b.frame.length ≤ Config.bufCap) :
    (commitBuilt b s).mem.wf :=
  setOutput_wf (s := { s with rsize := b.size, sum := b.chk }) h hl

theorem commitParsed_wf {s : State} {p : Parsed} (h : s.mem.wf) (hl : p.payload.length ≤ Config.bufCap) :
    (commitParsed p s).mem.wf :=
  setOutput_wf (s := { s with rcmd := p.cmd, rsize := p.size }) h hl

theorem commitSplit_wf {s : State} {p : SplitPayload} (h : s.mem.wf) (hp : p.palette.length ≤ Config.palCap)
    (hl : p.image.length ≤ Config.bufCap) : (commitSplit p s).mem.wf :=
  setOutput_wf (s := { s with plen := BitVec.ofNat 32 p.palette.length
                              mem := { s.mem with pal := Cells.writeRange s.mem.pal 0 p.palette } })
    (wf_writePalette h hp) hl

theorem commitPalette_wf {s : State} {n : Nat} {e : Encoded} (h : s.mem.wf)
    (hp : e.palette.length ≤ Config.palCap) : (commitPalette n e s).mem.wf := wf_writePalette h hp

theorem commitGbm_wf {s : State} {fields : List Byte} (h : s.mem.wf) (hl : fields.length = Config.gbmLen) :
    (commitGbm fields s).mem.wf := by
  refine noOutput_wf (s := { s with mem := { s.mem with gbm := Cells.ofList 0 fields } }) ?_
  obtain ⟨h1, h2, h3, -, h5, h6⟩ := h
  exact ⟨h1, h2, h3, wf_ofList (by rw [hl, Nat.zero_add]; rfl), h5, h6⟩

theorem commitDecoded_wf {s : State} {d : Decoded} (h : s.mem.wf) (hl : d.grid.length = Config.npixMax) :
    (commitDecoded d s).mem.wf := by
  refine noOutput_wf (s := { s with bpp := BitVec.ofNat 4 d.bits
                                    skipcnt := BitVec.ofNat 32 (d.pixels.count none)
                                    trailbits := BitVec.ofNat 32 d.trailing
                                    mem := { s.mem with pix := Cells.ofList 0 d.grid } }) ?_
  obtain ⟨h1, h2, h3, h4, h5, -⟩ := h
  exact ⟨h1, h2, h3, h4, h5, wf_ofList (by rw [hl, Nat.zero_add]; rfl)⟩

/-- A completion step keeps the canonical form, if what it commits and what an error leaves does. -/
theorem finish_wf {α : Type} {s t : State} {r : Result α} {commit : α → State → State} {havoc : State → State}
    (h : finish s r commit havoc = .next t) (hcommit : ∀ a, r = .ok a → (commit a s).mem.wf)
    (hhavoc : (havoc s).mem.wf) : t.mem.wf := by
  rcases finish_eq_next.1 h with ⟨a, ha, rfl⟩ | ⟨e, -, rfl⟩
  · exact hcommit a ha
  · exact hhavoc

theorem havocBuilt_wf {s : State} (h : s.mem.wf) : (havocBuilt s).mem.wf :=
  havocObuf_wf (s := havocSum (havocRsize s)) h

theorem havocParsed_wf {s : State} (h : s.mem.wf) : (havocParsed s).mem.wf :=
  havocObuf_wf (s := havocRcmd (havocRsize s)) h

theorem havocEncoded_wf {s : State} (h : s.mem.wf) : (havocEncoded s).mem.wf :=
  havocObuf_wf (havocPalette_wf (s := havocBpp (havocSoff s)) h)

/-- Every operation keeps the canonical form. -/
theorem exec_wf {i : Instr} {s t : State} (h : exec i s = .next t) (hs : s.mem.wf) : t.mem.wf := by
  cases i with
  | nop | clear => cases h; exact hs
  | csum => exact finish_wf h (fun b _ => commitSum_wf b hs) (staleOutput_wf (s := havocSum s) hs)
  | csval =>
    rcases exec_csval_eq_next h with ⟨bytes, rfl⟩ | ⟨bytes, rfl⟩ | ⟨e, rfl⟩
    · exact commitSum_wf bytes hs
    · exact commitSum_wf bytes hs
    · exact staleOutput_wf (s := havocSum s) hs
  | buildN =>
    rw [exec_buildN_eq_finish] at h
    exact finish_wf h (fun b hb => commitBuilt_wf hs (buildFrame_length hb fun p hp => by cases hp; rfl))
      (havocBuilt_wf hs)
  | buildI =>
    rw [exec_buildI_eq_finish] at h
    exact finish_wf h (fun b hb => commitBuilt_wf hs (buildFrame_length hb fun p hp => by cases hp; rfl))
      (havocBuilt_wf hs)
  | buildB => exact finish_wf h (fun b hb => commitBuilt_wf hs (buildInput_length hb)) (havocBuilt_wf hs)
  | parse | parser =>
    exact finish_wf h (fun p hp => commitParsed_wf hs (parseInput_length hp)) (havocParsed_wf hs)
  | isvalid => exact finish_wf h (fun v _ => havocParsed_wf hs) (havocParsed_wf hs)
  | penc =>
    refine finish_wf h (fun e he => ?_) (havocEncoded_wf hs)
    obtain ⟨hpal, hbytes⟩ := encodePixels_length he
    exact setOutput_wf (commitPalette_wf hs hpal) (hbytes.trans (by decide))
  | imgbuild =>
    refine finish_wf h (fun f hf => ?_) (havocEncoded_wf (havocBuilt_wf hs))
    obtain ⟨hpal, hframe⟩ := buildImage_length hf
    exact commitBuilt_wf (commitPalette_wf hs hpal) hframe
  | pdec =>
    exact finish_wf h (fun d hd => commitDecoded_wf hs (decodePixels_grid_length hd))
      (staleOutput_wf (havocGrid_wf (s := havocBpp s) hs))
  | psplitS | psplitM =>
    refine finish_wf h (fun p hp => ?_) (havocObuf_wf (havocPalette_wf hs))
    obtain ⟨hpal, himage⟩ := splitInput_length hp
    exact commitSplit_wf hs hpal himage
  | gbmode =>
    exact finish_wf h (fun f hf => commitGbm_wf hs (boxMode_length hf)) (staleOutput_wf (havocGbm_wf hs))

/-! ### `STATUS` and the result -/

theorem complete_statusLegal (s : State) : StatusLegal (complete s) := by
  simp [StatusLegal]

theorem raiseError_statusLegal (e : ErrorName) (s : State) : StatusLegal (raiseError e s) := by
  simp [StatusLegal]

/-- Every operation leaves a legal `STATUS` and `ERRCODE` (10_state.md R12, R16, R17). -/
theorem exec_statusLegal {i : Instr} {s t : State} (h : exec i s = .next t) : StatusLegal t := by
  rcases exec_ends h with rfl | ⟨u, rfl⟩ | ⟨e, u, rfl⟩
  · cases h
    simp [StatusLegal]
  · exact complete_statusLegal u
  · exact raiseError_statusLegal e u

/-- The empty result is within the buffer and written. -/
theorem resultWritten_of_olen {s : State} (h : s.olen = 0) : ResultWritten s := by
  simp [ResultWritten, h]

/-- A byte-string result is within the buffer and written (10_state.md R21, R27). -/
theorem EndsWithOutput.resultWritten {s t : State} (h : EndsWithOutput s t) : ResultWritten t := by
  obtain ⟨bytes, u, rfl, hl, -⟩ := h
  refine ⟨?_, fun k hk => ?_⟩
  · rw [complete_olen, setOutput_olen_toNat hl]
    exact hl
  · rw [complete_olen, setOutput_olen_toNat hl] at hk
    have hbyte : obufByte (complete (setOutput bytes u)) k = obufByte (setOutput bytes u) k := rfl
    rw [ne_eq, peek_obuf_eq_none, hbyte, obufByte_setOutput bytes u (lt_of_lt_of_le hk hl), if_pos hk,
      List.getElem?_eq_getElem hk]
    exact Option.some_ne_none _

/-- Every operation leaves a written result within the buffer; NOP leaves the one that stood there (10_state.md
R21, R27, 44_system.md R150). -/
theorem exec_resultWritten {i : Instr} {s t : State} (h : exec i s = .next t)
    (hs : i = .nop → ResultWritten s) : ResultWritten t := by
  by_cases hi : i ∈ [Instr.nop, .csum, .csval, .isvalid, .pdec, .gbmode, .clear]
  · cases i with
    | nop => cases h; exact hs rfl
    | clear => cases h; exact resultWritten_of_olen rfl
    | csum | csval | pdec | gbmode => exact resultWritten_of_olen (exec_noResult (by decide) h).1
    | isvalid =>
      rcases finish_eq_next.1 h with ⟨v, -, rfl⟩ | ⟨e, -, rfl⟩
      · exact resultWritten_of_olen rfl
      · exact resultWritten_of_olen rfl
    | buildN | buildI | buildB | parse | parser | penc | imgbuild | psplitS | psplitM =>
      exact absurd hi (by decide)
  · cases he : t.err with
    | false => exact (exec_endsWithOutput hi h he).resultWritten
    | true =>
      obtain ⟨e, -, -, -, -, -, holen⟩ := exec_failed_of_err h he
      exact resultWritten_of_olen holen

/-! ### The invariant -/

/-- A host write to a location of the interface keeps the invariant: it reaches neither `OLEN` nor `OBUF`, and one
to `CTRL` clears the flags (10_state.md R12, R27, R35). -/
theorem hostWrite_inv {s : State} {l : Loc} {v : Word} (hs : s.Inv)
    (hcell : ∀ sp i, l = .cell sp i → i < Config.cells sp) : (hostWrite l v s).Inv := by
  have hs' := hs
  obtain ⟨hwf, hstatus, hresult⟩ := hs'
  cases l with
  | reg r =>
    cases r with
    | ctrl => exact ⟨hwf, by simp [StatusLegal, hostWrite], hresult⟩
    | status | errcode | cmdid | imm | ilen | olen | rstart | rend | sum | expect | rcmd | rsize | plen | npix
    | bpp | soff | skipcnt | trailbits => exact hs
  | cell sp i =>
    refine ⟨writeCell_wf hwf (hcell sp i rfl), ?_, ?_⟩
    · cases sp <;> exact hstatus
    · cases sp <;> exact hresult
  | reserved o => exact hs

/-- The outside world's part of the state is not in the invariant. -/
theorem OutsideOnly.inv {s t : State} (h : OutsideOnly s t) (hs : s.Inv) : t.Inv := by
  obtain ⟨_, _, _, _, rfl⟩ := h
  exact hs

/-- Settles O3: each of the five kinds of step keeps the invariant. -/
theorem everyStepKeepsTheInvariant : Obligations.EveryStepKeepsTheInvariant := by
  intro s t hs h
  cases step_stepTo h with
  | outside ho => exact ho.inv hs
  | write l v hcell ht =>
    subst ht
    exact hostWrite_inv ((takeMove_outsideOnly s).inv hs) hcell
  | reset _ ht =>
    subst ht
    exact OutsideOnly.inv ⟨_, _, 0, _, rfl⟩ reset_inv
  | operation i hi =>
    obtain ⟨hwf, -, hresult⟩ := hs
    exact ⟨exec_wf hi hwf, exec_statusLegal hi, exec_resultWritten hi fun _ => hresult⟩
  | illegal ht =>
    subst ht
    obtain ⟨hwf, -, -⟩ := hs
    exact ⟨hwf, raiseError_statusLegal _ s, resultWritten_of_olen rfl⟩

/-! ### Written cells stay written -/

/-- Every cell that holds a value in `s` holds one in `t` (10_state.md R32). -/
def KeepsWritten (s t : State) : Prop :=
  ∀ sp k, k < Config.cells sp → s.peek (.cell sp k) ≠ none → t.peek (.cell sp k) ≠ none

/-- A host write leaves its cell written, where it is not ignored, and every other cell as it was. -/
theorem hostWrite_keepsWritten (l : Loc) (v : Word) (s : State) : KeepsWritten s (hostWrite l v s) := by
  intro sp k _ hw
  by_cases hctrl : l = .reg .ctrl
  · subst hctrl
    rw [show hostWrite (.reg .ctrl) v s = startStep v s from rfl, startStep_peek (by simp)]
    exact hw
  by_cases hl : Loc.cell sp k = l
  · subst hl
    obtain ⟨hbyte, hcolour⟩ := writeCell_peek_self s k v
    rw [show hostWrite (.cell sp k) v s = writeCell s sp k v from rfl]
    cases sp with
    | ibuf => rw [hbyte _ (.inl rfl)]; exact Option.some_ne_none _
    | hdr => rw [hbyte _ (.inr rfl)]; exact Option.some_ne_none _
    | pal => rw [hcolour _ (.inl rfl)]; exact Option.some_ne_none _
    | pix => rw [hcolour _ (.inr rfl)]; exact Option.some_ne_none _
    | obuf | gbm => exact hw
  · rw [hostWrite_peek_of_ne hctrl hl]
    exact hw

/-- A range write leaves every written cell written. -/
theorem read_writeRange_ne_none {w : Nat} {m : Cells w} {vs : List (BitVec w)} {k : Nat}
    (h : Cells.read m k ≠ none) : Cells.read (Cells.writeRange m 0 vs) k ≠ none := by
  rw [read_writeRange]
  split
  · next hk => rw [List.getElem?_eq_getElem (by omega)]; exact Option.some_ne_none _
  · exact h

theorem read_ofList_ne_none {w : Nat} {vs : List (BitVec w)} {k : Nat} (h : k < vs.length) :
    Cells.read (Cells.ofList 0 vs) k ≠ none := by
  rw [read_ofList, if_pos (Nat.zero_le k), Nat.sub_zero, List.getElem?_eq_getElem h]
  exact Option.some_ne_none _

/-- A cell of `PAL` reads as unwritten exactly where it is not listed. -/
theorem peek_pal_eq_none {s : State} {k : Nat} : s.peek (.cell .pal k) = none ↔ Cells.read s.mem.pal k = none :=
  Option.map_eq_none_iff

/-- An operation that finds a palette writes it over `PAL` (42_payload_fields.md R120, 43_pixel_codec.md R136). -/
theorem exec_writes_pal {i : Instr} {s t : State} (hi : Space.pal ∈ outputSpaces i) (h : exec i s = .next t)
    (he : t.err = false) : ∃ pal, t.mem.pal = Cells.writeRange s.mem.pal 0 pal := by
  cases i with
  | penc | imgbuild | psplitS | psplitM =>
    obtain ⟨a, -, rfl⟩ := finish_succeeds h he
    exact ⟨_, rfl⟩
  | nop | csum | csval | buildN | buildI | buildB | parse | parser | isvalid | pdec | gbmode | clear =>
    exact absurd hi (by decide)

/-- The operation that writes `PIX`, PDEC, writes the whole of it (43_pixel_codec.md R143). -/
theorem exec_pixWritten {i : Instr} {s t : State} (hi : Space.pix ∈ outputSpaces i) (h : exec i s = .next t)
    (he : t.err = false) : SpaceWritten .pix t := by
  cases i with
  | pdec =>
    obtain ⟨d, hd, rfl⟩ := finish_succeeds h he
    intro k hk
    exact mt Option.map_eq_none_iff.1 (read_ofList_ne_none (by rwa [decodePixels_grid_length hd]))
  | nop | csum | csval | buildN | buildI | buildB | parse | parser | isvalid | penc | imgbuild | psplitS
  | psplitM | gbmode | clear => exact absurd hi (by decide)

/-- The operation that writes `GBM`, GBMODE, writes the whole of it (42_payload_fields.md R123). -/
theorem exec_gbmWritten {i : Instr} {s t : State} (hi : Space.gbm ∈ outputSpaces i) (h : exec i s = .next t)
    (he : t.err = false) : SpaceWritten .gbm t := by
  cases i with
  | gbmode =>
    obtain ⟨fields, hf, rfl⟩ := finish_succeeds h he
    intro k hk
    exact mt Option.map_eq_none_iff.1 (read_ofList_ne_none (by rwa [boxMode_length hf]))
  | nop | csum | csval | buildN | buildI | buildB | parse | parser | isvalid | penc | imgbuild | pdec | psplitS
  | psplitM | clear => exact absurd hi (by decide)

/-- A byte of `OBUF` that holds a value holds one after an operation with a byte-string result: inside the result it
is written, and beyond it nothing changes whether it is. -/
theorem exec_obuf_keepsWritten {i : Instr} {s t : State} (hi : Space.obuf ∈ outputSpaces i)
    (h : exec i s = .next t) (he : t.err = false) {k : Nat} (hk : k < Config.bufCap)
    (hw : s.peek (.cell .obuf k) ≠ none) : t.peek (.cell .obuf k) ≠ none := by
  by_cases hisvalid : i = .isvalid
  · subst hisvalid
    exact exec_isvalid_obufWritten h k hk
  by_cases holen : k < t.olen.toNat
  · have hnop : i ≠ .nop := by rintro rfl; exact absurd hi (by decide)
    exact (exec_resultWritten h fun hn => absurd hn hnop).2 k holen
  · obtain ⟨-, hbeyond⟩ := nothingIsStoredBeyondOlen i s t h
    exact mt (hbeyond (.inl ⟨he, hisvalid⟩) k (not_lt.1 holen) hk).1 hw

/-- `OBUF` is the only space an operation may change without having it in its output set. -/
theorem eq_obuf_of_stale {i : Instr} {sp : Space} (h : sp ∈ staleSpaces i) :
    i ∈ [Instr.csum, .csval, .pdec, .gbmode] ∧ sp = .obuf := by
  cases i with
  | csum | csval | pdec | gbmode => exact ⟨by decide, List.mem_singleton.1 h⟩
  | nop | buildN | buildI | buildB | parse | parser | isvalid | penc | imgbuild | psplitS | psplitM | clear =>
    exact absurd h List.not_mem_nil

/-- Every operation leaves every written cell written (10_state.md R32). -/
theorem exec_keepsWritten {i : Instr} {s t : State} (h : exec i s = .next t) : KeepsWritten s t := by
  intro sp k hk hw
  by_cases hstale : sp ∈ staleSpaces i
  · obtain ⟨hi, rfl⟩ := eq_obuf_of_stale hstale
    exact mt ((exec_noResult hi h).2 k hk).1 hw
  by_cases hout : sp ∈ outputSpaces i
  · cases he : t.err with
    | true => exact exec_error_written h he sp hout k hk
    | false =>
      cases sp with
      | obuf => exact exec_obuf_keepsWritten hout h he hk hw
      | pal =>
        obtain ⟨pal, hpal⟩ := exec_writes_pal hout h he
        rw [ne_eq, peek_pal_eq_none] at hw ⊢
        rw [hpal]
        exact read_writeRange_ne_none hw
      | pix => exact exec_pixWritten hout h he k hk
      | gbm => exact exec_gbmWritten hout h he k hk
      | ibuf | hdr => exact absurd hout (by cases i <;> decide)
  · rw [(exec_unchanged h).1 (.cell sp k) (by simpa [outputs, locs] using ⟨hout, hstale⟩)]
    exact hw

/-- Settles O16: of the five kinds of step only a reset unwrites a cell. -/
theorem writtenCellStaysWritten : Obligations.WrittenCellStaysWritten := by
  intro s t sp k h hreset hk hw
  cases step_stepTo h with
  | outside ho => rwa [ho.peek]
  | write l v _ ht =>
    subst ht
    exact hostWrite_keepsWritten l v (takeMove s) sp k hk (by rwa [takeMove_peek])
  | reset he _ => exact absurd he hreset
  | operation i hi => exact exec_keepsWritten hi sp k hk hw
  | illegal ht =>
    subst ht
    rwa [raiseIllegal, (raiseError_unchanged _ s).1 (.cell sp k) List.not_mem_nil]

end Sys2Proof.Machine
end

section
/-! An operation reads its input set and nothing else (10_state.md R32, R33): its computation is the same in two
states that agree there, and stops at no other unwritten cell. -/

namespace Sys2Proof.Machine

/-- `s'` agrees with `s` on the locations of `inp`. -/
def AgreeOn (inp : Loc → Prop) (s s' : State) : Prop := ∀ l, inp l → s'.peek l = s.peek l

/-- `r` and `r'`, one computation in two states, read no location outside `inp`: they are equal, and stop at an
unwritten cell only where it belongs to `inp`. -/
structure ReadsWithin {α : Type} (inp : Loc → Prop) (s : State) (r r' : Result α) : Prop where
  same : r' = r
  stop : ∀ l, r = .error (.unwritten l) → inp l ∧ s.peek l = none

section
variable {α β : Type} {inp : Loc → Prop} {s s' : State}

/-! ### Computations compose -/

theorem ReadsWithin.ok (a : α) : ReadsWithin inp s (.ok a) (.ok a) := ⟨rfl, fun _ h => by cases h⟩

theorem ReadsWithin.bind {r r' : Result α} {f f' : α → Result β} (h : ReadsWithin inp s r r')
    (hf : ∀ a, r = .ok a → ReadsWithin inp s (f a) (f' a)) : ReadsWithin inp s (r >>= f) (r' >>= f') := by
  obtain ⟨rfl, hstop⟩ := h
  cases r' with
  | ok a => exact hf a rfl
  | error e => exact ⟨rfl, fun l hl => hstop l (by cases hl; rfl)⟩

/-- A check reads nothing; what follows it runs where it holds. -/
theorem ReadsWithin.check {c : Prop} [Decidable c] {e : ErrorName} {f f' : Unit → Result α}
    (hf : c → ReadsWithin inp s (f ()) (f' ())) :
    ReadsWithin inp s (require c e >>= f) (require c e >>= f') := by
  by_cases hc : c
  · rw [require_true e hc]
    exact hf hc
  · rw [require_false e hc]
    exact ⟨rfl, fun _ h => by cases h⟩

/-- Raising an error, or not, reads nothing. -/
theorem ReadsWithin.require (c : Prop) [Decidable c] (e : ErrorName) :
    ReadsWithin inp s (require c e) (require c e) :=
  ⟨rfl, fun l h => by obtain ⟨-, h⟩ := require_eq_error.1 h; cases h⟩

/-! ### Cells and registers -/

/-- `m` is what `s` lists for space `sp`. -/
def Lists {w : Nat} (s : State) (sp : Space) (m : Cells w) : Prop :=
  w ≤ 32 ∧ ∀ k, s.peek (.cell sp k) = (Cells.read m k).map (BitVec.setWidth 32)

theorem lists_ibuf (s : State) : Lists s .ibuf s.mem.ibuf := ⟨by omega, fun _ => rfl⟩
theorem lists_hdr (s : State) : Lists s .hdr s.mem.hdr := ⟨by omega, fun _ => rfl⟩
theorem lists_pal (s : State) : Lists s .pal s.mem.pal := ⟨by omega, fun _ => rfl⟩
theorem lists_pix (s : State) : Lists s .pix s.mem.pix := ⟨by omega, fun _ => rfl⟩

/-- Zero-extension to a word loses nothing. -/
theorem setWidth_word_injective {w : Nat} (hw : w ≤ 32) :
    Function.Injective (BitVec.setWidth 32 : BitVec w → Word) := fun a b h => by
  apply BitVec.eq_of_toNat_eq
  rw [← BitVec.toNat_setWidth_of_le hw, h, BitVec.toNat_setWidth_of_le hw]

/-- Reading a cell of the input set. -/
theorem fetchCell_reads {w : Nat} {sp : Space} {m m' : Cells w} {k : Nat} (hag : AgreeOn inp s s')
    (hm : Lists s sp m) (hm' : Lists s' sp m') (hk : inp (.cell sp k)) :
    ReadsWithin inp s (fetchCell sp m k) (fetchCell sp m' k) := by
  obtain ⟨hw, hread⟩ := hm
  obtain ⟨-, hread'⟩ := hm'
  have hsame : Cells.read m' k = Cells.read m k := by
    refine Option.map_injective (setWidth_word_injective hw) ?_
    rw [← hread, ← hread', hag _ hk]
  refine ⟨by rw [fetchCell, fetchCell, hsame], fun l hl => ?_⟩
  obtain ⟨hnone, heq⟩ := fetchCell_eq_error.1 hl
  cases heq
  exact ⟨hk, by rw [hread, hnone]; rfl⟩

/-- Reading a range of cells of the input set. -/
theorem fetchRange_reads {w : Nat} {sp : Space} {m m' : Cells w} {a n : Nat} (hag : AgreeOn inp s s')
    (hm : Lists s sp m) (hm' : Lists s' sp m') (hk : ∀ k, a ≤ k → k < a + n → inp (.cell sp k)) :
    ReadsWithin inp s (fetchRange sp m a n) (fetchRange sp m' a n) := by
  induction n generalizing a with
  | zero => exact .ok _
  | succ n ih =>
    refine .bind (fetchCell_reads hag hm hm' (hk a le_rfl (by omega))) fun v _ => ?_
    exact .bind (ih fun k h1 h2 => hk k (by omega) (by omega)) fun vs _ => .ok _

theorem ibufByte_reads {k : Nat} (hag : AgreeOn inp s s') (hk : inp (.cell .ibuf k)) :
    ReadsWithin inp s (ibufByte s k) (ibufByte s' k) :=
  fetchCell_reads hag (lists_ibuf s) (lists_ibuf s') hk

theorem ibufBytes_reads {a n : Nat} (hag : AgreeOn inp s s') (hk : ∀ k, a ≤ k → k < a + n → inp (.cell .ibuf k)) :
    ReadsWithin inp s (ibufBytes s a n) (ibufBytes s' a n) :=
  fetchRange_reads hag (lists_ibuf s) (lists_ibuf s') hk

/-- A register of the input set reads the same. -/
theorem AgreeOn.readReg {r : Reg} (hag : AgreeOn inp s s') (hr : inp (.reg r)) : readReg s' r = readReg s r :=
  Option.some.inj (hag _ hr)

theorem inputLength_reads (hag : AgreeOn inp s s') (hr : inp (.reg .ilen)) :
    ReadsWithin inp s (inputLength s) (inputLength s') := by
  have hilen : s'.ilen = s.ilen := hag.readReg hr
  rw [inputLength, inputLength, hilen]
  exact .check fun _ => .ok _

/-! ### The computations of the operations -/

/-- CSUM and CSVAL read the range registers, `ILEN` and the range (10_state.md R22). -/
theorem rangeBytes_reads (hag : AgreeOn inp s s') (hilen : inp (.reg .ilen)) (hrstart : inp (.reg .rstart))
    (hrend : inp (.reg .rend)) (hk : ∀ k, s.rstart.toNat ≤ k → k < s.rend.toNat → inp (.cell .ibuf k)) :
    ReadsWithin inp s (rangeBytes s) (rangeBytes s') := by
  have hrstart' : s'.rstart = s.rstart := hag.readReg hrstart
  have hrend' : s'.rend = s.rend := hag.readReg hrend
  rw [rangeBytes, rangeBytes, hrstart', hrend']
  refine .bind (inputLength_reads hag hilen) fun n _ => .check fun _ => ?_
  exact ibufBytes_reads hag fun k h1 h2 => hk k h1 (by omega)

theorem buildFrame_reads {n : Nat} {payload payload' : Result (List Byte)} (cmd : Byte)
    (h : ReadsWithin inp s payload payload') :
    ReadsWithin inp s (buildFrame cmd n payload) (buildFrame cmd n payload') :=
  .check fun _ => .bind h fun _ _ => .ok _

/-- BUILD.B reads `CMDID`, `ILEN` and the input byte string (41_framer.md R103). -/
theorem buildInput_reads (hag : AgreeOn inp s s') (hcmdid : inp (.reg .cmdid)) (hilen : inp (.reg .ilen))
    (hk : ∀ k, k < s.ilen.toNat → inp (.cell .ibuf k)) :
    ReadsWithin inp s (buildInput s) (buildInput s') := by
  have hcmdid' : s'.cmdid = s.cmdid := setWidth_word_injective (by omega) (hag.readReg hcmdid)
  rw [buildInput, buildInput, hcmdid']
  refine .bind (inputLength_reads hag hilen) fun n hn => ?_
  obtain ⟨-, rfl⟩ := inputLength_eq_ok.1 hn
  refine .bind (buildFrame_reads _ (ibufBytes_reads hag fun k _ h => hk k (by omega))) fun b _ => ?_
  exact .check fun _ => .ok _

/-- Parsing reads bytes of the input byte string alone, at each check those that the checks before it found there
(41_framer.md R104). -/
theorem parseFrame_reads {n : Nat} (shape : Shape) (hag : AgreeOn inp s s')
    (hk : ∀ k, k < n → inp (.cell .ibuf k)) :
    ReadsWithin inp s (parseFrame s n shape) (parseFrame s' n shape) := by
  have hbyte : ∀ k, k < n → ReadsWithin inp s (ibufByte s k) (ibufByte s' k) :=
    fun k h => ibufByte_reads hag (hk k h)
  refine .check fun hheader => ?_
  have hn : 4 ≤ n := le_trans (by cases shape <;> decide) hheader
  refine .bind (hbyte 1 (by omega)) fun lo _ => .bind (hbyte 2 (by omega)) fun hi _ => ?_
  refine .check fun hsize => ?_
  refine .bind (hbyte 0 (by omega)) fun start _ => .check fun _ => ?_
  refine .bind (hbyte _ (by omega)) fun stop _ => .check fun _ => .check fun hmin => ?_
  refine .bind ?_ fun _ _ => ?_
  · cases shape with
    | command => exact .ok _
    | response =>
      have h6 : 6 ≤ n := hheader
      exact .bind (hbyte 3 (by omega)) fun _ _ => .bind (hbyte 5 (by omega)) fun _ _ => .require _ _
  refine .bind (ibufBytes_reads hag fun k _ h => hk k (by omega)) fun body _ => ?_
  refine .bind (hbyte _ (by omega)) fun chkLo _ => .bind (hbyte _ (by omega)) fun chkHi _ => .check fun _ => ?_
  have hcmd : commandIndex shape < n := lt_of_lt_of_le (by cases shape <;> decide) hheader
  refine .bind (hbyte _ hcmd) fun cmd _ => ?_
  exact .bind (ibufBytes_reads hag fun k _ h => hk k (by omega)) fun payload _ => .ok _

/-- PARSE, PARSER and ISVALID read `ILEN` and the input byte string (41_framer.md R105 to R107). -/
theorem parseInput_reads (shape : Shape) (hag : AgreeOn inp s s') (hilen : inp (.reg .ilen))
    (hk : ∀ k, k < s.ilen.toNat → inp (.cell .ibuf k)) :
    ReadsWithin inp s (parseInput s shape) (parseInput s' shape) := by
  refine .bind (inputLength_reads hag hilen) fun n hn => ?_
  obtain ⟨-, rfl⟩ := inputLength_eq_ok.1 hn
  exact parseFrame_reads shape hag hk

/-- ISVALID's verdict stops at an unwritten cell only where the parse does. -/
theorem verdict_eq_unwritten {r : Result Parsed} {l : Loc} (h : verdict r = .error (.unwritten l)) :
    r = .error (.unwritten l) := by
  unfold verdict at h
  split at h
  · cases h
  · split at h <;> cases h
  · cases h; rfl

theorem verdict_reads {r r' : Result Parsed} (h : ReadsWithin inp s r r') :
    ReadsWithin inp s (verdict r) (verdict r') := by
  obtain ⟨rfl, hstop⟩ := h
  exact ⟨rfl, fun l hl => hstop l (verdict_eq_unwritten hl)⟩

/-- PSPLIT.S and PSPLIT.M read `ILEN` and the input byte string (42_payload_fields.md R122). -/
theorem splitInput_reads (h : Nat) (hag : AgreeOn inp s s') (hilen : inp (.reg .ilen))
    (hk : ∀ k, k < s.ilen.toNat → inp (.cell .ibuf k)) :
    ReadsWithin inp s (splitInput s h) (splitInput s' h) := by
  refine .bind (inputLength_reads hag hilen) fun n hn => ?_
  obtain ⟨-, rfl⟩ := inputLength_eq_ok.1 hn
  refine .check fun hcount => .bind (ibufByte_reads hag (hk h (by omega))) fun count _ => .check fun htable => ?_
  refine .bind (ibufBytes_reads hag fun k _ hlt => hk k (by omega)) fun triples _ => ?_
  exact .bind (ibufBytes_reads hag fun k _ hlt => hk k (by omega)) fun image _ => .ok _

/-- GBMODE reads `ILEN` and, where there are sixteen input bytes, those (42_payload_fields.md R123). -/
theorem boxMode_reads (hag : AgreeOn inp s s') (hilen : inp (.reg .ilen))
    (hk : ∀ k, 16 ≤ s.ilen.toNat → k < 16 → inp (.cell .ibuf k)) :
    ReadsWithin inp s (boxMode s) (boxMode s') := by
  refine .bind (inputLength_reads hag hilen) fun n hn => .check fun hfit => ?_
  obtain ⟨-, rfl⟩ := inputLength_eq_ok.1 hn
  exact ibufBytes_reads hag fun k _ hlt => hk k hfit (by rwa [Nat.zero_add] at hlt)

/-- PENC reads `NPIX` and that many pixels (43_pixel_codec.md R136). -/
theorem encodePixels_reads (hag : AgreeOn inp s s') (hnpix : inp (.reg .npix))
    (hk : ∀ k, k < s.npix.toNat → inp (.cell .pix k)) :
    ReadsWithin inp s (encodePixels s) (encodePixels s') := by
  have hnpix' : s'.npix = s.npix := hag.readReg hnpix
  rw [encodePixels, encodePixels, hnpix']
  refine .check fun _ => .check fun _ => .bind ?_ fun colours _ => .check fun _ => .ok _
  exact fetchRange_reads hag (lists_pix s) (lists_pix s') fun k _ h => hk k (by omega)

/-- IMGBUILD reads what PENC reads, and `HDR` (43_pixel_codec.md R141). -/
theorem buildImage_reads (hag : AgreeOn inp s s') (hnpix : inp (.reg .npix))
    (hk : ∀ k, k < s.npix.toNat → inp (.cell .pix k)) (hhdr : ∀ k, k < 11 → inp (.cell .hdr k)) :
    ReadsWithin inp s (buildImage s) (buildImage s') := by
  refine .bind (encodePixels_reads hag hnpix hk) fun e _ => .bind ?_ fun header _ => .ok _
  exact fetchRange_reads hag (lists_hdr s) (lists_hdr s') fun k _ h => hhdr k (by rwa [Nat.zero_add] at h)

/-- A window reads a palette entry only where its index is inside the palette (43_pixel_codec.md R143, R144). -/
theorem windowColour_reads (v : Nat) (hag : AgreeOn inp s s') (hplen : inp (.reg .plen))
    (hk : ∀ k, k < s.plen.toNat → inp (.cell .pal k)) :
    ReadsWithin inp s (windowColour s v) (windowColour s' v) := by
  have hplen' : s'.plen = s.plen := hag.readReg hplen
  rw [windowColour, windowColour, hplen']
  split
  · next hv =>
    obtain ⟨hsame, hstop⟩ := fetchCell_reads hag (lists_pal s) (lists_pal s') (hk v hv)
    rw [palEntry, palEntry, hsame]
    refine ⟨rfl, fun l hl => hstop l ?_⟩
    cases hc : fetchCell .pal s.mem.pal v with
    | ok c => rw [hc] at hl; cases hl
    | error e => rw [hc] at hl; cases hl; rfl
  · exact .ok _

theorem windowColours_reads (vs : List Nat) (hag : AgreeOn inp s s') (hplen : inp (.reg .plen))
    (hk : ∀ k, k < s.plen.toNat → inp (.cell .pal k)) :
    ReadsWithin inp s (windowColours s vs) (windowColours s' vs) := by
  induction vs with
  | nil => exact .ok _
  | cons v vs ih =>
    exact .bind (windowColour_reads v hag hplen hk) fun c _ => .bind ih fun cs _ => .ok _

/-- PDEC reads `PLEN`, `ILEN`, input bytes and palette entries (43_pixel_codec.md R143). -/
theorem decodePixels_reads (hag : AgreeOn inp s s') (hplen : inp (.reg .plen)) (hilen : inp (.reg .ilen))
    (hk : ∀ k, k < s.ilen.toNat → inp (.cell .ibuf k)) (hpal : ∀ k, k < s.plen.toNat → inp (.cell .pal k)) :
    ReadsWithin inp s (decodePixels s) (decodePixels s') := by
  have hplen' : s'.plen = s.plen := hag.readReg hplen
  rw [decodePixels, decodePixels, hplen']
  refine .bind (inputLength_reads hag hilen) fun n hn => .check fun _ => .check fun _ => ?_
  obtain ⟨-, rfl⟩ := inputLength_eq_ok.1 hn
  have hwindows : min Config.npixMax (8 * s.ilen.toNat / bpp s.plen.toNat) * bpp s.plen.toNat ≤ 8 * s.ilen.toNat :=
    le_trans (Nat.mul_le_mul_right _ (Nat.min_le_right _ _)) (Nat.div_mul_le_self _ _)
  refine .bind (ibufBytes_reads hag fun k _ h => hk k (by omega)) fun bytes _ => ?_
  exact .bind (windowColours_reads _ hag hplen hpal) fun pixels _ => .ok _

end

/-! ### The operations -/

theorem AgreeOn.refl (inp : Loc → Prop) (s : State) : AgreeOn inp s s := fun _ _ => rfl

/-- A completion step that reads within `inp` is refused only for an unwritten cell of `inp`. -/
theorem ReadsWithin.of_refused {α : Type} {inp : Loc → Prop} {s : State} {r r' : Result α}
    {commit : α → State → State} {havoc : State → State} {x : Refusal} (hr : ReadsWithin inp s r r')
    (h : finish s r commit havoc = .refused x) : ∃ l, inp l ∧ s.peek l = none ∧ x = .unwrittenCell l := by
  obtain ⟨l, hl, rfl⟩ := finish_eq_refused.1 h
  obtain ⟨hin, hnone⟩ := hr.stop l hl
  exact ⟨l, hin, hnone, rfl⟩

/-- What CSUM and CSVAL compute is a function of the input set they share (40_checksum.md R91, R92). -/
theorem rangeBytes_reads_inputs {i : Instr} (hi : i = .csum ∨ i = .csval) {s s' : State}
    (hag : AgreeOn (inputs i s) s s') : ReadsWithin (inputs i s) s (rangeBytes s) (rangeBytes s') := by
  have hregs : ∀ r ∈ [Reg.ilen, .rstart, .rend], r ∈ inputRegs i := by
    rcases hi with rfl | rfl <;> decide
  refine rangeBytes_reads hag (hregs .ilen (by decide)) (hregs .rstart (by decide)) (hregs .rend (by decide)) ?_
  rcases hi with rfl | rfl
  · exact fun _ h1 h2 => ⟨h1, h2⟩
  · exact fun _ h1 h2 => ⟨h1, h2⟩

end Sys2Proof.Machine
end

section
/-! The output set of an operation is a function of its input set alone, and an operation is refused only for its
input set (10_state.md R32, R33, R34). -/

namespace Sys2Proof.Machine

/-! ### Two states that agree on an output set -/

/-- `u` and `u'` hold the same in the listed registers, and in the cells of the listed spaces that count. -/
def SameOn (regs : List Reg) (spaces : List Space) (counts : Space → Nat → Prop) (u u' : State) : Prop :=
  (∀ r ∈ regs, readReg u' r = readReg u r) ∧
  ∀ sp ∈ spaces, ∀ k, counts sp k → u'.peek (.cell sp k) = u.peek (.cell sp k)

/-- The cells of an output set that a result fixes: of `PAL` the first `PLEN`, of `OBUF` the first `OLEN` (all of it
where `all` holds), of the others all. -/
def InResult (all : Prop) (u : State) (sp : Space) (k : Nat) : Prop :=
  (sp = .pal → k < u.plen.toNat) ∧ (sp = .obuf → all ∨ k < u.olen.toNat)

/-- `complete` reaches no register but `STATUS` and `ERRCODE`. -/
theorem readReg_complete {r : Reg} (hr : r ∉ [Reg.status, .errcode]) (u : State) :
    readReg (complete u) r = readReg u r :=
  Option.some.inj ((complete_unchanged u).1 (.reg r) hr)

/-- Raising an error reaches no location but `STATUS`, `ERRCODE` and `OLEN`. -/
theorem raiseError_free_unchanged (e : ErrorName) (u : State) (n : Nat) :
    Unchanged (locs outcomeRegs []) u (raiseError e { u with free := n }) :=
  (Unchanged.refl _ u).raiseError e n (List.Subset.refl _)

theorem readReg_raiseError {r : Reg} (hr : r ∉ outcomeRegs) (e : ErrorName) (u : State) (n : Nat) :
    readReg (raiseError e { u with free := n }) r = readReg u r :=
  Option.some.inj ((raiseError_free_unchanged e u n).1 (.reg r) hr)

theorem peek_cell_raiseError (e : ErrorName) (u : State) (n : Nat) (sp : Space) (k : Nat) :
    (raiseError e { u with free := n }).peek (.cell sp k) = u.peek (.cell sp k) :=
  (raiseError_free_unchanged e u n).1 _ List.not_mem_nil

/-- Completing gives the same outcome where VALID is the same (10_state.md R12, R16). -/
theorem complete_sameOn {rs : List Reg} {sps : List Space} {all : Prop} {u u' : State}
    (h : SameOn (.olen :: rs) sps (InResult all u) u u') (hvalid : u'.valid = u.valid) :
    SameOn (rs ++ outcomeRegs) sps (fun sp k => (complete u).err = false → InResult all (complete u) sp k)
      (complete u) (complete u') := by
  obtain ⟨hregs, hcells⟩ := h
  refine ⟨fun r hr => ?_, fun sp hsp k hk => ?_⟩
  · by_cases hout : r ∈ [Reg.status, .errcode]
    · simp only [List.mem_cons, List.not_mem_nil, or_false] at hout
      rcases hout with rfl | rfl
      · simp [readReg, statusOf, hvalid]
      · rfl
    · rw [readReg_complete hout, readReg_complete hout]
      refine hregs r ?_
      simp only [outcomeRegs, List.mem_append, List.mem_cons, List.not_mem_nil, or_false] at hr hout ⊢
      tauto
  · have hpeek : ∀ v, (complete v).peek (.cell sp k) = v.peek (.cell sp k) :=
      fun v => (complete_unchanged v).1 _ List.not_mem_nil
    rw [hpeek, hpeek]
    exact hcells sp hsp k (hk rfl)

/-- Raising an error gives the same outcome (60_exceptions.md R163). -/
theorem raiseError_sameOn {rs : List Reg} {sps : List Space} {counts : Space → Nat → Prop} {u u' : State}
    (h : SameOn rs sps (fun _ _ => True) u u') (e : ErrorName) (n n' : Nat) :
    SameOn (rs ++ outcomeRegs) sps counts (raiseError e { u with free := n })
      (raiseError e { u' with free := n' }) := by
  obtain ⟨hregs, hcells⟩ := h
  refine ⟨fun r hr => ?_, fun sp hsp k _ => ?_⟩
  · by_cases hout : r ∈ outcomeRegs
    · simp only [outcomeRegs, List.mem_cons, List.not_mem_nil, or_false] at hout
      rcases hout with rfl | rfl | rfl <;> rfl
    · rw [readReg_raiseError hout, readReg_raiseError hout]
      exact hregs r ((List.mem_append.1 hr).resolve_right hout)
  · rw [peek_cell_raiseError, peek_cell_raiseError]
    exact hcells sp hsp k trivial

/-! ### The same cells -/

theorem peek_obuf_congr {u u' : State} (hm : u'.mem.obuf = u.mem.obuf) (ho : u'.obufOpen = u.obufOpen) (k : Nat) :
    u'.peek (.cell .obuf k) = u.peek (.cell .obuf k) :=
  congrArg (Option.map (BitVec.setWidth 32)) (obufByte_congr hm ho k)

theorem peek_pal_congr {u u' : State} (hm : u'.mem.pal = u.mem.pal) (k : Nat) :
    u'.peek (.cell .pal k) = u.peek (.cell .pal k) :=
  congrArg (fun m => (Cells.read m k).map (BitVec.setWidth 32)) hm

theorem peek_pix_congr {u u' : State} (hm : u'.mem.pix = u.mem.pix) (k : Nat) :
    u'.peek (.cell .pix k) = u.peek (.cell .pix k) :=
  congrArg (fun m => (Cells.read m k).map (BitVec.setWidth 32)) hm

theorem peek_gbm_congr {u u' : State} (hm : u'.mem.gbm = u.mem.gbm) (k : Nat) :
    u'.peek (.cell .gbm k) = u.peek (.cell .gbm k) :=
  congrArg (fun m => (Cells.read m k).map (BitVec.setWidth 32)) hm

/-- Inside the byte-string result `OBUF` holds the result, whatever it held before (10_state.md R21). -/
theorem peek_obuf_setOutput {bytes : List Byte} {k : Nat} (s : State) (hk : k < (setOutput bytes s).olen.toNat) :
    (setOutput bytes s).peek (.cell .obuf k) = bytes[k]?.map (BitVec.setWidth 32) := by
  have hk' : k < bytes.length := lt_of_lt_of_le hk (Nat.mod_le _ _)
  have hread := holds_setOutput bytes s k hk'
  rw [Nat.zero_add, List.getElem?_eq_getElem hk'] at hread
  rw [List.getElem?_eq_getElem hk']
  exact congrArg (Option.map (BitVec.setWidth 32)) (obufByte_of_read hread)

/-- Inside the palette written over `PAL`, `PAL` holds the palette, whatever it held before (43_pixel_codec.md
R136). -/
theorem peek_pal_of_writeRange {pal : List Colour} {m : Cells 24} {u : State} {k : Nat}
    (hm : u.mem.pal = Cells.writeRange m 0 pal) (hplen : u.plen = BitVec.ofNat 32 pal.length)
    (hk : k < u.plen.toNat) : u.peek (.cell .pal k) = pal[k]?.map (BitVec.setWidth 32) := by
  have hk' : k < pal.length := by
    rw [hplen] at hk
    exact lt_of_lt_of_le hk (Nat.mod_le _ _)
  have hread := holds_writeRange m 0 pal k hk'
  rw [Nat.zero_add] at hread
  exact congrArg (Option.map (BitVec.setWidth 32)) ((congrArg (Cells.read · k) hm).trans hread)

/-! ### What is committed -/

section
variable {s s' : State}

theorem commitSum_sameOn (bytes : List Byte) (all : Prop) :
    SameOn [.olen, .sum] [] (InResult all (commitSum bytes s)) (commitSum bytes s) (commitSum bytes s') :=
  ⟨by simp [readReg, commitSum], List.forall_mem_nil _⟩

/-- The byte-string result is the same, and so is any register that does not depend on the state. -/
theorem setOutput_sameOn {bytes : List Byte} {rs : List Reg} {all : Prop} (hall : ¬ all)
    (hregs : ∀ r ∈ .olen :: rs, readReg (setOutput bytes s') r = readReg (setOutput bytes s) r) :
    SameOn (.olen :: rs) [.obuf] (InResult all (setOutput bytes s)) (setOutput bytes s) (setOutput bytes s') := by
  refine ⟨hregs, List.forall_mem_singleton.2 fun k hk => ?_⟩
  have hlt := (hk.2 rfl).resolve_left hall
  rw [peek_obuf_setOutput s hlt, peek_obuf_setOutput s' hlt]

theorem commitBuilt_sameOn (b : Built) {all : Prop} (hall : ¬ all) :
    SameOn [.olen, .sum, .rsize] [.obuf] (InResult all (commitBuilt b s)) (commitBuilt b s) (commitBuilt b s') :=
  setOutput_sameOn hall (by simp [readReg])

theorem commitParsed_sameOn (p : Parsed) {all : Prop} (hall : ¬ all) :
    SameOn [.olen, .rcmd, .rsize] [.obuf] (InResult all (commitParsed p s)) (commitParsed p s)
      (commitParsed p s') :=
  setOutput_sameOn hall (by simp [readReg])

/-- A palette and a byte-string result are the same. -/
theorem palette_output_sameOn {pal : List Colour} {bytes : List Byte} {rs : List Reg} {all : Prop} {m m' : Cells 24}
    (hall : ¬ all) (hm : s.mem.pal = Cells.writeRange m 0 pal) (hm' : s'.mem.pal = Cells.writeRange m' 0 pal)
    (hplen : s.plen = BitVec.ofNat 32 pal.length) (hplen' : s'.plen = BitVec.ofNat 32 pal.length)
    (hregs : ∀ r ∈ .olen :: rs, readReg (setOutput bytes s') r = readReg (setOutput bytes s) r) :
    SameOn (.olen :: rs) [.pal, .obuf] (InResult all (setOutput bytes s)) (setOutput bytes s)
      (setOutput bytes s') := by
  obtain ⟨-, hobuf⟩ := setOutput_sameOn (s := s) (s' := s') hall hregs
  refine ⟨hregs, List.forall_mem_cons.2 ⟨fun k hk => ?_, hobuf⟩⟩
  have hlt : k < s.plen.toNat := hk.1 rfl
  rw [peek_pal_of_writeRange (u := setOutput bytes s) hm hplen hlt,
    peek_pal_of_writeRange (u := setOutput bytes s') hm' hplen' (by rwa [setOutput_plen, hplen', ← hplen])]

theorem commitSplit_sameOn (p : SplitPayload) {all : Prop} (hall : ¬ all) :
    SameOn [.olen, .plen] [.pal, .obuf] (InResult all (commitSplit p s)) (commitSplit p s) (commitSplit p s') :=
  palette_output_sameOn hall rfl rfl rfl rfl (by simp [readReg])

theorem commitEncoded_sameOn (e : Encoded) {all : Prop} (hall : ¬ all) :
    SameOn [.olen, .plen, .bpp, .soff] [.pal, .obuf] (InResult all (commitEncoded e s)) (commitEncoded e s)
      (commitEncoded e s') :=
  palette_output_sameOn hall rfl rfl rfl rfl (by simp [readReg, commitPalette])

theorem commitImage_sameOn (f : ImageFrame) {all : Prop} (hall : ¬ all) :
    SameOn [.olen, .plen, .bpp, .soff, .sum, .rsize] [.pal, .obuf] (InResult all (commitImage f s))
      (commitImage f s) (commitImage f s') :=
  palette_output_sameOn hall rfl rfl rfl rfl (by simp [readReg, commitPalette])

theorem commitDecoded_sameOn (d : Decoded) (all : Prop) :
    SameOn [.olen, .bpp, .skipcnt, .trailbits] [.pix] (InResult all (commitDecoded d s)) (commitDecoded d s)
      (commitDecoded d s') :=
  ⟨by simp [readReg, commitDecoded], List.forall_mem_singleton.2 fun k _ => peek_pix_congr rfl k⟩

theorem commitGbm_sameOn (fields : List Byte) (all : Prop) :
    SameOn [.olen] [.gbm] (InResult all (commitGbm fields s)) (commitGbm fields s) (commitGbm fields s') :=
  ⟨by simp [readReg, commitGbm], List.forall_mem_singleton.2 fun k _ => peek_gbm_congr rfl k⟩

/-! ### What an error leaves unspecified is numbered by the open event -/

variable (hfree : s'.free = s.free)
include hfree

/-- The free values of one open event are the same. -/
theorem any_congr (w : Nat) (l : Loc) : s'.any w l = s.any w l := by
  rw [State.any, State.any, hfree]

/-- `OBUF` left unspecified is the same. -/
theorem havocObuf_peek_congr (k : Nat) :
    (havocObuf s').peek (.cell .obuf k) = (havocObuf s).peek (.cell .obuf k) :=
  peek_obuf_congr (u := havocObuf s) (u' := havocObuf s') rfl (congrArg some hfree) k

/-- `PAL` and `OBUF` left unspecified are the same. -/
theorem havocObuf_havocPalette_peek_congr {counts : Space → Nat → Prop} :
    ∀ sp ∈ [Space.pal, .obuf], ∀ k, counts sp k →
      (havocObuf (havocPalette s')).peek (.cell sp k) = (havocObuf (havocPalette s)).peek (.cell sp k) := by
  refine List.forall_mem_cons.2 ⟨fun k _ => peek_pal_congr ?_ k,
    List.forall_mem_singleton.2 fun k _ => havocObuf_peek_congr (s := havocPalette s) hfree k⟩
  simp only [havocObuf_mem, havocPalette_mem, hfree]

theorem havocChecked_sameOn {counts : Space → Nat → Prop} :
    SameOn [.sum] [] counts (havocChecked s) (havocChecked s') :=
  ⟨by simp [readReg, havocChecked, any_congr hfree], List.forall_mem_nil _⟩

theorem havocBuilt_sameOn {counts : Space → Nat → Prop} :
    SameOn [.sum, .rsize] [.obuf] counts (havocBuilt s) (havocBuilt s') :=
  ⟨by simp [readReg, havocBuilt, State.any, hfree],
    List.forall_mem_singleton.2 fun k _ => havocObuf_peek_congr (s := havocSum (havocRsize s)) hfree k⟩

theorem havocParsed_sameOn {counts : Space → Nat → Prop} :
    SameOn [.rcmd, .rsize] [.obuf] counts (havocParsed s) (havocParsed s') :=
  ⟨by simp [readReg, havocParsed, State.any, hfree],
    List.forall_mem_singleton.2 fun k _ => havocObuf_peek_congr (s := havocRcmd (havocRsize s)) hfree k⟩

theorem commitValid_sameOn (v : Bool) (all : Prop) :
    SameOn [.olen, .rcmd, .rsize] [.obuf] (InResult all (commitValid v s)) (commitValid v s) (commitValid v s') := by
  obtain ⟨-, hcells⟩ := havocParsed_sameOn hfree (counts := InResult all (commitValid v s))
  exact ⟨by simp [readReg, commitValid, havocParsed, State.any, hfree], hcells⟩

theorem havocSplit_sameOn {counts : Space → Nat → Prop} :
    SameOn [.plen] [.pal, .obuf] counts (havocSplit s) (havocSplit s') :=
  ⟨by simp [readReg, havocSplit, State.any, hfree],
    havocObuf_havocPalette_peek_congr (s := s) hfree⟩

theorem havocEncoded_sameOn {counts : Space → Nat → Prop} :
    SameOn [.plen, .bpp, .soff] [.pal, .obuf] counts (havocEncoded s) (havocEncoded s') :=
  ⟨by simp [readReg, havocEncoded, State.any, hfree],
    havocObuf_havocPalette_peek_congr (s := havocBpp (havocSoff s)) hfree⟩

theorem havocImage_sameOn {counts : Space → Nat → Prop} :
    SameOn [.plen, .bpp, .soff, .sum, .rsize] [.pal, .obuf] counts (havocImage s) (havocImage s') :=
by
  have hbuilt : (havocBuilt s').free = (havocBuilt s).free := hfree
  obtain ⟨-, hcells⟩ := havocEncoded_sameOn hbuilt (counts := counts)
  refine ⟨?_, hcells⟩
  simp [readReg, havocImage, havocEncoded, havocBuilt, State.any, hfree]

theorem havocDecoded_sameOn {counts : Space → Nat → Prop} :
    SameOn [.bpp, .skipcnt, .trailbits] [.pix] counts (havocDecoded s) (havocDecoded s') :=
  ⟨by simp [readReg, havocDecoded, State.any, hfree],
    List.forall_mem_singleton.2 fun k _ =>
      peek_pix_congr (by simp [havocDecoded, hfree]) k⟩

theorem havocBoxMode_sameOn {counts : Space → Nat → Prop} :
    SameOn [] [.gbm] counts (havocBoxMode s) (havocBoxMode s') :=
  ⟨List.forall_mem_nil _,
    List.forall_mem_singleton.2 fun k _ =>
      peek_gbm_congr (by simp [havocBoxMode, hfree]) k⟩

end

/-! ### The operations -/

/-- Operation `i` runs alike from `s` and from `s'`: one completion step whose computations read within the input
set, with results that give the same output set, and the same unspecified values after an error. -/
def RunsAlike (i : Instr) (s s' : State) : Prop :=
  ∃ (α : Type) (r r' : Result α) (commit : α → State → State) (havoc : State → State) (rs : List Reg),
    exec i s = finish s r commit havoc ∧ exec i s' = finish s' r' commit havoc ∧
    ReadsWithin (inputs i s) s r r' ∧ outputRegs i = rs ++ outcomeRegs ∧
    (∀ a, SameOn (.olen :: rs) (outputSpaces i) (InResult (i = .isvalid) (commit a s)) (commit a s) (commit a s') ∧
      (commit a s').valid = (commit a s).valid) ∧
    SameOn rs (outputSpaces i) (fun _ _ => True) (havoc s) (havoc s')

/-- A register of the input set, as an element of it. -/
theorem inputs_reg {i : Instr} {s : State} {r : Reg} (h : r ∈ inputRegs i) : inputs i s (.reg r) := h

/-- Every operation that is one `finish` runs alike from states that agree on its input set. -/
theorem exec_runsAlike {i : Instr} {s s' : State} (hi : i ∉ [Instr.nop, .csval, .clear])
    (hag : AgreeOn (inputs i s) s s') (hfree : s'.free = s.free) (hvalid : s'.valid = s.valid) :
    RunsAlike i s s' := by
  cases i with
  | nop | csval | clear => exact absurd (by decide) hi
  | csum =>
    exact ⟨_, _, _, _, _, [.sum], rfl, rfl, rangeBytes_reads_inputs (.inl rfl) hag, rfl,
      fun b => ⟨commitSum_sameOn b _, hvalid⟩, havocChecked_sameOn hfree⟩
  | buildN =>
    have hcmdid : s'.cmdid = s.cmdid :=
      setWidth_word_injective (by omega) (hag.readReg (r := .cmdid) (inputs_reg (by decide)))
    exact ⟨_, _, _, _, _, [.sum, .rsize], exec_buildN_eq_finish s, exec_buildN_eq_finish s',
      hcmdid ▸ buildFrame_reads _ (.ok _), rfl,
      fun b => ⟨commitBuilt_sameOn b nofun, hvalid⟩, havocBuilt_sameOn hfree⟩
  | buildI =>
    have hcmdid : s'.cmdid = s.cmdid :=
      setWidth_word_injective (by omega) (hag.readReg (r := .cmdid) (inputs_reg (by decide)))
    have himm : s'.imm = s.imm :=
      setWidth_word_injective (by omega) (hag.readReg (r := .imm) (inputs_reg (by decide)))
    exact ⟨_, _, _, _, _, [.sum, .rsize], exec_buildI_eq_finish s, exec_buildI_eq_finish s',
      hcmdid ▸ himm ▸ buildFrame_reads _ (.ok _), rfl,
      fun b => ⟨commitBuilt_sameOn b nofun, hvalid⟩, havocBuilt_sameOn hfree⟩
  | buildB =>
    exact ⟨_, _, _, _, _, [.sum, .rsize], rfl, rfl,
      buildInput_reads hag (inputs_reg (by decide)) (inputs_reg (by decide)) fun _ hk => hk, rfl,
      fun b => ⟨commitBuilt_sameOn b nofun, hvalid⟩, havocBuilt_sameOn hfree⟩
  | parse | parser =>
    exact ⟨_, _, _, _, _, [.rcmd, .rsize], rfl, rfl,
      parseInput_reads _ hag (inputs_reg (by decide)) fun _ hk => hk, rfl,
      fun p => ⟨commitParsed_sameOn p nofun, hvalid⟩, havocParsed_sameOn hfree⟩
  | isvalid =>
    exact ⟨_, _, _, _, _, [.rcmd, .rsize], rfl, rfl,
      verdict_reads (parseInput_reads _ hag (inputs_reg (by decide)) fun _ hk => hk), rfl,
      fun v => ⟨commitValid_sameOn hfree v _, rfl⟩, havocParsed_sameOn hfree⟩
  | penc =>
    exact ⟨_, _, _, _, _, [.plen, .bpp, .soff], rfl, rfl,
      encodePixels_reads hag (inputs_reg (by decide)) fun _ hk => hk, rfl,
      fun e => ⟨commitEncoded_sameOn e nofun, hvalid⟩, havocEncoded_sameOn hfree⟩
  | imgbuild =>
    exact ⟨_, _, _, _, _, [.plen, .bpp, .soff, .sum, .rsize], rfl, rfl,
      buildImage_reads hag (inputs_reg (by decide)) (fun _ hk => hk) fun _ hk => hk, rfl,
      fun f => ⟨commitImage_sameOn f nofun, hvalid⟩, havocImage_sameOn hfree⟩
  | pdec =>
    exact ⟨_, _, _, _, _, [.bpp, .skipcnt, .trailbits], rfl, rfl,
      decodePixels_reads hag (inputs_reg (by decide)) (inputs_reg (by decide)) (fun _ hk => hk) fun _ hk => hk, rfl,
      fun d => ⟨commitDecoded_sameOn d _, hvalid⟩, havocDecoded_sameOn hfree⟩
  | psplitS | psplitM =>
    exact ⟨_, _, _, _, _, [.plen], rfl, rfl,
      splitInput_reads _ hag (inputs_reg (by decide)) fun _ hk => hk, rfl,
      fun p => ⟨commitSplit_sameOn p nofun, hvalid⟩, havocSplit_sameOn hfree⟩
  | gbmode =>
    exact ⟨_, _, _, _, _, [], rfl, rfl,
      boxMode_reads hag (inputs_reg (by decide)) fun _ h1 h2 => ⟨h1, h2⟩, rfl,
      fun f => ⟨commitGbm_sameOn f _, hvalid⟩, havocBoxMode_sameOn hfree⟩

/-! ### Refusals -/

/-- No operation faults. -/
theorem exec_ne_fault (i : Instr) (s : State) (f : Fault) : exec i s ≠ .fault f := by
  by_cases hi : i ∈ [Instr.nop, .csval, .clear]
  · simp only [List.mem_cons, List.not_mem_nil, or_false] at hi
    rcases hi with rfl | rfl | rfl
    · exact nofun
    · cases hr : rangeBytes s with
      | ok bytes => rw [exec_csval_of_ok hr]; exact finish_ne_fault
      | error e => rw [exec_csval_of_error hr]; exact finish_ne_fault
    · exact nofun
  · obtain ⟨α, r, commit, havoc, hexec⟩ := exec_eq_finish hi s
    rw [hexec]
    exact finish_ne_fault

/-- An operation is refused only for an unwritten cell of its input set (10_state.md R32). -/
theorem exec_refused {i : Instr} {s : State} {x : Refusal} (h : exec i s = .refused x) :
    ∃ l, inputs i s l ∧ s.peek l = none ∧ x = .unwrittenCell l := by
  by_cases hi : i ∈ [Instr.nop, .csval, .clear]
  · simp only [List.mem_cons, List.not_mem_nil, or_false] at hi
    rcases hi with rfl | rfl | rfl
    · cases h
    · cases hr : rangeBytes s with
      | ok bytes =>
        rw [exec_csval_of_ok hr] at h
        obtain ⟨l, hl, -⟩ := finish_eq_refused.1 h
        obtain ⟨-, hl⟩ := require_eq_error.1 hl
        cases hl
      | error e =>
        rw [exec_csval_of_error hr] at h
        obtain ⟨l, hl, rfl⟩ := finish_eq_refused.1 h
        cases hl
        obtain ⟨hin, hnone⟩ := (rangeBytes_reads_inputs (.inr rfl) (AgreeOn.refl _ s)).stop l hr
        exact ⟨l, hin, hnone, rfl⟩
    · cases h
  · obtain ⟨α, r, r', commit, havoc, rs, hexec, -, hreads, -⟩ := exec_runsAlike hi (AgreeOn.refl _ s) rfl rfl
    rw [hexec] at h
    exact hreads.of_refused h

/-- Settles O29: an outcome is a next state, a fault or a refusal, and the last two are excluded. -/
theorem operationCompletesWhenInputsAreWritten : Obligations.OperationCompletesWhenInputsAreWritten := by
  refine fun i s => ⟨fun hw => ?_, exec_ne_fault i s, fun x => exec_refused⟩
  cases hexec : exec i s with
  | next t => exact ⟨t, rfl⟩
  | fault f => exact absurd hexec (exec_ne_fault i s f)
  | refused x =>
    obtain ⟨l, hin, hnone, -⟩ := exec_refused hexec
    exact absurd hnone (hw l hin)

/-! ### The output set -/

/-- Two completion steps of the same computation give the same output set, if what they commit and what an error
leaves is the same. -/
theorem finish_sameOn {α : Type} {rs : List Reg} {sps : List Space} {all : Prop} {s s' t : State} {r : Result α}
    {commit : α → State → State} {havoc : State → State} (h : finish s r commit havoc = .next t)
    (hcommit : ∀ a, SameOn (.olen :: rs) sps (InResult all (commit a s)) (commit a s) (commit a s') ∧
      (commit a s').valid = (commit a s).valid)
    (hhavoc : SameOn rs sps (fun _ _ => True) (havoc s) (havoc s')) :
    ∃ t', finish s' r commit havoc = .next t' ∧
      SameOn (rs ++ outcomeRegs) sps (fun sp k => t.err = false → InResult all t sp k) t t' := by
  rcases finish_eq_next.1 h with ⟨a, rfl, rfl⟩ | ⟨e, rfl, rfl⟩
  · obtain ⟨hsame, hvalid⟩ := hcommit a
    exact ⟨_, finish_ok s' a commit havoc, complete_sameOn hsame hvalid⟩
  · exact ⟨_, finish_raised s' e commit havoc, raiseError_sameOn hhavoc e _ _⟩

/-- CLEAR leaves its whole output set zero (44_system.md R151). -/
theorem execClear_readReg {s t : State} (h : execClear s = .next t) : ∀ r ∈ outputRegs .clear, readReg t r = 0 := by
  cases h
  simp only [outputRegs, outcomeRegs, List.forall_mem_cons]
  exact ⟨rfl, rfl, rfl, rfl, rfl, rfl, rfl, (by decide : statusWord false false false false = 0), rfl, rfl,
    List.forall_mem_nil _⟩

/-- R33: the output set of an operation is a function of its input set. -/
theorem exec_sameOn {i : Instr} {s s' t : State} (hag : AgreeOn (inputs i s) s s') (hfree : s'.free = s.free)
    (hvalid : s'.valid = s.valid) (h : exec i s = .next t) :
    ∃ t', exec i s' = .next t' ∧
      SameOn (outputRegs i) (outputSpaces i) (fun sp k => t.err = false → InResult (i = .isvalid) t sp k) t t' := by
  by_cases hi : i ∈ [Instr.nop, .csval, .clear]
  · simp only [List.mem_cons, List.not_mem_nil, or_false] at hi
    rcases hi with rfl | rfl | rfl
    · cases h
      refine ⟨_, rfl, ?_, List.forall_mem_nil _⟩
      simp [outputRegs, readReg, statusOf, hvalid]
    · have hreads := rangeBytes_reads_inputs (.inr rfl) hag
      cases hr : rangeBytes s with
      | ok bytes =>
        have hexpect : s'.expect = s.expect :=
          setWidth_word_injective (by omega) (hag.readReg (r := .expect) (inputs_reg (by decide)))
        rw [exec_csval_of_ok hr] at h
        rw [exec_csval_of_ok (hreads.same.trans hr), hexpect]
        obtain ⟨hsum, hnone⟩ := commitSum_sameOn (s := s) (s' := s') bytes (Instr.csval = .isvalid)
        exact finish_sameOn h (fun _ => ⟨⟨hsum, hnone⟩, hvalid⟩)
          ⟨fun r hr => hsum r (List.mem_cons_of_mem _ hr), List.forall_mem_nil _⟩
      | error e =>
        rw [exec_csval_of_error hr] at h
        rw [exec_csval_of_error (hreads.same.trans hr)]
        rcases finish_eq_next.1 h with ⟨a, ha, -⟩ | ⟨e', he, rfl⟩
        · cases ha
        · cases he
          exact ⟨_, rfl, raiseError_sameOn (havocChecked_sameOn hfree) e' _ _⟩
    · have hzero := execClear_readReg h
      refine ⟨_, rfl, fun r hr => ?_, List.forall_mem_nil _⟩
      rw [hzero r hr, execClear_readReg (s := s') rfl r hr]
  · obtain ⟨α, r, r', commit, havoc, rs, hexec, hexec', hreads, hregs, hcommit, hhavoc⟩ :=
      exec_runsAlike hi hag hfree hvalid
    rw [hexec] at h
    rw [hexec', hreads.same, hregs]
    exact finish_sameOn h hcommit hhavoc

/-- Settles O28. -/
theorem outputSetDependsOnInputSetAlone : Obligations.OutputSetDependsOnInputSetAlone :=
  fun _ _ _ _ hag hfree hvalid h => exec_sameOn hag hfree hvalid h

end Sys2Proof.Machine
end

section
/-! The host port (20_memory.md R43 to R48, 70_reset_and_hazards.md R194, R207): where the address decoder sends an
access, and what the step for an access inside or outside the interface does in either phase. -/

namespace Sys2Proof

/-! ### The address decoder -/

/-- An access with a byte outside the window (20_memory.md R43; log entry 12). -/
theorem decodeAccess_outsideWindow {a : Access} (h : 0x60000 < a.offset + a.size) :
    decodeAccess a = .error .outsideWindow := by
  have hwindow : a.insideWindow = false := decide_eq_false (not_le.2 h)
  simp [decodeAccess, hwindow]

/-- An access inside the window that is not one aligned access of the unit's width (20_memory.md R44). -/
theorem decodeAccess_badShape {a : Access} (hin : a.offset + a.size ≤ 0x60000)
    (h : a.size ≠ 1 ∧ a.size ≠ 4 ∨ a.offset % a.size ≠ 0 ∨
      ∃ n, (locate a.offset).unit = some n ∧ n ≠ a.size) :
    decodeAccess a = .error .badShape := by
  have hwindow : a.insideWindow = true := decide_eq_true hin
  rcases h with ⟨h1, h4⟩ | hmod | ⟨n, hunit, hn⟩
  · simp [decodeAccess, hwindow, Access.sizeOk, h1, h4]
  · simp [decodeAccess, hwindow, Access.aligned, hmod]
  · simp [decodeAccess, hwindow, hunit, hn]

/-- A register is reached by a read of four bytes at its offset (20_memory.md R43, R44). -/
theorem decodeAccess_readReg (r : Reg) : decodeAccess (.read 4 r.offset) = .ok (.reg r) :=
  Machine.decodeAccess_writeReg r (.lit 0)

/-- A cell is reached by a read of its space's unit at its offset (20_memory.md R43, R44). -/
theorem decodeAccess_readCell {sp : Space} {i : Nat} (h : i < Config.cells sp) :
    decodeAccess (.read sp.unit (sp.base + sp.unit * i)) = .ok (.cell sp i) :=
  decodeAccess_writeCell h (.lit 0)

/-- In a byte space cell `i` is byte `i` from the base on. -/
theorem decodeAccess_readByte {sp : Space} {i : Nat} (hunit : sp.unit = 1) (h : i < Config.cells sp) :
    decodeAccess (.read 1 (sp.base + i)) = .ok (.cell sp i) := by
  have hread := decodeAccess_readCell h
  rwa [hunit, Nat.one_mul] at hread

/-- Among the registers the map leaves out offset 0x34 and those from 0x50 on (20_memory.md R43,
90_conflicts.md C8). -/
theorem locate_reserved_among_registers :
    ∀ o < 0x80, (0x34 ≤ o ∧ o < 0x38 ∨ 0x50 ≤ o) → locate o = .reserved o := by decide

/-- Behind the registers an offset in no space is reserved (20_memory.md R43). -/
theorem locate_reserved_among_spaces {o : Nat} (hlow : 0x80 ≤ o) (h : ∀ sp : Space, sp.contains o = false) :
    locate o = .reserved o := by
  simp [locate, not_lt.2 hlow, h]

/-- The offsets behind the registers that lie in no space, by their ranges (20_memory.md R43). -/
theorem not_contains_of_gap {o : Nat}
    (h : 0x0008B ≤ o ∧ o < 0x000C0 ∨ 0x000D0 ≤ o ∧ o < 0x00400 ∨ 0x00C00 ≤ o ∧ o < 0x20000 ∨
      0x30003 ≤ o ∧ o < 0x40000 ∨ 0x50003 ≤ o) (sp : Space) : sp.contains o = false := by
  rw [Bool.eq_false_iff, ne_eq, Space.contains_iff, Config.cells_eq]
  cases sp <;> simp only [Space.base, Space.unit] <;> omega

/-- A one-byte read reaches a reserved offset of the window (log entry 13). -/
theorem decodeAccess_readReserved {o : Nat} (hin : o < 0x60000) (h : locate o = .reserved o) :
    decodeAccess (.read 1 o) = .ok (.reserved o) := by
  have hwindow : (Access.read 1 o).insideWindow = true := decide_eq_true hin
  have haligned : (Access.read 1 o).aligned = true := beq_iff_eq.2 (Nat.mod_one o)
  simp [decodeAccess, hwindow, haligned, Access.sizeOk, Access.size, Access.offset, h, Loc.unit]

end Sys2Proof

namespace Sys2Proof.Machine

/-- Settles O11: the registers and the cells stand at their offsets, and the ranges left over lie in no space. -/
theorem registerMapReachesEveryLocation : Obligations.RegisterMapReachesEveryLocation := by
  refine ⟨fun p hp => ?_, fun i => decodeAccess_readByte (sp := .hdr) rfl,
    fun i => decodeAccess_readByte (sp := .gbm) rfl, fun i => decodeAccess_readCell (sp := .pal),
    fun i => decodeAccess_readCell (sp := .pix), fun i => decodeAccess_readByte (sp := .ibuf) rfl,
    fun i => decodeAccess_readByte (sp := .obuf) rfl, fun o ho => ?_⟩
  · have hoffset : p.1 = p.2.offset := by
      revert p
      decide
    rw [hoffset]
    exact decodeAccess_readReg p.2
  · refine decodeAccess_readReserved (by omega) ?_
    by_cases hlow : o < 0x80
    · exact locate_reserved_among_registers o hlow (by omega)
    · exact locate_reserved_among_spaces (not_lt.1 hlow) (not_contains_of_gap (by omega))

/-! ### Accesses outside the interface -/

/-- In phase IDLE an access is the step. -/
theorem step_access_idle {s : State} {a : Access} {ms : List Move} (hp : s.phase = .idle)
    (hm : s.moves = .access a :: ms) : step s = idleAccess a (takeMove s) := by
  rw [step_host (.inl hp) hm]
  simp only [hostMove, hp]

/-- An access the decoder rejects stops the run, in either phase (20_memory.md R43, R44). -/
theorem step_rejected_access {s : State} {a : Access} {ms : List Move} {e : AccessError}
    (h : s.phase = .idle ∨ s.busyFor ≠ 0) (hm : s.moves = .access a :: ms) (hd : decodeAccess a = .error e) :
    step s = accessStop a e := by
  cases hp : s.phase with
  | idle => rw [step_access_idle hp hm, idleAccess, hd]
  | busy =>
    have hb : s.busyFor ≠ 0 := h.resolve_left (by simp [hp])
    rw [step_access_busy hp hb hm, busyAccess, hd]

/-- Settles O9. -/
theorem accessOfTheWrongShapeIsRefused : Obligations.AccessOfTheWrongShapeIsRefused :=
  fun _ _ _ h hm hin hshape => step_rejected_access h hm (decodeAccess_badShape hin hshape)

/-- Settles O10. -/
theorem accessOutsideTheWindowFaults : Obligations.AccessOutsideTheWindowFaults :=
  fun _ _ _ h hm hout => step_rejected_access h hm (decodeAccess_outsideWindow hout)

/-! ### Phase BUSY -/

/-- In phase BUSY an access to anything but `CTRL` and `STATUS` is a breach of the host's duty
(70_reset_and_hazards.md R194, R207). -/
theorem busyAccess_breach {a : Access} {l : Loc} {s : State} (hd : decodeAccess a = .ok l)
    (hl : ¬ (l = .reg .ctrl ∨ l = .reg .status)) : busyAccess a s = .refused (.hostAccessWhileBusy l) := by
  simp only [busyAccess, hd, if_neg hl]

/-- A host read of a register returns what the register holds (10_state.md R14). -/
theorem hostRead_reg_rdata (n : Nat) (r : Reg) (s : State) :
    some (hostRead n (.reg r) s).rdata = s.peek (.reg r) := rfl

/-- Settles O8: a breach is refused; a read of `CTRL` or `STATUS` is a host read, and a write to one of them only
takes its move off the list. -/
theorem busyHostAccessOnlyToStatusAndCtrl : Obligations.BusyHostAccessOnlyToStatusAndCtrl := by
  intro s a ms n l hp hb hm hd
  have hstep : step s = busyAccess a (takeMove s) := step_access_busy hp (by omega) hm
  have hms : (takeMove s).moves = ms := by rw [takeMove_moves, hm]; rfl
  have hn : (takeMove s).busyFor = n := by rw [takeMove_busyFor, hb]; rfl
  refine ⟨fun hl => hstep.trans (busyAccess_breach hd (not_or.2 hl)), fun hl => ?_⟩
  cases a with
  | read size offset =>
    refine ⟨_, hstep.trans (busyAccess_read hd hl), (hostRead_phase _ _ _).trans hp,
      (hostRead_moves _ _ _).trans hms, (hostRead_busyFor _ _ _).trans hn,
      fun l' => by rw [hostRead_peek, takeMove_peek], fun _ _ _ => ?_⟩
    rw [← takeMove_peek s l]
    rcases hl with rfl | rfl <;> exact hostRead_reg_rdata _ _ _
  | write size offset d =>
    exact ⟨_, hstep.trans (busyAccess_write hd hl), hp, hms, hn, takeMove_peek s, fun _ _ h => nomatch h⟩

/-! ### Phase IDLE -/

/-- In phase IDLE a read of a location of the interface is one step, a host read (20_memory.md R45). -/
theorem step_read_idle {s : State} {size offset : Nat} {ms : List Move} {l : Loc} (hp : s.phase = .idle)
    (hm : s.moves = .access (.read size offset) :: ms) (hd : decodeAccess (.read size offset) = .ok l) :
    step s = .next (hostRead size l (takeMove s)) := by
  rw [step_access_idle hp hm]
  simp only [idleAccess, hd]

/-- In phase IDLE a write to a location of the interface is one step, a host write (20_memory.md R45). -/
theorem step_write_idle {s : State} {size offset : Nat} {d : Datum} {ms : List Move} {l : Loc}
    (hp : s.phase = .idle) (hm : s.moves = .access (.write size offset d) :: ms)
    (hd : decodeAccess (.write size offset d) = .ok l) :
    step s = .next (hostWrite l (datumValue s d) (takeMove s)) := by
  rw [step_access_idle hp hm]
  simp only [idleAccess, hd, datumValue_takeMove]

/-- Settles O13: the step is `hostRead`, which changes no location. -/
theorem hostReadHasNoSideEffect : Obligations.HostReadHasNoSideEffect := by
  intro s size offset ms l hp hm hd
  refine ⟨_, step_read_idle hp hm hd, (hostRead_phase _ _ _).trans hp, ?_, fun l' => ?_, fun v hv => ?_⟩
  · rw [hostRead_moves, takeMove_moves, hm]; rfl
  · rw [hostRead_peek, takeMove_peek]
  · exact hostRead_rdata ((takeMove_peek s l).trans hv)

/-- Settles O15: the first read leaves the location as it was, so both return what it held. -/
theorem twoReadsOfOneLocationAgree : Obligations.TwoReadsOfOneLocationAgree := by
  intro s size offset ms l hp hm hd hheld
  obtain ⟨v, hv⟩ := Option.ne_none_iff_exists'.1 hheld
  obtain ⟨t, hst, htp, htm, htpeek, htv⟩ := hostReadHasNoSideEffect s size offset _ l hp hm hd
  obtain ⟨u, htu, -, hum, -, huv⟩ := hostReadHasNoSideEffect t size offset ms l htp htm hd
  exact ⟨t, u, hst, htu, hum, (huv v ((htpeek l).trans hv)).trans (htv v hv).symm⟩

/-- Settles O12: a host write to a reserved offset only takes its move off the list. -/
theorem reservedOffsetsIgnoreWrites : Obligations.ReservedOffsetsIgnoreWrites := by
  intro s size o o' d ms hp hm hd
  refine ⟨takeMove s, step_write_idle hp hm hd, hp, ?_, takeMove_peek s⟩
  rw [takeMove_moves, hm]; rfl

end Sys2Proof.Machine
end

section
/-! The opcode map (30_encoding.md R72 to R74) and the statements of the host script notation (R76, R77): a poll, an
`OP` statement, `LOOP` and `IN`. -/

namespace Sys2Proof.Machine

/-! ### The opcode map -/

/-- Settles O25: `eq_encode_of_decode` one way, `decode_encode` the other. -/
theorem decodeAndEncodeAgree : Obligations.DecodeAndEncodeAgree :=
  fun _ i => ⟨eq_encode_of_decode, fun h => h ▸ decode_encode i⟩

/-- Settles O26: the listed words are the encodings, so a word that is not listed is no encoding. -/
theorem opcodeMapDecodes : Obligations.OpcodeMapDecodes := by
  refine ⟨fun p hp => ?_, fun w hw => decode_error_of_ne_encode fun i hi => hw ?_⟩
  · have hencode : p.1 = encode p.2 := by
      revert p
      decide
    exact hencode ▸ decode_encode p.2
  · rw [← hi]
    cases i <;> decide

/-- Settles O5: the start step latches any word, and the completion step of an illegal one is `raiseIllegal`. -/
theorem illegalWordRaisesIllegalOp : Obligations.IllegalWordRaisesIllegalOp := by
  intro w hw
  refine ⟨fun s d ms hp hm hv => ⟨_, step_ctrl_write hp hm, rfl, hv⟩, fun s hp hdue hlatch => ?_⟩
  subst hlatch
  exact ⟨_, step_illegal hp hdue hw, raiseError_failed _ _, raiseError_unchanged _ _⟩

/-! ### Polls -/

/-- A poll in phase IDLE reads `STATUS`, and the host goes on (30_encoding.md R76). -/
theorem step_poll_idle {s : State} {ms : List Move} (hp : s.phase = .idle) (hm : s.moves = .poll :: ms) :
    step s = .next (hostRead 4 (.reg .status) (takeMove s)) := by
  rw [step_host (.inl hp) hm]
  simp only [hostMove, hp]

/-- Bit 0 of what a read of `STATUS` returns is BUSY (10_state.md R16). -/
theorem hostRead_status_busy (n : Nat) (s : State) :
    (hostRead n (.reg .status) s).rdata.getLsbD 0 = (s.phase == .busy) :=
  statusWord_getLsbD _ _ _ _ 0

/-- Settles O21: in either phase the step is a host read of `STATUS`, and only in phase IDLE is the poll taken off
the list. -/
theorem pollWaitsForIdle : Obligations.PollWaitsForIdle := by
  intro s ms hm
  refine ⟨fun hp => ⟨_, step_poll_idle hp hm, (hostRead_phase _ _ _).trans hp, ?_, ?_, ?_, fun l => ?_⟩,
    fun n hp hb => ⟨_, step_poll_busy hp hb hm, (hostRead_phase _ _ _).trans hp, hostRead_moves _ _ _, ?_, rfl, ?_,
      fun l => ?_⟩⟩
  · rw [hostRead_moves, takeMove_moves, hm]; rfl
  · rw [hostRead_reg_rdata, takeMove_peek]
  · rw [hostRead_status_busy, takeMove_phase, hp]; rfl
  · rw [hostRead_peek, takeMove_peek]
  · rw [hostRead_busyFor, hb]; rfl
  · rw [hostRead_status_busy, hp]; rfl
  · rw [hostRead_peek]
    exact BusyLater.peek ⟨s.moves, s.rdata, s.busyFor - 1, rfl⟩ l

/-! ### `OP` -/

/-- Which cells an operation reads depends on the registers of its input set alone (10_state.md R33). -/
theorem inputCells_congr {i : Instr} {s t : State} (h : ∀ r ∈ inputRegs i, readReg t r = readReg s r) (sp : Space)
    (k : Nat) : inputCells t i sp k ↔ inputCells s i sp k := by
  cases i with
  | nop | clear | buildN | buildI => exact Iff.rfl
  | csum | csval =>
    have hrstart : t.rstart = s.rstart := h .rstart (by decide)
    have hrend : t.rend = s.rend := h .rend (by decide)
    cases sp <;> simp only [inputCells, hrstart, hrend]
  | buildB | parse | parser | isvalid | psplitS | psplitM | gbmode =>
    have hilen : t.ilen = s.ilen := h .ilen (by decide)
    cases sp <;> simp only [inputCells, hilen]
  | penc | imgbuild =>
    have hnpix : t.npix = s.npix := h .npix (by decide)
    cases sp <;> simp only [inputCells, hnpix]
  | pdec =>
    have hilen : t.ilen = s.ilen := h .ilen (by decide)
    have hplen : t.plen = s.plen := h .plen (by decide)
    cases sp <;> simp only [inputCells, hilen, hplen]

/-- An input set that is written stays so while its locations hold what they held. -/
theorem InputsWritten.of_agree {i : Instr} {s t : State} (h : InputsWritten i s)
    (hag : AgreeOn (inputs i s) s t) : InputsWritten i t := by
  have hinputs : ∀ l, inputs i t l → inputs i s l := by
    intro l hl
    cases l with
    | reg r => exact hl
    | cell sp k => exact (inputCells_congr (fun r hr => hag.readReg (inputs_reg hr)) sp k).1 hl
    | reserved o => exact hl
  intro l hl
  rw [hag l (hinputs l hl)]
  exact h l (hinputs l hl)

/-- An operation ends in phase IDLE, with DONE set unless it is CLEAR (10_state.md R12, 44_system.md R151). -/
theorem exec_phase_done {i : Instr} {s t : State} (h : exec i s = .next t) :
    t.phase = .idle ∧ (t.done = false ↔ i = .clear) := by
  by_cases hclear : i = .clear
  · subst hclear
    cases h
    exact ⟨rfl, by simp⟩
  · rcases (exec_ends h).resolve_left hclear with ⟨u, rfl⟩ | ⟨e, u, rfl⟩ <;> simp [hclear]

/-- The opcode latch is neither an input nor an output of an operation (10_state.md R33). -/
theorem ctrl_not_input_output (i : Instr) : Reg.ctrl ∉ inputRegs i ∧ Reg.ctrl ∉ outputRegs i := by
  cases i <;> decide

/-- `STATUS` and `ERRCODE` are in every output set (10_state.md R33). -/
theorem status_errcode_output (i : Instr) : Reg.status ∈ outputRegs i ∧ Reg.errcode ∈ outputRegs i := by
  cases i <;> decide

/-- What the start step writes is the latch or an output of every operation (10_state.md R12, R33). -/
theorem not_started_of_not_output {i : Instr} {l : Loc} (hctrl : l ≠ .reg .ctrl) (hl : ¬ outputs i l) :
    l ∉ [Loc.reg .ctrl, .reg .status, .reg .errcode] := by
  obtain ⟨hstatus, herrcode⟩ := status_errcode_output i
  intro hmem
  simp only [List.mem_cons, List.not_mem_nil, or_false] at hmem
  rcases hmem with rfl | rfl | rfl
  · exact hctrl rfl
  · exact hl hstatus
  · exact hl herrcode

/-- The start step writes no input of an operation (10_state.md R12, R33). -/
theorem not_started_of_input {i : Instr} {s : State} {l : Loc} (h : inputs i s l) :
    l ∉ [Loc.reg .ctrl, .reg .status, .reg .errcode] := by
  refine not_started_of_not_output ?_ (inputs_not_outputs h)
  rintro rfl
  exact (ctrl_not_input_output i).1 h

/-- Settles O22: the start step and phase BUSY up to the completion step, that step, and the poll that reads
`BUSY = 0`. -/
theorem opStatementEndsInIdle : Obligations.OpStatementEndsInIdle := by
  intro s i ms hp hm hw
  obtain ⟨k, u, left, hrun, hleft, hum, -, hlatch, -, -, -, -, hpeek, hexec, -⟩ :=
    startedOperationReachesItsCompletion s (.lit (encode i)) [] (.poll :: ms) hp hm (List.forall_mem_nil _) (.inr rfl)
  obtain rfl := List.suffix_nil.1 hleft
  have hwu : InputsWritten i u := hw.of_agree fun l hl => hpeek l (not_started_of_input hl)
  obtain ⟨t, ht⟩ := (operationCompletesWhenInputsAreWritten i u).1 hwu
  obtain ⟨htp, htdone⟩ := exec_phase_done ht
  obtain ⟨htpeek, htm, -⟩ := exec_unchanged ht
  have htlatch : t.opLatch = u.opLatch := Option.some.inj (htpeek (.reg .ctrl) (ctrl_not_input_output i).2)
  have hend : RunsTo 2 u (hostRead 4 (.reg .status) (takeMove t)) :=
    runsTo_succ.2 ⟨t, (hexec i rfl).trans ht,
      runsTo_succ.2 ⟨_, step_poll_idle htp (htm.trans hum), runsTo_zero _⟩⟩
  refine ⟨k + 2, _, runsTo_add hrun hend, htp, ?_, htlatch.trans hlatch, htdone, fun l hctrl hl => ?_⟩
  · rw [hostRead_moves, takeMove_moves, htm, hum]; rfl
  · rw [hostRead_peek, takeMove_peek, htpeek l hl, hpeek l (not_started_of_not_output hctrl hl)]

/-! ### Loading `IBUF` -/

/-- `t` is `s` once the host has stored `bytes` in `IBUF` from `a` on: only those cells, the host's moves, what it
has read and the time to completion differ. -/
def StoredAt (a : Nat) (bytes : List Byte) (s t : State) : Prop :=
  ∃ m ms v b, t = { s with mem := { s.mem with ibuf := m }, moves := ms, rdata := v, busyFor := b } ∧
    ∀ k, Cells.read m k = Cells.read (Cells.writeRange s.mem.ibuf a bytes) k

/-- Storing no byte is the outside world's part alone. -/
theorem StoredAt.of_busyLater {a : Nat} {s t : State} (h : BusyLater s t) : StoredAt a [] s t := by
  obtain ⟨ms, v, b, rfl⟩ := h
  refine ⟨s.mem.ibuf, ms, v, b, rfl, fun k => ?_⟩
  rw [read_writeRange, if_neg (by simp)]

/-- Storing one byte string behind another stores both. -/
theorem StoredAt.append {a : Nat} {xs ys : List Byte} {s t u : State} (h : StoredAt a xs s t)
    (h' : StoredAt (a + xs.length) ys t u) : StoredAt a (xs ++ ys) s u := by
  obtain ⟨m, _, _, _, rfl, hm⟩ := h
  obtain ⟨m', ms, v, b, rfl, hm'⟩ := h'
  refine ⟨m', ms, v, b, rfl, fun k => ?_⟩
  have hm := hm k
  have hm' := hm' k
  simp only [read_writeRange, List.length_append] at hm hm' ⊢
  rw [hm', hm]
  by_cases hx : k < a + xs.length
  · by_cases ha : a ≤ k
    · rw [if_neg (by omega), if_pos ⟨ha, hx⟩, if_pos (by omega), List.getElem?_append_left (by omega)]
    · rw [if_neg (by omega), if_neg (by omega), if_neg (by omega)]
  · by_cases hy : k < a + xs.length + ys.length
    · rw [if_pos (by omega), if_pos (by omega), List.getElem?_append_right (by omega)]
      congr 1
      omega
    · rw [if_neg (by omega), if_neg (by omega), if_neg (by omega)]

theorem StoredAt.phase {a : Nat} {bytes : List Byte} {s t : State} (h : StoredAt a bytes s t) : t.phase = s.phase := by
  obtain ⟨_, _, _, _, rfl, -⟩ := h
  rfl

theorem StoredAt.obuf {a : Nat} {bytes : List Byte} {s t : State} (h : StoredAt a bytes s t) :
    t.mem.obuf = s.mem.obuf := by
  obtain ⟨_, _, _, _, rfl, -⟩ := h
  rfl

/-- The bytes stored are there. -/
theorem StoredAt.holds {a : Nat} {bytes : List Byte} {s t : State} (h : StoredAt a bytes s t) :
    Holds t.mem.ibuf a bytes := by
  obtain ⟨m, _, _, _, rfl, hm⟩ := h
  intro k hk
  exact (hm (a + k)).trans (holds_writeRange s.mem.ibuf a bytes k hk)

/-- Every other location holds what it held. -/
theorem StoredAt.peek {a : Nat} {bytes : List Byte} {s t : State} (h : StoredAt a bytes s t) {l : Loc}
    (hl : ∀ j, j < bytes.length → l ≠ .cell .ibuf (a + j)) : t.peek l = s.peek l := by
  obtain ⟨m, _, _, _, rfl, hm⟩ := h
  cases l with
  | reg r => cases r <;> rfl
  | reserved o => rfl
  | cell sp k =>
    cases sp with
    | ibuf =>
      have hout : ¬ (a ≤ k ∧ k < a + bytes.length) := by
        rintro ⟨h1, h2⟩
        exact hl (k - a) (by omega) (by rw [Nat.add_sub_cancel' h1])
      have hread : Cells.read m k = Cells.read s.mem.ibuf k := by rw [hm, read_writeRange, if_neg hout]
      exact congrArg (Option.map _) hread
    | obuf | hdr | gbm | pal | pix => rfl

/-- From `s` the host stores `bytes` in `IBUF` from `a` on in `n` steps, and comes to the moves `ms`. -/
def RunStores (n a : Nat) (bytes : List Byte) (ms : List Move) (s : State) : Prop :=
  ∃ t, RunsTo n s t ∧ StoredAt a bytes s t ∧ t.moves = ms

/-- One step that stores `xs`, then a run that stores `ys`. -/
theorem RunStores.of_step {n a : Nat} {xs ys : List Byte} {ms : List Move} {s t : State} (hstep : step s = .next t)
    (hstored : StoredAt a xs s t) (h : RunStores n (a + xs.length) ys ms t) :
    RunStores (n + 1) a (xs ++ ys) ms s := by
  obtain ⟨u, hrun, hu, hum⟩ := h
  exact ⟨u, runsTo_succ.2 ⟨t, hstep, hrun⟩, hstored.append hu, hum⟩

/-- No step stores no byte. -/
theorem RunStores.nil {a : Nat} {ms : List Move} {s : State} (hm : s.moves = ms) : RunStores 0 a [] ms s :=
  ⟨s, runsTo_zero s, .of_busyLater (.refl s), hm⟩

/-- A host write to `IBUF[a]` in phase IDLE stores one byte (10_state.md R27). -/
theorem step_write_ibuf {s : State} {a : Nat} {d : Datum} {v : Byte} {ms : List Move} (hp : s.phase = .idle)
    (hm : s.moves = writeMove (.cell .ibuf a) d :: ms) (ha : a < Config.bufCap)
    (hv : (datumValue s d).setWidth 8 = v) : ∃ t, step s = .next t ∧ StoredAt a [v] s t ∧ t.moves = ms := by
  subst hv
  have hcell : ∀ sp i, Loc.cell .ibuf a = .cell sp i → i < Config.cells sp := by
    rintro sp i ⟨⟩
    exact ha
  refine ⟨_, step_write hp hm hcell nofun, ⟨_, _, _, _, rfl, fun k => rfl⟩, ?_⟩
  exact (takeMove_moves s).trans (by rw [hm]; rfl)

/-- A host read of a byte of `OBUF` in phase IDLE returns it (20_memory.md R45). -/
theorem step_read_obuf {s : State} {a : Nat} {v : Byte} {ms : List Move} (hp : s.phase = .idle)
    (hm : s.moves = readMove (.cell .obuf a) :: ms) (ha : a < Config.bufCap)
    (hv : Cells.read s.mem.obuf a = some v) :
    ∃ t, step s = .next t ∧ BusyLater s t ∧ t.moves = ms ∧ t.rdata = v.setWidth 32 := by
  have hpeek : (takeMove s).peek (.cell .obuf a) = some (v.setWidth 32) :=
    (takeMove_peek s _).trans (congrArg (Option.map _) (obufByte_of_read hv))
  refine ⟨_, step_read_idle hp hm (decodeAccess_readCell (sp := .obuf) ha), ?_, ?_, hostRead_rdata hpeek⟩
  · rw [hostRead, hpeek]
    exact ⟨_, _, _, rfl⟩
  · rw [hostRead_moves, takeMove_moves, hm]; rfl

/-- A byte survives the register interface (10_state.md R14). -/
theorem setWidth_byte (v : Byte) : (v.setWidth 32).setWidth 8 = v := by
  rw [BitVec.setWidth_setWidth_of_le v (by omega), BitVec.setWidth_eq]

/-- `LD IBUF` stores its bytes, one a step (30_encoding.md R76). -/
theorem storeMoves_runStores {a : Nat} {bytes : List Byte} {s : State} {ms : List Move} (hp : s.phase = .idle)
    (hm : s.moves = storeMoves .ibuf a (bytes.map (BitVec.setWidth 32)) ++ ms)
    (hcap : a + bytes.length ≤ Config.bufCap) : RunStores bytes.length a bytes ms s := by
  induction bytes generalizing a s with
  | nil => exact .nil hm
  | cons v vs ih =>
    rw [List.length_cons] at hcap
    obtain ⟨t, hstep, hstored, htm⟩ := step_write_ibuf hp hm (by omega) (setWidth_byte v)
    exact .of_step hstep hstored (ih (hstored.phase.trans hp) htm (by rw [List.length_singleton]; omega))

/-- `COPY IBUF, OBUF` stores the bytes `OBUF` holds, each by a read and a write (30_encoding.md R76). -/
theorem copyMoves_runStores {a k : Nat} {out : List Byte} {s : State} {ms : List Move} (hp : s.phase = .idle)
    (hm : s.moves = copyMoves a k out.length ++ ms) (hout : Holds s.mem.obuf a out)
    (ha : a + out.length ≤ Config.bufCap) (hk : k + out.length ≤ Config.bufCap) :
    RunStores (2 * out.length) k out ms s := by
  induction out generalizing a k s with
  | nil => exact .nil hm
  | cons v vs ih =>
    rw [List.length_cons] at ha hk
    obtain ⟨hv, hvs⟩ := holds_cons.1 hout
    obtain ⟨t, hst, hst', htm, htv⟩ := step_read_obuf hp hm (by omega) hv
    have hread : StoredAt k [] s t := .of_busyLater hst'
    have hdatum : (datumValue t .lastRead).setWidth 8 = v := by rw [datumValue, htv, setWidth_byte]
    obtain ⟨u, htu, hwritten, hum⟩ := step_write_ibuf (hread.phase.trans hp) htm (by omega) hdatum
    refine .of_step (n := 2 * vs.length + 1) hst hread (.of_step htu hwritten ?_)
    refine ih ((hwritten.phase.trans hread.phase).trans hp) hum ?_ (by omega) ?_
    · rwa [hwritten.obuf, hread.obuf]
    · rw [List.length_singleton]
      omega

/-- A write of `ILEN` after bytes are stored ends `IN` and `LOOP` (30_encoding.md R77). -/
theorem StoredAt.write_ilen {bytes : List Byte} {s t : State} {v : Word} {ms : List Move}
    (h : StoredAt 0 bytes s t) (hp : s.phase = .idle) (hm : t.moves = writeMove (.reg .ilen) (.lit v) :: ms) :
    ∃ u, step t = .next u ∧ u.phase = .idle ∧ u.moves = ms ∧ u.ilen = v ∧ Holds u.mem.ibuf 0 bytes ∧
      ∀ l, l ≠ .reg .ilen → (∀ j, j < bytes.length → l ≠ .cell .ibuf j) → u.peek l = s.peek l := by
  have htp := h.phase.trans hp
  refine ⟨_, step_write htp hm nofun nofun, htp, ?_, rfl, h.holds, fun l hilen hl => ?_⟩
  · exact (takeMove_moves t).trans (by rw [hm]; rfl)
  · rw [hostWrite_peek_of_ne (by decide) hilen, takeMove_peek]
    exact h.peek fun j hj => by rw [Nat.zero_add]; exact hl j hj

/-- Settles O24: the bytes are stored, then `ILEN` is written. -/
theorem inLoadsTheInput : Obligations.InLoadsTheInput := by
  intro s ms bytes hp hm hcap
  have hm' : s.moves = storeMoves .ibuf 0 (bytes.map (BitVec.setWidth 32)) ++
      writeMove (.reg .ilen) (.lit (BitVec.ofNat 32 bytes.length)) :: ms := by
    rw [hm]
    simp [pseudoMoves, expandPseudo, stmtMoves]
  obtain ⟨t, hrun, hstored, htm⟩ := storeMoves_runStores hp hm' (by rwa [Nat.zero_add])
  obtain ⟨u, hstep, hup, hum, hilen, hholds, hframe⟩ := hstored.write_ilen hp htm
  have hlen : u.ilen.toNat = bytes.length := by
    rw [hilen, BitVec.toNat_ofNat, Nat.mod_eq_of_lt (by omega)]
  exact ⟨u, runsTo_add hrun (runsTo_succ.2 ⟨u, hstep, runsTo_zero u⟩), hup, hum, ⟨hlen, hcap, hholds⟩, hframe⟩

/-- `LOOP` in phase IDLE reads `OLEN` and goes on with its expansion (30_encoding.md R77). -/
theorem step_loop {s : State} {ms : List Move} (hp : s.phase = .idle) (hm : s.moves = .loop :: ms) :
    step s = .next { takeMove s with rdata := s.olen, moves := loopMoves s.olen ++ ms } := by
  rw [step_host (.inl hp) hm]
  simp only [hostMove, hp, hm, List.tail_cons]

/-- The expansion of `LOOP` (30_encoding.md R77). -/
theorem loopMoves_append (olen : Word) (ms : List Move) :
    loopMoves olen ++ ms = copyMoves 0 0 olen.toNat ++ writeMove (.reg .ilen) (.lit olen) :: ms := by
  simp [loopMoves, expandPseudo, stmtMoves]

/-- Settles O23: `OLEN` is read, the result is copied byte by byte, then `ILEN` is written. -/
theorem loopFeedsTheResultBack : Obligations.LoopFeedsTheResultBack := by
  intro s ms out hp hm hout hcap
  obtain ⟨hlen, hbytes⟩ := hout
  obtain ⟨t, hst, hread, htm⟩ : ∃ t, step s = .next t ∧ StoredAt 0 [] s t ∧ t.moves = loopMoves s.olen ++ ms :=
    ⟨_, step_loop hp hm, .of_busyLater ⟨_, _, _, rfl⟩, rfl⟩
  rw [loopMoves_append, hlen] at htm
  have hcopy := copyMoves_runStores (hread.phase.trans hp) htm (by rwa [hread.obuf]) (by rwa [Nat.zero_add])
    (by rwa [Nat.zero_add])
  obtain ⟨u, hrun, hstored, hum⟩ := RunStores.of_step hst hread hcopy
  obtain ⟨x, hstep, hx⟩ := hstored.write_ilen hp hum
  exact ⟨_, x, runsTo_add hrun (runsTo_succ.2 ⟨x, hstep, runsTo_zero x⟩), hx⟩

end Sys2Proof.Machine
end

section
/-! The checksum function (40_checksum.md R90, R93) and the operations CSUM and CSVAL (R91, R92): what the range
registers select, then how each operation ends. -/

namespace Sys2Proof.Machine

/-! ### The checksum function -/

@[simp] theorem byteSum_cons (u : Byte) (bytes : List Byte) : byteSum (u :: bytes) = u.toNat + byteSum bytes := by
  rw [byteSum, List.map_cons, List.sum_cons, ← byteSum]

@[simp] theorem byteSum_append (a b : List Byte) : byteSum (a ++ b) = byteSum a + byteSum b := by
  rw [byteSum, List.map_append, List.sum_append, ← byteSum, ← byteSum]

/-- The checksum is the arithmetic sum modulo 65536 (40_checksum.md R90). -/
theorem sum16_toNat (bytes : List Byte) : (sum16 bytes).toNat = byteSum bytes % 65536 :=
  BitVec.toNat_ofNat _ 16

/-- Two byte strings have one checksum exactly where their sums agree modulo 65536. -/
theorem sum16_eq_iff {a b : List Byte} : sum16 a = sum16 b ↔ byteSum a % 65536 = byteSum b % 65536 := by
  rw [← BitVec.toNat_inj, sum16_toNat, sum16_toNat]

/-- A different byte in one place is a different checksum: bytes differ by less than 65536 (40_checksum.md R93 (b)). -/
theorem sum16_ne_of_byte_ne (a b : List Byte) {u v : Byte} (h : u ≠ v) :
    sum16 (a ++ u :: b) ≠ sum16 (a ++ v :: b) := by
  have hne : u.toNat ≠ v.toNat := mt BitVec.eq_of_toNat_eq h
  have hu := u.isLt
  have hv := v.isLt
  rw [Ne, sum16_eq_iff, byteSum_append, byteSum_append, byteSum_cons, byteSum_cons]
  omega

/-- Replacing a byte moves the checksum by the difference of the bytes (40_checksum.md R93 (b)). -/
theorem sum16_replace (a b : List Byte) (u v : Byte) :
    ((sum16 (a ++ v :: b)).toNat : Int) =
      ((sum16 (a ++ u :: b)).toNat + ((v.toNat : Int) - u.toNat)) % 65536 := by
  rw [sum16_toNat, sum16_toNat, byteSum_append, byteSum_append, byteSum_cons, byteSum_cons]
  omega

/-- One byte up by one and a later one down by one, neither beyond the range of a byte, cancel (40_checksum.md
R93 (c)). -/
theorem sum16_opposite_changes (a b c : List Byte) {u v : Byte} (hu : u.toNat < 255) (hv : 0 < v.toNat) :
    sum16 (a ++ (u + 1) :: (b ++ (v - 1) :: c)) = sum16 (a ++ u :: (b ++ v :: c)) := by
  have hup : (u + 1).toNat = u.toNat + 1 := by bv_omega
  have hdown : (v - 1).toNat = v.toNat - 1 := by bv_omega
  simp only [sum16_eq_iff, byteSum_append, byteSum_cons, hup, hdown]
  omega

/-- Settles O39: the laws are those of a sum of naturals modulo 65536. -/
theorem checksumLaws : Obligations.ChecksumLaws := by
  refine ⟨fun a b => ?_, fun a b u v h => ⟨sum16_ne_of_byte_ne a b h, sum16_replace a b u v⟩,
    fun a b c u v hu hv => sum16_opposite_changes a b c hu hv, fun a => ?_⟩
  · rw [sum16_toNat, sum16_toNat, sum16_toNat, byteSum_append, Nat.add_mod]
  · rw [sum16_toNat]
    omega

/-! ### The range registers -/

/-- The input length and the range registers are legal (10_state.md R20, R22). -/
def RangeLegal (s : State) : Prop :=
  s.ilen.toNat ≤ 65539 ∧ s.rstart.toNat ≤ s.rend.toNat ∧ s.rend.toNat ≤ s.ilen.toNat

/-- A legal and written range is read as its bytes. -/
theorem rangeBytes_of_holds {s : State} {bytes : List Byte} (h : RangeLegal s)
    (hlen : bytes.length = s.rend.toNat - s.rstart.toNat) (hbytes : Holds s.mem.ibuf s.rstart.toNat bytes) :
    rangeBytes s = .ok bytes := by
  obtain ⟨hilen, hrange⟩ := h
  rw [rangeBytes, inputLength_ok hilen, bind_ok, require_true _ hrange, bind_ok, ibufBytes, ← hlen,
    fetchRange_of_holds hbytes]

/-- An illegal length or range raises BadOperand before a byte is read. -/
theorem rangeBytes_of_illegal {s : State} (h : ¬ RangeLegal s) :
    rangeBytes s = .error (.raised .badOperand) := by
  by_cases hilen : s.ilen.toNat ≤ 65539
  · rw [rangeBytes, inputLength_ok hilen, bind_ok, require_false _ fun hrange => h ⟨hilen, hrange⟩, bind_error]
  · exact inputLength_bind_eq_badOperand (not_le.1 hilen) _

/-! ### CSUM and CSVAL -/

/-- CSUM of a legal range (40_checksum.md R91). -/
theorem exec_csum_of_ok {s : State} {bytes : List Byte} (h : rangeBytes s = .ok bytes) :
    exec .csum s = .next (complete (commitSum bytes s)) := by
  change finish s (rangeBytes s) commitSum havocChecked = _
  rw [h, finish_ok]

/-- CSVAL where the sum is the expected one (40_checksum.md R92). -/
theorem exec_csval_of_match {s : State} {bytes : List Byte} (h : rangeBytes s = .ok bytes)
    (hsum : sum16 bytes = s.expect) : exec .csval s = .next (complete (commitSum bytes s)) := by
  rw [exec_csval_of_ok h, require_true _ hsum, finish_ok]

/-- CSVAL where it is not: the computed sum stays committed (40_checksum.md R92). -/
theorem exec_csval_of_mismatch {s : State} {bytes : List Byte} (h : rangeBytes s = .ok bytes)
    (hsum : sum16 bytes ≠ s.expect) :
    exec .csval s =
      .next (raiseError .checksumMismatch { commitSum bytes s with free := (commitSum bytes s).free + 1 }) := by
  rw [exec_csval_of_ok h, require_false _ hsum, finish_raised, id]

@[simp] theorem commitSum_valid (bytes : List Byte) (s : State) : (commitSum bytes s).valid = s.valid := rfl

/-- The end of an operation that committed a checksum and raised nothing. -/
theorem complete_commitSum_succeeded (bytes : List Byte) (s : State) :
    Succeeded s (complete (commitSum bytes s)) := by
  simp [Succeeded]

/-- CSUM and CSVAL raise BadOperand for an illegal length or range (10_state.md R20, R22). -/
theorem exec_fails_of_illegal_range {i : Instr} {s : State} (hi : i = .csum ∨ i = .csval) (h : ¬ RangeLegal s) :
    ∃ t, exec i s = .next t ∧ Failed .badOperand t ∧ Unchanged (outputs i) s t ∧ ObufNotStored s t := by
  have hrange := rangeBytes_of_illegal h
  obtain ⟨t, ht, hfailed⟩ : ∃ t, exec i s = .next t ∧ Failed .badOperand t := by
    rcases hi with rfl | rfl
    · exact finish_fails hrange _ _
    · rw [exec_csval_of_error hrange]
      exact finish_fails rfl _ _
  have hnone : i ∈ [Instr.csum, .csval, .pdec, .gbmode] := by rcases hi with rfl | rfl <;> decide
  exact ⟨t, ht, hfailed, exec_unchanged ht, (exec_noResult hnone ht).2⟩

/-- Settles O37. -/
theorem csumSumsTheRange : Obligations.CsumSumsTheRange := by
  refine ⟨by decide, fun s => ⟨fun bytes hilen hstart hend hlen hbytes => ?_,
    exec_fails_of_illegal_range (.inl rfl)⟩⟩
  have ht := exec_csum_of_ok (rangeBytes_of_holds ⟨hilen, hstart, hend⟩ hlen hbytes)
  obtain ⟨holen, hobuf⟩ := exec_noResult (by decide) ht
  exact ⟨_, ht, complete_commitSum_succeeded bytes s, sum16_toNat bytes, holen, exec_unchanged ht, hobuf⟩

/-- On a legal and written range CSVAL leaves the sum, and succeeds exactly where it is the expected one. -/
theorem exec_csval_compares {s : State} {bytes : List Byte} (h : rangeBytes s = .ok bytes) :
    ∃ t, exec .csval s = .next t ∧ t.sum = sum16 bytes ∧ (sum16 bytes = s.expect → Succeeded s t) ∧
      (sum16 bytes ≠ s.expect → Failed .checksumMismatch t) := by
  by_cases hsum : sum16 bytes = s.expect
  · exact ⟨_, exec_csval_of_match h hsum, rfl, fun _ => complete_commitSum_succeeded bytes s,
      fun hne => absurd hsum hne⟩
  · exact ⟨_, exec_csval_of_mismatch h hsum, rfl, fun heq => absurd heq hsum, fun _ => raiseError_failed _ _⟩

/-- Settles O38: `exec_csval_compares`, with the sums compared as naturals. -/
theorem csvalComparesTheSum : Obligations.CsvalComparesTheSum := by
  refine ⟨by decide, fun s => ⟨fun bytes hilen hstart hend hlen hbytes => ?_,
    exec_fails_of_illegal_range (.inr rfl)⟩⟩
  obtain ⟨t, ht, hsum, hmatch, hmismatch⟩ :=
    exec_csval_compares (rangeBytes_of_holds ⟨hilen, hstart, hend⟩ hlen hbytes)
  obtain ⟨holen, hobuf⟩ := exec_noResult (by decide) ht
  have heq : byteSum bytes % 65536 = s.expect.toNat ↔ sum16 bytes = s.expect := by
    rw [← sum16_toNat, BitVec.toNat_inj]
  exact ⟨t, ht, by rw [hsum, sum16_toNat], holen, hmatch ∘ heq.1, hmismatch ∘ mt heq.2, exec_unchanged ht, hobuf⟩

end Sys2Proof.Machine
end

section
/-! The framer's operations (41_framer.md): building a command frame (R101 to R103), parsing a frame and the validity
wrapper (R105 to R108). -/

namespace Sys2Proof.Machine

/-! ### How a framer operation ends -/

/-- A completion step whose computation returned a result commits it. -/
theorem exec_of_ok {α : Type} {i : Instr} {s : State} {r : Result α} {a : α} {commit : α → State → State}
    {havoc : State → State} (hexec : exec i s = finish s r commit havoc) (hr : r = .ok a) :
    exec i s = .next (complete (commit a s)) := by
  rw [hexec, hr, finish_ok]

/-- A completion step whose computation raised `e` ends with it, inside the operation's output set. -/
theorem exec_fails {α : Type} {i : Instr} {s : State} {r : Result α} {e : ErrorName} {commit : α → State → State}
    {havoc : State → State} (hexec : exec i s = finish s r commit havoc) (hr : r = .error (.raised e)) :
    ∃ t, exec i s = .next t ∧ Failed e t ∧ Unchanged (outputs i) s t := by
  obtain ⟨t, ht, hfailed⟩ := finish_fails hr commit havoc
  rw [← hexec] at ht
  exact ⟨t, ht, hfailed, exec_unchanged ht⟩

/-- Completing leaves what `Succeeded` says, if what was committed keeps VALID (10_state.md R12, R16). -/
theorem complete_succeeded {s u : State} (h : u.valid = s.valid) : Succeeded s (complete u) :=
  ⟨rfl, rfl, rfl, h, rfl⟩

/-- What `OutputIs` says of a committed byte string that fits `OBUF` (10_state.md R21, R27). -/
theorem complete_setOutput_outputIs {bytes : List Byte} (h : bytes.length ≤ Config.bufCap) (s : State) :
    OutputIs (complete (setOutput bytes s)) bytes :=
  ⟨setOutput_olen_toNat h s, holds_setOutput bytes s⟩

/-! ### Building -/

/-- A payload that leaves the size field in 16 bits is framed (41_framer.md R100). -/
theorem buildFrame_ok {n : Nat} (h : n ≤ 65532) (c : Byte) (p : List Byte) :
    buildFrame c n (.ok p) = .ok (envelope (c :: p)) := by
  rw [buildFrame, require_true _ (by omega), bind_ok, bind_ok, pure_ok]

/-- BUILD.B frames a written input of at most 65532 bytes (41_framer.md R103). -/
theorem buildInput_ok {s : State} {p : List Byte} (h : InputIs s p) (hp : p.length ≤ 65532) :
    buildInput s = .ok (envelope (s.cmdid :: p)) := by
  obtain ⟨hilen, hcap, hbytes⟩ := h
  have hfits : p.length + 7 ≤ Config.bufCap := Nat.add_le_add_right hp 7
  rw [buildInput, inputLength_ok (by omega), bind_ok, hilen, ibufBytes, fetchRange_of_holds hbytes,
    buildFrame_ok hp, bind_ok, require_true _ hfits, bind_ok, pure_ok]

/-- BUILD.B refuses a longer input before it reads a byte (41_framer.md R103). -/
theorem buildInput_tooLong {s : State} (h : 65532 < s.ilen.toNat) (hcap : s.ilen.toNat ≤ 65539) :
    buildInput s = .error (.raised .payloadTooLong) := by
  rw [buildInput, inputLength_ok hcap, bind_ok, buildFrame, require_false _ (by omega), bind_error, bind_error]

/-- A BUILD operation whose computation framed the payload `p` leaves the command frame, its size and its checksum. -/
theorem exec_builds {i : Instr} {s : State} {r : Result Built} {c : Byte} {p : List Byte}
    (hexec : exec i s = finish s r commitBuilt havocBuilt) (hr : r = .ok (envelope (c :: p)))
    (hp : p.length ≤ 65532) :
    ∃ t, exec i s = .next t ∧ Succeeded s t ∧ OutputIs t (commandFrame c p) ∧ t.olen.toNat = p.length + 7 ∧
      t.rsize.toNat = p.length + 3 ∧
      t.sum.toNat = ((p.length + 3) % 256 + (p.length + 3) / 256 + c.toNat + byteSum p) % 65536 ∧
      Unchanged (outputs i) s t := by
  obtain ⟨hframe, hsize, hchk⟩ := envelope_frame c p hp
  have ht := exec_of_ok hexec hr
  have hlen : (commandFrame c p).length = p.length + 7 := commandFrame_length c p
  have hcap : (envelope (c :: p)).frame.length ≤ Config.bufCap := by
    rw [hframe, hlen]
    exact Nat.add_le_add_right hp 7
  have hout : OutputIs (complete (commitBuilt (envelope (c :: p)) s)) (commandFrame c p) :=
    hframe ▸ complete_setOutput_outputIs hcap _
  exact ⟨_, ht, complete_succeeded rfl, hout, hout.1.trans hlen, hsize, hchk, exec_unchanged ht⟩

/-- Settles O40: `exec_builds` for the empty payload. -/
theorem buildNBuildsTheEmptyFrame : Obligations.BuildNBuildsTheEmptyFrame := by
  refine ⟨by decide, fun s => ?_⟩
  obtain ⟨t, ht, hok, hout, holen, hrsize, hsum, hframe⟩ :=
    exec_builds (exec_buildN_eq_finish s) (buildFrame_ok (by decide) s.cmdid []) (by decide)
  refine ⟨t, ht, hok, hout, BitVec.eq_of_toNat_eq holen, BitVec.eq_of_toNat_eq hrsize, ?_, hframe⟩
  have := s.cmdid.isLt
  rw [hsum, List.length_nil, byteSum, List.map_nil, List.sum_nil]
  omega

/-- Settles O41: `exec_builds` for the payload `IMM`. -/
theorem buildIBuildsTheOneByteFrame : Obligations.BuildIBuildsTheOneByteFrame := by
  refine ⟨by decide, fun s => ?_⟩
  obtain ⟨t, ht, hok, hout, holen, hrsize, hsum, hframe⟩ :=
    exec_builds (exec_buildI_eq_finish s) (buildFrame_ok (by decide) s.cmdid [s.imm]) (Nat.le_add_left 1 65531)
  refine ⟨t, ht, hok, hout, BitVec.eq_of_toNat_eq holen, BitVec.eq_of_toNat_eq hrsize, ?_, hframe⟩
  have := s.cmdid.isLt
  have := s.imm.isLt
  rw [hsum, List.length_singleton, byteSum, List.map_singleton, List.sum_singleton]
  omega

/-- Settles O42: `exec_builds` for the input, and the two refused ranges of `ILEN`. -/
theorem buildBFramesTheInput : Obligations.BuildBFramesTheInput :=
  ⟨by decide, fun s => ⟨fun _ hin hp => exec_builds rfl (buildInput_ok hin hp) hp,
    fun h hcap => exec_fails (r := buildInput s) rfl (buildInput_tooLong h hcap),
    inputLengthAboveCapacityIsBadOperand s .buildB (by decide)⟩⟩

/-! ### Parsing -/

/-- A parse that passes its checks returns the fields of the frame (41_framer.md R104 step 8, R105, R106). -/
theorem exec_parses {i : Instr} {s : State} {shape : Shape} {b : List Byte}
    (hexec : exec i s = finish s (parseInput s shape) commitParsed havocParsed) (hin : InputIs s b)
    (h : frameError shape b = none) :
    ∃ t, exec i s = .next t ∧ Succeeded s t ∧ t.rcmd = b.getD (idIndex shape) 0 ∧
      t.rsize.toNat = declaredSize b ∧ OutputIs t (slice b (payloadStart shape) (declaredSize b + 1)) ∧
      Unchanged (outputs i) s t := by
  have hr := parseInput_eq hin shape
  rw [h] at hr
  have ht := exec_of_ok hexec hr
  have hsize := declaredSize_lt b
  have hcap : (slice b (payloadStart shape) (declaredSize b + 1)).length ≤ Config.bufCap :=
    (slice_length_le _ _ _).trans (by rw [show Config.bufCap = 65539 from rfl]; omega)
  exact ⟨_, ht, complete_succeeded rfl, rfl, (BitVec.toNat_ofNat _ 16).trans (Nat.mod_eq_of_lt hsize),
    complete_setOutput_outputIs hcap _, exec_unchanged ht⟩

/-- A parse raises the first error of the check order (41_framer.md R104 to R106). -/
theorem exec_parse_fails {i : Instr} {s : State} {shape : Shape} {b : List Byte} {e : ErrorName}
    (hexec : exec i s = finish s (parseInput s shape) commitParsed havocParsed) (hin : InputIs s b)
    (h : frameError shape b = some e) :
    ∃ t, exec i s = .next t ∧ Failed e t ∧ Unchanged (outputs i) s t := by
  have hr := parseInput_eq hin shape
  rw [h] at hr
  exact exec_fails hexec hr

/-- Settles O43. -/
theorem parseFollowsTheCheckOrder : Obligations.ParseFollowsTheCheckOrder :=
  ⟨by decide, fun s => ⟨fun _ hin => ⟨exec_parses (shape := .command) rfl hin,
    fun _ => exec_parse_fails (shape := .command) rfl hin⟩,
    inputLengthAboveCapacityIsBadOperand s .parse (by decide)⟩⟩

/-- Settles O44. -/
theorem parserFollowsTheCheckOrder : Obligations.ParserFollowsTheCheckOrder :=
  ⟨by decide, fun s => ⟨fun _ hin => ⟨exec_parses (shape := .response) rfl hin,
    fun _ => exec_parse_fails (shape := .response) rfl hin⟩,
    inputLengthAboveCapacityIsBadOperand s .parser (by decide)⟩⟩

/-- Every error of the check order is of class 1 or 2 (41_framer.md R104, 60_exceptions.md R161, R172). -/
theorem protocolLevel_of_frameError {shape : Shape} {b : List Byte} {e : ErrorName}
    (h : frameError shape b = some e) : protocolLevel e = true := by
  simp only [frameError] at h
  repeat' split at h
  all_goals cases h
  all_goals rfl

/-- ISVALID's computation answers whether the checks of a command frame pass (41_framer.md R107). -/
theorem verdict_parseInput {s : State} {b : List Byte} (hin : InputIs s b) :
    verdict (parseInput s .command) = .ok (frameError .command b).isNone := by
  rw [parseInput_eq hin]
  cases h : frameError .command b with
  | none => rfl
  | some e =>
    change (if protocolLevel e then _ else _) = _
    rw [if_pos (protocolLevel_of_frameError h), Option.isNone_some]

/-- Settles O45: ISVALID commits the verdict on its input. -/
theorem isvalidConvertsParseFailures : Obligations.IsvalidConvertsParseFailures := by
  refine ⟨by decide, fun s => ⟨fun b hin => ?_, inputLengthAboveCapacityIsBadOperand s .isvalid (by decide)⟩⟩
  have ht : exec .isvalid s = _ := exec_of_ok rfl (verdict_parseInput hin)
  exact ⟨_, ht, rfl, rfl, rfl, rfl, rfl, Option.isNone_iff_eq_none, fun _ => protocolLevel_of_frameError,
    exec_unchanged ht⟩

/-- A frame that parses fills its input: the size check of R104 step 5 above, the length check of step 2 below
(41_framer.md R108). -/
theorem parseFrame_fills {s : State} {n : Nat} {shape : Shape} {p : Parsed}
    (h : parseFrame s n shape = .ok p) : n = p.size.toNat + 4 := by
  simp only [parseFrame, bind_eq_ok, require_eq_ok, pure_ok, Except.ok.injEq] at h
  obtain ⟨_, -, lo, -, hi, -, _, hlong, _, -, _, -, _, -, _, -, _, ⟨-, hshort⟩, _, -, _, -, _, -, _, -, _, -,
    _, -, _, -, rfl⟩ := h
  exact Nat.le_antisymm hshort hlong

/-- Settles O46. -/
theorem parsedFrameFillsTheInput : Obligations.ParsedFrameFillsTheInput := by
  intro s t i hi h he
  obtain ⟨shape, hexec⟩ : ∃ shape, exec i s = finish s (parseInput s shape) commitParsed havocParsed := by
    rcases hi with rfl | rfl
    · exact ⟨.command, rfl⟩
    · exact ⟨.response, rfl⟩
  obtain ⟨p, hp, rfl⟩ := finish_succeeds (hexec.symm.trans h) he
  obtain ⟨n, hn, hp⟩ := bind_eq_ok.1 hp
  obtain ⟨-, rfl⟩ := inputLength_eq_ok.1 hn
  exact parseFrame_fills hp

end Sys2Proof.Machine
end

section
/-! The round trip of a command frame (41_framer.md R109) and the corruption of one of its bits (R110). The facts hold
of every byte string that is a whole command frame; `commandFrame` builds one. -/

namespace Sys2Proof.Machine

/-! ### Whole command frames -/

/-- `b` is a command frame of `n` payload bytes with nothing behind it: its size field, its markers and its checksum
are right (30_encoding.md R61, R62, R64). -/
structure Framed (n : Nat) (b : List Byte) : Prop where
  length : b.length = n + 7
  size : declaredSize b = n + 3
  start : b.getD 0 0 = 0x01
  stop : b.getD (n + 6) 0 = 0x02
  checksum : byteSum (slice b 1 (n + 4)) % 65536 = (b.getD (n + 4) 0).toNat + 256 * (b.getD (n + 5) 0).toNat

/-- The checks of R104 that are left where the size field fits the buffer: the markers and the checksum. -/
theorem frameError_of_filled {n : Nat} {b : List Byte} (hlen : b.length = n + 7) (hsize : declaredSize b = n + 3) :
    frameError .command b =
      if b.getD 0 0 ≠ 0x01 then some .badStartMarker
      else if b.getD (n + 6) 0 ≠ 0x02 then some .badEndMarker
      else if byteSum (slice b 1 (n + 4)) % 65536 ≠
        (b.getD (n + 4) 0).toNat + 256 * (b.getD (n + 5) 0).toNat then some .checksumMismatch
      else none := by
  have hheader : ¬ n + 7 < 4 := by omega
  have hfields : ¬ (n + 3 < 4 - 1 ∨ n + 7 > n + 7) := by omega
  simp only [frameError, payloadStart, hlen, hsize, Nat.add_assoc, Nat.reduceAdd, if_neg hheader,
    if_neg (Nat.lt_irrefl _), if_neg hfields, reduceCtorEq, false_and, if_false]

/-- A whole command frame passes the checks of R104. -/
theorem Framed.frameError_eq_none {n : Nat} {b : List Byte} (h : Framed n b) : frameError .command b = none := by
  rw [frameError_of_filled h.length h.size, if_neg (not_not.2 h.start), if_neg (not_not.2 h.stop),
    if_neg (not_not.2 h.checksum)]

/-! ### The fields of a built frame -/

/-- The payload of a built frame (30_encoding.md R61). -/
theorem commandFrame_payload (c : Byte) (p : List Byte) : slice (commandFrame c p) 4 (p.length + 4) = p := by
  rw [slice, Nat.add_sub_cancel, commandFrame, List.append_assoc]
  exact List.take_left

/-- The checksummed body of a built frame: size, command id and payload (30_encoding.md R64). -/
theorem commandFrame_body (c : Byte) (p : List Byte) :
    slice (commandFrame c p) 1 (p.length + 4) =
      BitVec.ofNat 8 ((p.length + 3) % 256) :: BitVec.ofNat 8 ((p.length + 3) / 256) :: c :: p := by
  rw [slice, commandFrame, List.append_assoc]
  exact List.take_left (l₁ := _ :: _ :: c :: p)

/-- The last three bytes of a built frame: checksum and end marker (30_encoding.md R61). -/
theorem commandFrame_tail (c : Byte) (p : List Byte) (k : Nat) :
    (commandFrame c p).getD (p.length + 4 + k) 0 =
      let chk := ((p.length + 3) % 256 + (p.length + 3) / 256 + c.toNat + byteSum p) % 65536
      [BitVec.ofNat 8 (chk % 256), BitVec.ofNat 8 (chk / 256), 0x02].getD k 0 := by
  rw [commandFrame, List.getD_append_right _ _ _ _ (by simp)]
  congr 1
  simp

/-- BUILD's result is a whole command frame (41_framer.md R100, 30_encoding.md R61). -/
theorem commandFrame_framed (c : Byte) {p : List Byte} (hp : p.length ≤ 65532) :
    Framed p.length (commandFrame c p) where
  length := commandFrame_length c p
  size := by
    change (BitVec.ofNat 8 _).toNat + 256 * (BitVec.ofNat 8 _).toNat = _
    simp only [BitVec.toNat_ofNat]
    omega
  start := rfl
  stop := commandFrame_tail c p 2
  checksum := by
    have hlo := commandFrame_tail c p 0
    have hhi := commandFrame_tail c p 1
    rw [Nat.add_zero] at hlo
    rw [hlo, hhi, commandFrame_body]
    simp only [byteSum_cons, BitVec.toNat_ofNat, List.getD_cons_zero, List.getD_cons_succ]
    omega

/-! ### The round trip -/

/-- A state has one output byte string. -/
theorem OutputIs.unique {t : State} {f g : List Byte} (hf : OutputIs t f) (hg : OutputIs t g) : f = g := by
  obtain ⟨hflen, hfbytes⟩ := hf
  obtain ⟨hglen, hgbytes⟩ := hg
  refine List.ext_getElem? fun k => ?_
  by_cases hk : k < t.olen.toNat
  · rw [← hfbytes k (hflen ▸ hk), ← hgbytes k (hglen ▸ hk)]
  · rw [List.getElem?_eq_none (hflen ▸ not_lt.1 hk), List.getElem?_eq_none (hglen ▸ not_lt.1 hk)]

/-- Settles O47: what BUILD.B built is a whole command frame, so its checks pass and its fields are returned. -/
theorem parseOfBuiltFrameRoundTrips : Obligations.ParseOfBuiltFrameRoundTrips := by
  intro s p t f u hin hp hbuild hf hu
  obtain ⟨t', ht', -, hout, -⟩ := exec_builds (i := .buildB) rfl (buildInput_ok hin hp) hp
  obtain rfl : t' = t := Host.Outcome.next.inj (ht'.symm.trans hbuild)
  obtain rfl := hf.unique hout
  have hframed := commandFrame_framed s.cmdid hp
  obtain ⟨v, hv, hok, hrcmd, hrsize, hpayload, -⟩ := exec_parses (i := .parse) rfl hu hframed.frameError_eq_none
  rw [hframed.size] at hrsize hpayload
  obtain ⟨w, hw, -, -, herr, -, -, hvalid, -⟩ := (isvalidConvertsParseFailures.2 u).1 _ hu
  exact ⟨⟨v, hv, hok, hrcmd, commandFrame_payload s.cmdid p ▸ hpayload, hrsize⟩, w, hw, herr,
    hvalid.2 hframed.frameError_eq_none⟩

/-! ### One byte replaced -/

/-- The byte at the place of the new one. -/
theorem getD_set_self {l : List Byte} {j : Nat} (h : j < l.length) (v : Byte) : (l.set j v).getD j 0 = v := by
  rw [List.getD_eq_getElem?_getD, List.getElem?_set_self h, Option.getD_some]

/-- The bytes at the other places. -/
theorem getD_set_of_ne (l : List Byte) {i j : Nat} (h : j ≠ i) (v : Byte) : (l.set j v).getD i 0 = l.getD i 0 := by
  rw [List.getD_eq_getElem?_getD, List.getElem?_set_ne h, ← List.getD_eq_getElem?_getD]

/-- A byte of a slice (00_scope.md R6). -/
theorem slice_getD (l : List Byte) {i j k : Nat} (hij : i ≤ j) (hjk : j < k) :
    (slice l i k).getD (j - i) 0 = l.getD j 0 := by
  rw [slice, List.getD_eq_getElem?_getD, List.getElem?_take_of_lt (Nat.sub_lt_sub_right hij hjk), List.getElem?_drop,
    Nat.add_sub_cancel' hij, ← List.getD_eq_getElem?_getD]

/-- The length of a slice that lies inside (00_scope.md R6). -/
theorem slice_length {l : List Byte} {k : Nat} (hk : k ≤ l.length) (i : Nat) : (slice l i k).length = k - i := by
  rw [slice, List.length_take, List.length_drop, Nat.min_eq_left (Nat.sub_le_sub_right hk i)]

/-- Replacing a byte at or behind the start of a slice. -/
theorem slice_set (l : List Byte) {i j : Nat} (hij : i ≤ j) (k : Nat) (v : Byte) :
    slice (l.set j v) i k = (slice l i k).set (j - i) v := by
  rw [slice, slice, List.drop_set, if_neg (not_lt.2 hij), List.take_set]

/-- A byte outside the size field does not change the size. -/
theorem declaredSize_set_of_ne (b : List Byte) {j : Nat} (h : ¬ (1 ≤ j ∧ j ≤ 2)) (v : Byte) :
    declaredSize (b.set j v) = declaredSize b := by
  rw [declaredSize, getD_set_of_ne _ (by omega), getD_set_of_ne _ (by omega), ← declaredSize]

/-- A new byte of the size field changes the size. -/
theorem declaredSize_set_ne {b : List Byte} {j : Nat} (h : 1 ≤ j ∧ j ≤ 2) (hj : j < b.length) {v : Byte}
    (hv : v ≠ b.getD j 0) : declaredSize (b.set j v) ≠ declaredSize b := by
  have hne : v.toNat ≠ (b.getD j 0).toNat := mt BitVec.eq_of_toNat_eq hv
  obtain rfl | rfl : j = 1 ∨ j = 2 := by omega
  · rw [declaredSize, declaredSize, getD_set_self hj, getD_set_of_ne _ (by decide)]
    omega
  · rw [declaredSize, declaredSize, getD_set_self hj, getD_set_of_ne _ (by decide)]
    omega

/-- A new byte is a new sum modulo 65536 (40_checksum.md R93 (b)). -/
theorem byteSum_set_ne {l : List Byte} {j : Nat} (hj : j < l.length) {v : Byte} (hv : v ≠ l.getD j 0) :
    byteSum (l.set j v) % 65536 ≠ byteSum l % 65536 := by
  have hsplit : l = l.take j ++ l.getD j 0 :: l.drop (j + 1) := by
    rw [List.getD_eq_getElem l 0 hj, List.cons_getElem_drop_succ, List.take_append_drop]
  have hset : l.set j v = l.take j ++ v :: l.drop (j + 1) := by
    rw [List.set_eq_take_append_cons_drop, if_pos hj]
  have hne := sum16_ne_of_byte_ne (l.take j) (l.drop (j + 1)) hv
  rwa [← hset, ← hsplit, Ne, sum16_eq_iff] at hne

/-- The error of R110's table for a frame `b` of `n + 7` bytes of which byte `j` is wrong (41_framer.md R110). -/
def corruptionError (n j : Nat) (b : List Byte) : ErrorName :=
  if j = 0 then .badStartMarker
  else if j ≤ 2 then
    if n + 3 < declaredSize b then .packetIncomplete
    else if b.getD (declaredSize b + 3) 0 ≠ 0x02 then .badEndMarker
    else .badSize
  else if j ≤ n + 5 then .checksumMismatch
  else .badEndMarker

section
variable {n j : Nat} {b : List Byte}

theorem corruptionError_start (h : j = 0) : corruptionError n j b = .badStartMarker := if_pos h

theorem corruptionError_longer (h : 1 ≤ j ∧ j ≤ 2) (hsize : n + 3 < declaredSize b) :
    corruptionError n j b = .packetIncomplete := by
  rw [corruptionError, if_neg (by omega), if_pos h.2, if_pos hsize]

theorem corruptionError_shorter (h : 1 ≤ j ∧ j ≤ 2) (hsize : declaredSize b < n + 3) :
    corruptionError n j b = if b.getD (declaredSize b + 3) 0 ≠ 0x02 then .badEndMarker else .badSize := by
  rw [corruptionError, if_neg (by omega), if_pos h.2, if_neg (by omega)]

theorem corruptionError_checksum (h : 3 ≤ j ∧ j ≤ n + 5) : corruptionError n j b = .checksumMismatch := by
  rw [corruptionError, if_neg (by omega), if_neg (by omega), if_pos h.2]

theorem corruptionError_stop (h : j = n + 6) : corruptionError n j b = .badEndMarker := by
  rw [corruptionError, if_neg (by omega), if_neg (by omega), if_neg (by omega)]

end

/-- A size field that asks for more bytes than there are (41_framer.md R104 step 2). -/
theorem frameError_of_longer {n : Nat} {b : List Byte} (hlen : b.length = n + 7) (hsize : n + 3 < declaredSize b) :
    frameError .command b = some .packetIncomplete := by
  have hheader : ¬ n + 7 < 4 := by omega
  have hlong : n + 7 < declaredSize b + 4 := by omega
  simp only [frameError, payloadStart, hlen, if_neg hheader, if_pos hlong]

/-- A size field that leaves bytes behind the frame: the byte at its end is checked first (41_framer.md R104 steps 4
and 5). -/
theorem frameError_of_shorter {n : Nat} {b : List Byte} (hlen : b.length = n + 7) (hstart : b.getD 0 0 = 0x01)
    (hsize : declaredSize b < n + 3) :
    frameError .command b =
      some (if b.getD (declaredSize b + 3) 0 ≠ 0x02 then .badEndMarker else .badSize) := by
  have hheader : ¬ n + 7 < 4 := by omega
  have hlong : ¬ n + 7 < declaredSize b + 4 := by omega
  have hshort : declaredSize b < 4 - 1 ∨ n + 7 > declaredSize b + 4 := by omega
  simp only [frameError, payloadStart, hlen, if_neg hheader, if_neg hlong, if_neg (not_not.2 hstart),
    if_pos hshort, apply_ite some]

section
variable {n j : Nat} {b : List Byte} {v : Byte}

/-- A wrong byte of the body or of the checksum: exactly one side of the comparison changes (41_framer.md R110,
40_checksum.md R93). -/
theorem Framed.checksum_set_ne (h : Framed n b) (hj : 3 ≤ j ∧ j ≤ n + 5) (hv : v ≠ b.getD j 0) :
    byteSum (slice (b.set j v) 1 (n + 4)) % 65536 ≠
      ((b.set j v).getD (n + 4) 0).toNat + 256 * ((b.set j v).getD (n + 5) 0).toNat := by
  have hlen := h.length
  have hslice : (slice b 1 (n + 4)).length = n + 3 := slice_length (by omega) 1
  rw [slice_set b (by omega)]
  by_cases hbody : j ≤ n + 3
  · have hbyte : (slice b 1 (n + 4)).getD (j - 1) 0 = b.getD j 0 := slice_getD b (by omega) (by omega)
    rw [getD_set_of_ne b (by omega), getD_set_of_ne b (by omega), ← h.checksum]
    exact byteSum_set_ne (by omega) (hbyte ▸ hv)
  · have hne : v.toNat ≠ (b.getD j 0).toNat := mt BitVec.eq_of_toNat_eq hv
    rw [List.set_eq_of_length_le (by omega), h.checksum]
    obtain rfl | rfl : j = n + 4 ∨ j = n + 5 := by omega
    · rw [getD_set_self (by omega), getD_set_of_ne b (by omega)]
      omega
    · rw [getD_set_self (by omega), getD_set_of_ne b (by omega)]
      omega

/-- A whole command frame with one byte replaced does not parse, and the place of the byte names the error
(41_framer.md R110). -/
theorem Framed.frameError_set (h : Framed n b) (hj : j < n + 7) (hv : v ≠ b.getD j 0) :
    frameError .command (b.set j v) = some (corruptionError n j (b.set j v)) := by
  have hjlen : j < b.length := h.length ▸ hj
  have hlen : (b.set j v).length = n + 7 := List.length_set.trans h.length
  by_cases hfield : 1 ≤ j ∧ j ≤ 2
  · have hsize : declaredSize (b.set j v) ≠ n + 3 := h.size ▸ declaredSize_set_ne hfield hjlen hv
    have hstart : (b.set j v).getD 0 0 = 0x01 := (getD_set_of_ne b (by omega) v).trans h.start
    rcases lt_or_gt_of_ne hsize with hshorter | hlonger
    · rw [frameError_of_shorter hlen hstart hshorter, corruptionError_shorter hfield hshorter]
    · rw [frameError_of_longer hlen hlonger, corruptionError_longer hfield hlonger]
  · have hsize : declaredSize (b.set j v) = n + 3 := (declaredSize_set_of_ne b hfield v).trans h.size
    rw [frameError_of_filled hlen hsize]
    by_cases hfirst : j = 0
    · have hstart : (b.set j v).getD 0 0 ≠ 0x01 := by
        subst hfirst
        rwa [getD_set_self hjlen, ← h.start]
      rw [if_pos hstart, corruptionError_start hfirst]
    have hstart : (b.set j v).getD 0 0 = 0x01 := (getD_set_of_ne b hfirst v).trans h.start
    rw [if_neg (not_not.2 hstart)]
    by_cases hlast : j = n + 6
    · have hstop : (b.set j v).getD (n + 6) 0 ≠ 0x02 := by
        subst hlast
        rwa [getD_set_self hjlen, ← h.stop]
      rw [if_pos hstop, corruptionError_stop hlast]
    have hstop : (b.set j v).getD (n + 6) 0 = 0x02 := (getD_set_of_ne b hlast v).trans h.stop
    have hbody : 3 ≤ j ∧ j ≤ n + 5 := by omega
    rw [if_neg (not_not.2 hstop), if_pos (h.checksum_set_ne hbody hv), corruptionError_checksum hbody]

end

/-! ### One bit inverted -/

/-- Inverting a bit changes the byte. -/
theorem xor_bit_ne (x : Byte) {k : Nat} (hk : k < 8) : x ^^^ BitVec.ofNat 8 (2 ^ k) ≠ x := by
  have hmask : ∀ k < 8, BitVec.ofNat 8 (2 ^ k) ≠ 0 := by decide
  intro h
  have hzero : x ^^^ (x ^^^ BitVec.ofNat 8 (2 ^ k)) = 0 := by rw [h, BitVec.xor_self]; rfl
  rw [← BitVec.xor_assoc, BitVec.xor_self, BitVec.zero_xor] at hzero
  exact hmask k hk hzero

/-- Settles O48: a built frame is whole, and inverting a bit replaces one byte of it by another. -/
theorem singleBitCorruptionIsDetected : Obligations.SingleBitCorruptionIsDetected := by
  intro c p j k u hp hj hk hin
  have herr : frameError .command (flipBit (commandFrame c p) j k) =
      some (corruptionError p.length j (flipBit (commandFrame c p) j k)) :=
    (commandFrame_framed c hp).frameError_set hj (xor_bit_ne _ hk)
  obtain ⟨v, hv, hfailed, -⟩ := exec_parse_fails (i := .parse) rfl hin herr
  obtain ⟨w, hw, -, -, hwerr, -, -, hvalid, -⟩ := (isvalidConvertsParseFailures.2 u).1 _ hin
  have hinvalid : w.valid = false := by
    rw [← Bool.not_eq_true, hvalid, herr]
    exact Option.some_ne_none _
  exact ⟨v, _, hv, hfailed, protocolLevel_of_frameError herr, corruptionError_start,
    fun ⟨hlow, hhigh, hsize⟩ => corruptionError_longer ⟨hlow, hhigh⟩ hsize,
    fun ⟨hlow, hhigh, hsize⟩ => corruptionError_shorter ⟨hlow, hhigh⟩ hsize,
    corruptionError_checksum, corruptionError_stop, w, hw, hwerr, hinvalid⟩

end Sys2Proof.Machine
end

section
/-! The payload fields (42_payload_fields.md): the split into palette and image (R120 to R122) and the GetBoxMode
fields (R123). -/

namespace Sys2Proof.Machine

/-! ### The payload split -/

/-- A byte of a part of a byte string is a byte of the string. -/
theorem getD_take_drop (d : List Byte) (a : Nat) {n k : Nat} (hk : k < n) :
    ((d.drop a).take n).getD k 0 = d.getD (a + k) 0 := by
  have hslice := slice_getD d (Nat.le_add_right a k) (Nat.add_lt_add_left hk a)
  rwa [slice, Nat.add_sub_cancel_left, Nat.add_sub_cancel_left] at hslice

/-- A table of `n` colours that fits has `3 * n` bytes (42_payload_fields.md R122). -/
theorem table_length {d : List Byte} {a n : Nat} (hd : a + 3 * n ≤ d.length) :
    ((d.drop a).take (3 * n)).length = 3 * n := by
  rw [List.length_take, List.length_drop]
  omega

/-- Entry `k` of the table at `a` is the colour of its three bytes, red first (42_payload_fields.md R122). -/
theorem coloursOf_table_toNat {d : List Byte} {a n k : Nat} (hd : a + 3 * n ≤ d.length) (hk : k < n) :
    ((coloursOf ((d.drop a).take (3 * n))).getD k 0).toNat =
      (d.getD (a + 3 * k) 0).toNat * 65536 + (d.getD (a + 1 + 3 * k) 0).toNat * 256 +
        (d.getD (a + 2 + 3 * k) 0).toNat := by
  rw [coloursOf_getD (table_length hd) hk, colour_toNat, getD_take_drop d a (by omega), getD_take_drop d a (by omega),
    getD_take_drop d a (by omega), show a + (3 * k + 1) = a + 1 + 3 * k by omega,
    show a + (3 * k + 2) = a + 2 + 3 * k by omega]

/-- What `PaletteIs` says of a palette stored from `PAL[0]` on, with its length in `PLEN`. -/
theorem paletteIs_of_writeRange {s t : State} {pal : List Colour} (hl : pal.length ≤ Config.palCap)
    (hplen : t.plen = BitVec.ofNat 32 pal.length) (hpal : t.mem.pal = Cells.writeRange s.mem.pal 0 pal) :
    PaletteIs s t pal := by
  have hcap : Config.palCap = 256 := rfl
  refine ⟨?_, hpal ▸ holds_writeRange _ 0 pal, fun k hk => ?_⟩
  · rw [hplen, BitVec.toNat_ofNat]
    omega
  · have hread : Cells.read t.mem.pal k = Cells.read s.mem.pal k := by
      rw [hpal, read_writeRange, if_neg (by omega)]
    exact congrArg (Option.map (BitVec.setWidth 32)) hread

/-- A split that finds a palette and an image leaves both, with later `PAL` entries as before. -/
theorem exec_splits {i : Instr} {s : State} {h : Nat} {p : SplitPayload}
    (hexec : exec i s = finish s (splitInput s h) commitSplit havocSplit) (hp : splitInput s h = .ok p) :
    ∃ t, exec i s = .next t ∧ Succeeded s t ∧ PaletteIs s t p.palette ∧ OutputIs t p.image ∧
      Unchanged (outputs i) s t := by
  obtain ⟨hpal, himage⟩ := splitInput_length hp
  have ht := exec_of_ok hexec hp
  exact ⟨_, ht, complete_succeeded rfl, paletteIs_of_writeRange hpal rfl rfl,
    complete_setOutput_outputIs himage _, exec_unchanged ht⟩

/-- PSPLIT.S and PSPLIT.M are the split with a header of 10 and of 9 bytes (42_payload_fields.md R120, R121). -/
theorem exec_psplit_eq_finish {i : Instr} {h : Nat} (hi : i = .psplitS ∧ h = 10 ∨ i = .psplitM ∧ h = 9)
    (s : State) : exec i s = finish s (splitInput s h) commitSplit havocSplit := by
  rcases hi with ⟨rfl, rfl⟩ | ⟨rfl, rfl⟩ <;> rfl

/-- Settles O49: `splitInput_ok` and `splitInput_short` for the two header lengths, the palette read off the table. -/
theorem payloadSplitFindsPaletteAndImage : Obligations.PayloadSplitFindsPaletteAndImage := by
  refine ⟨by decide, by decide,
    fun s i h hi => ⟨fun d hin => ⟨fun hcount htable => ?_, fun hshort => ?_⟩, ?_⟩⟩
  · obtain ⟨t, ht, hok, hpal, hout, hframe⟩ :=
      exec_splits (exec_psplit_eq_finish hi s) (splitInput_ok hin hcount htable)
    have hlen : (coloursOf ((d.drop (h + 1)).take (3 * (d.getD h 0).toNat))).length = (d.getD h 0).toNat :=
      coloursOf_length _ _ (table_length htable)
    exact ⟨t, _, ht, hok, hlen, fun k hk => coloursOf_table_toNat htable (hlen ▸ hk), hpal, hout, hframe⟩
  · exact exec_fails (exec_psplit_eq_finish hi s) (splitInput_short hin hshort)
  · exact inputLengthAboveCapacityIsBadOperand s i (by rcases hi with ⟨rfl, -⟩ | ⟨rfl, -⟩ <;> decide)

/-! ### The GetBoxMode fields -/

/-- GBMODE reads the first sixteen bytes of an input of at least sixteen (42_payload_fields.md R123). -/
theorem boxMode_ok {s : State} {fields : List Byte} (hlow : 16 ≤ s.ilen.toNat) (hcap : s.ilen.toNat ≤ 65539)
    (hlen : fields.length = 16) (hfields : Holds s.mem.ibuf 0 fields) : boxMode s = .ok fields := by
  rw [boxMode, Config.gbmLen, inputLength_ok hcap, bind_ok, require_true _ hlow, bind_ok, ibufBytes, ← hlen,
    fetchRange_of_holds hfields]

/-- A shorter input raises PayloadTooShort before a byte is read (42_payload_fields.md R123). -/
theorem boxMode_short {s : State} (h : s.ilen.toNat < 16) : boxMode s = .error (.raised .payloadTooShort) := by
  rw [boxMode, Config.gbmLen, inputLength_ok (by omega), bind_ok, require_false _ (not_le.2 h), bind_error]

/-- Settles O50: the three ranges of `ILEN`, each with what `exec_noResult` says of `OLEN` and `OBUF`. -/
theorem gbmodeCopiesTheSixteenFields : Obligations.GbmodeCopiesTheSixteenFields := by
  have hnone : Instr.gbmode ∈ [Instr.csum, .csval, .pdec, .gbmode] := by decide
  refine ⟨by decide, fun s => ⟨fun fields hlow hcap hlen hfields => ?_, fun hshort => ?_, fun hlong => ?_⟩⟩
  · have ht : exec .gbmode s = _ := exec_of_ok rfl (boxMode_ok hlow hcap hlen hfields)
    obtain ⟨holen, hobuf⟩ := exec_noResult hnone ht
    exact ⟨_, ht, complete_succeeded rfl, holds_ofList 0 fields, holen, exec_unchanged ht, hobuf⟩
  · obtain ⟨t, ht, hfailed, hframe⟩ := exec_fails (i := .gbmode) rfl (boxMode_short hshort)
    exact ⟨t, ht, hfailed, hframe, (exec_noResult hnone ht).2⟩
  · obtain ⟨t, ht, hfailed, hframe⟩ := inputLengthAboveCapacityIsBadOperand s .gbmode (by decide) hlong
    exact ⟨t, ht, hfailed, hframe, (exec_noResult hnone ht).2⟩

end Sys2Proof.Machine
end

section
/-! The parts of the pixel codec (43_pixel_codec.md): bits per pixel (R130), palette extraction (R131), the packing of
a bitstream into bytes (R133, R134) and the windows of packed index bits (R142). -/

namespace Sys2Proof.Machine

/-! ### Bits per pixel -/

/-- Settles O51: `bpp_spec` brackets `bpp n` as `Nat.clog` is bracketed by its two laws. -/
theorem bitsPerPixelIsCeilingOfLog : Obligations.BitsPerPixelIsCeilingOfLog := by
  intro n _ hn
  obtain ⟨hpos, -, hfits, hleast⟩ := bpp_spec hn
  refine le_antisymm ?_ (max_le hpos (Nat.clog_le_of_le_pow hfits))
  rcases hleast with hone | hlt
  · exact hone ▸ le_max_left _ _
  · have hclog : bpp n - 1 < Nat.clog 2 n := (Nat.lt_clog_iff_pow_lt Nat.one_lt_two).2 hlt
    exact le_max_of_le_right (Nat.le_of_pred_lt hclog)

/-! ### Palette extraction -/

/-- A colour already in the palette keeps the palette and takes its index there. -/
theorem extractFrom_cons_of_mem {pal : List Colour} {c : Colour} (h : c ∈ pal) (cs : List Colour) :
    extractFrom pal (c :: cs) = ((extractFrom pal cs).1, pal.idxOf c :: (extractFrom pal cs).2) := by
  rw [extractFrom, if_pos h]

/-- A new colour is appended to the palette and takes the next index. -/
theorem extractFrom_cons_of_not_mem {pal : List Colour} {c : Colour} (h : c ∉ pal) (cs : List Colour) :
    extractFrom pal (c :: cs) =
      ((extractFrom (pal ++ [c]) cs).1, pal.length :: (extractFrom (pal ++ [c]) cs).2) := by
  rw [extractFrom, if_neg h]

/-- The first colour opens the palette with index 0. -/
theorem extract_cons (c : Colour) (cs : List Colour) :
    extract (c :: cs) = ((extractFrom [c] cs).1, 0 :: (extractFrom [c] cs).2) :=
  extractFrom_cons_of_not_mem List.not_mem_nil cs

/-- Every index that extraction adds to the palette is given to a scanned colour. -/
theorem extractFrom_mem_of_added {pal cs : List Colour} {j : Nat} (hle : pal.length ≤ j)
    (hlt : j < (extractFrom pal cs).1.length) : j ∈ (extractFrom pal cs).2 := by
  induction cs generalizing pal with
  | nil => exact absurd hlt (not_lt.2 hle)
  | cons c cs ih =>
    by_cases hc : c ∈ pal
    · rw [extractFrom_cons_of_mem hc] at hlt ⊢
      exact List.mem_cons_of_mem _ (ih hle hlt)
    · rw [extractFrom_cons_of_not_mem hc] at hlt ⊢
      rcases hle.eq_or_lt with rfl | hlt'
      · exact List.mem_cons_self
      · exact List.mem_cons_of_mem _ (ih (by rwa [List.length_append]) hlt)

/-- An added index comes after the index before it, unless that one was in the palette already. -/
theorem extractFrom_pred_before {pal cs : List Colour} {p j : Nat} (hle : pal.length ≤ j)
    (h : (extractFrom pal cs).2[p]? = some (j + 1)) : ∃ q, q < p ∧ (extractFrom pal cs).2[q]? = some j := by
  induction cs generalizing pal p with
  | nil => cases h
  | cons c cs ih =>
    by_cases hc : c ∈ pal
    · rw [extractFrom_cons_of_mem hc] at h ⊢
      cases p with
      | zero =>
        have hidx : pal.idxOf c = j + 1 := Option.some.inj h
        have hlt := List.idxOf_lt_length_of_mem hc
        omega
      | succ p =>
        obtain ⟨q, hq, hj⟩ := ih hle h
        exact ⟨q + 1, Nat.succ_lt_succ hq, hj⟩
    · rw [extractFrom_cons_of_not_mem hc] at h ⊢
      cases p with
      | zero =>
        have hidx : pal.length = j + 1 := Option.some.inj h
        omega
      | succ p =>
        rcases hle.eq_or_lt with rfl | hlt
        · exact ⟨0, Nat.succ_pos p, rfl⟩
        · obtain ⟨q, hq, hj⟩ := ih (by rwa [List.length_append]) h
          exact ⟨q + 1, Nat.succ_lt_succ hq, hj⟩

/-- The palette opens with the first colour scanned. -/
theorem extract_head? {cs : List Colour} (h : cs ≠ []) : (extract cs).1.head? = cs.head? := by
  obtain ⟨c, cs, rfl⟩ := List.exists_cons_of_ne_nil h
  obtain ⟨⟨rest, hrest⟩, -⟩ := extractFrom_spec [c] cs (List.nodup_singleton c)
  rw [extract_cons, ← hrest]
  rfl

/-- Settles O52: `extract_spec`, and the two facts about the indices extraction adds to the empty palette. -/
theorem extractionListsColoursFirstSeen : Obligations.ExtractionListsColoursFirstSeen := by
  intro cs hcs
  obtain ⟨hpos, hle, hnodup, hlen, hindex⟩ := extract_spec (List.length_pos_iff.2 hcs)
  have hzero : (extract cs).2.head? = some 0 := by
    obtain ⟨c, cs, rfl⟩ := List.exists_cons_of_ne_nil hcs
    rw [extract_cons]
    rfl
  exact ⟨extract_head? hcs, hzero, hpos, hle, hnodup, hlen, hindex,
    fun j hj => extractFrom_mem_of_added (Nat.zero_le j) hj,
    fun p j h => extractFrom_pred_before (Nat.zero_le j) h⟩

/-- Distinct colours all enter the palette. -/
theorem extract_length_of_nodup {cs : List Colour} (h : 1 ≤ cs.length) (hnodup : cs.Nodup) :
    (extract cs).1.length = cs.length := by
  obtain ⟨-, hle, -, -, hindex⟩ := extract_spec h
  refine le_antisymm hle (hnodup.subperm fun c hc => ?_).length_le
  obtain ⟨p, hp, rfl⟩ := List.getElem_of_mem hc
  obtain ⟨j, -, -, hj⟩ := hindex p hp
  exact List.mem_of_getElem? (hj.trans (List.getElem?_eq_getElem hp))

/-! ### Packing -/

/-- Bit `k` of the number of a bit list is entry `k` of the list. -/
theorem numberOf_testBit (l : List Bool) (k : Nat) : (numberOf l).testBit k = l.getD k false := by
  induction l generalizing k with
  | nil => exact Nat.zero_testBit k
  | cons b l ih =>
    cases k with
    | zero => cases b <;> simp [numberOf, Nat.testBit_zero]
    | succ k =>
      have hhalf : (b.toNat + 2 * numberOf l) / 2 = numberOf l := by
        have := b.toNat_le
        omega
      rw [numberOf, Nat.testBit_succ, hhalf, ih, List.getD_cons_succ]

/-- The number of a bit list is the list reversed and read as a binary number, leftmost digit first. -/
theorem numberOf_eq_foldl_reverse (l : List Bool) :
    numberOf l = l.reverse.foldl (fun n b => 2 * n + b.toNat) 0 := by
  induction l with
  | nil => rfl
  | cons b l ih => rw [numberOf, List.reverse_cons, List.foldl_append, ← ih, Nat.add_comm]; rfl

/-- Bit `k` of a part of a bitstream. -/
theorem getD_take_drop_bits (bits : List Bool) (a n k : Nat) :
    ((bits.drop a).take n).getD k false = (decide (k < n) && bits.getD (a + k) false) := by
  by_cases hk : k < n <;> simp [List.getD_eq_getElem?_getD, hk]

/-- Byte `j` of a packed bitstream is the number of its group (43_pixel_codec.md R133). -/
theorem packBits_getElem? {bits : List Bool} {j : Nat} (h : 8 * j < bits.length) :
    (packBits bits)[j]? = some (BitVec.ofNat 8 (numberOf ((bits.drop (8 * j)).take 8))) := by
  rw [packBits, List.getElem?_map, groups_getElem? _ _ _ _ (by omega), Nat.mul_comm, Option.map_some]

/-- Bit `k` of byte `j` of a packed bitstream is stream bit `8j + k`, zero past the end (43_pixel_codec.md R133,
R134). -/
theorem packBits_getLsbD (bits : List Bool) (j : Nat) {k : Nat} (hk : k < 8) :
    ((packBits bits).getD j 0).getLsbD k = bits.getD (8 * j + k) false := by
  by_cases hj : 8 * j < bits.length
  · rw [List.getD_eq_getElem?_getD, packBits_getElem? hj, Option.getD_some, BitVec.getLsbD_ofNat, numberOf_testBit,
      getD_take_drop_bits, decide_eq_true hk, Bool.true_and, Bool.true_and]
  · rw [List.getD_eq_default _ _ (by rw [packBits_length]; omega), List.getD_eq_default _ _ (by omega)]
    exact BitVec.getLsbD_zero

/-- The mirror image of a group's number is the number of the group read without the reversal (00_scope.md R8,
43_pixel_codec.md R133). -/
theorem ofNat_numberOf_eq_rev8 {g : List Bool} (h : g.length = 8) :
    BitVec.ofNat 8 (numberOf g) = rev8 (BitVec.ofNat 8 (numberOf g.reverse)) := by
  refine BitVec.eq_of_getLsbD_eq fun k hk => ?_
  have hmirror : g.reverse.getD (8 - 1 - k) false = g.getD k false := by
    rw [List.getD_eq_getElem?_getD, List.getD_eq_getElem?_getD, List.getElem?_reverse (by omega)]
    congr 2
    omega
  rw [rev8, BitVec.getLsbD_reverse, BitVec.getMsbD_eq_getLsbD, BitVec.getLsbD_ofNat, BitVec.getLsbD_ofNat,
    numberOf_testBit, numberOf_testBit, hmirror, decide_eq_true hk, decide_eq_true (by omega : 8 - 1 - k < 8),
    Bool.true_and, Bool.true_and]

/-- Settles O53. -/
theorem packedByteIsReversedGroup : Obligations.PackedByteIsReversedGroup := by
  intro bits
  refine ⟨packBits_length bits, fun j hj => ?_⟩
  have hbyte := packBits_getElem? hj
  refine ⟨numberOf_eq_foldl_reverse _ ▸ hbyte, fun k hk => packBits_getLsbD bits j hk, fun hwhole => ?_⟩
  rw [hbyte, ofNat_numberOf_eq_rev8 hwhole, numberOf_eq_foldl_reverse, List.reverse_reverse]

/-! ### Windows of packed index bits -/

/-- The index bits as Safety.lean states them, zero past the end (43_pixel_codec.md R132, R136). -/
theorem indexBits_getD {b : Nat} (hb : 1 ≤ b) (idx : List Nat) (q : Nat) :
    (indexBits b idx).getD q false = streamBit b idx q := by
  by_cases hq : q < idx.length * b
  · rw [List.getD_eq_getElem?_getD, indexBits_getElem? hb hq, streamBit, decide_eq_true hq, Bool.true_and]
    rfl
  · rw [List.getD_eq_default _ _ (by rw [indexBits_length]; omega), streamBit, decide_eq_false hq, Bool.false_and]

/-- Bit `k` of window `i` of the index bits is bit `k` of index `i`; past the last index every bit is zero. -/
theorem streamBit_window {b : Nat} (idx : List Nat) (i : Nat) {k : Nat} (hk : k < b) :
    streamBit b idx (i * b + k) = (idx.getD i 0).testBit k := by
  have hdiv : (i * b + k) / b = i := by
    rw [Nat.mul_comm, Nat.mul_add_div (by omega), Nat.div_eq_of_lt hk, Nat.add_zero]
  have hmod : (i * b + k) % b = k := by rw [Nat.mul_comm, Nat.mul_add_mod, Nat.mod_eq_of_lt hk]
  rw [streamBit, hdiv, hmod]
  by_cases hi : i < idx.length
  · have hnext : (i + 1) * b ≤ idx.length * b := Nat.mul_le_mul_right b hi
    rw [Nat.succ_mul] at hnext
    rw [decide_eq_true (by omega), Bool.true_and]
  · rw [List.getD_eq_default _ _ (not_lt.1 hi), Nat.zero_testBit, Bool.and_false]

/-- The windows of packed index bits are the indices, then zeros (43_pixel_codec.md R142, R147). -/
theorem windowIndex_packBits {b : Nat} (hb : 1 ≤ b) {idx : List Nat} (hidx : ∀ j ∈ idx, j < 2 ^ b) {i : Nat}
    (hi : (i + 1) * b ≤ 8 * (packBits (indexBits b idx)).length) :
    windowIndex b (packBits (indexBits b idx)) i = idx.getD i 0 := by
  have hlt : idx.getD i 0 < 2 ^ b := by
    by_cases h : i < idx.length
    · rw [List.getD_eq_getElem _ _ h]
      exact hidx _ (List.getElem_mem h)
    · rw [List.getD_eq_default _ _ (not_lt.1 h)]
      exact Nat.two_pow_pos b
  rw [← numberOf_window (List.prefix_refl _) hi]
  refine Nat.eq_of_testBit_eq fun k => ?_
  rw [numberOf_testBit, getD_take_drop_bits]
  by_cases hk : k < b
  · have hpad : (bitsOfBytes (packBits (indexBits b idx))).getD (i * b + k) false =
        (indexBits b idx).getD (i * b + k) false := by
      rw [bitsOfBytes_packBits]
      by_cases hq : i * b + k < (indexBits b idx).length
      · exact List.getD_append _ _ _ _ hq
      · rw [List.getD_append_right _ _ _ _ (not_lt.1 hq), List.getD_eq_default _ _ (not_lt.1 hq),
          List.getD_eq_getElem?_getD, List.getElem?_getD_replicate_default_eq]
    rw [decide_eq_true hk, Bool.true_and, hpad, indexBits_getD hb, streamBit_window idx i hk]
  · rw [decide_eq_false hk, Bool.false_and,
      Nat.testBit_lt_two_pow (hlt.trans_le (Nat.pow_le_pow_right Nat.two_pos (not_lt.1 hk)))]

end Sys2Proof.Machine
end

section
/-! The encoding operations PENC and IMGBUILD (43_pixel_codec.md R132 to R141): the encoding of a pixel list, what each
of the two commits of it, and their errors. -/

namespace Sys2Proof.Machine

/-! ### The encoding of a pixel list -/

/-- The input of PENC and IMGBUILD: `NPIX`, in its legal range, and the pixels `PIX[0..NPIX)` (43_pixel_codec.md R136,
R138, R139). -/
structure PixelsAre (s : State) (c : List Colour) : Prop where
  npix : s.npix.toNat = c.length
  one_le : 1 ≤ c.length
  le_max : c.length ≤ 256
  holds : Holds s.mem.pix 0 c

/-- What PENC computes from the pixels `c`; `encodePixels_of_pixels` ties it to the model. -/
def encodingOf (c : List Colour) : Encoded :=
  { palette := (extract c).1
    bits := bpp (extract c).1.length
    stream := packBits (indexBits (bpp (extract c).1.length) (extract c).2) }

theorem encodePixels_of_pixels {s : State} {c : List Colour} (h : PixelsAre s c) :
    encodePixels s = .ok (encodingOf c) :=
  encodePixels_ok h.npix h.one_le h.le_max h.holds

/-- The palette has 1 to 256 entries, and there is one index per pixel (43_pixel_codec.md R131). -/
theorem PixelsAre.extract_lengths {s : State} {c : List Colour} (h : PixelsAre s c) :
    1 ≤ (extract c).1.length ∧ (extract c).1.length ≤ 256 ∧ (extract c).2.length = c.length := by
  obtain ⟨hpal, hpal', -, hidx, -⟩ := extract_spec h.one_le
  exact ⟨hpal, hpal'.trans h.le_max, hidx⟩

theorem PixelsAre.bytes_length_le {s : State} {c : List Colour} (h : PixelsAre s c) :
    (encodingOf c).bytes.length ≤ 1025 :=
  (encodePixels_length (encodePixels_of_pixels h)).2

/-- The stream has `ceil(NPIX * b / 8)` bytes (43_pixel_codec.md R136). -/
theorem PixelsAre.stream_length {s : State} {c : List Colour} (h : PixelsAre s c) :
    (encodingOf c).stream.length = (c.length * bpp (extract c).1.length + 7) / 8 := by
  obtain ⟨-, -, hidx⟩ := h.extract_lengths
  rw [encodingOf, packBits_length, indexBits_length, hidx]

@[simp] theorem paletteTable_length (pal : List Colour) : (paletteTable pal).length = 1 + 3 * pal.length := by
  rw [paletteTable, List.length_cons, flatten_rgb_length, Nat.add_comm]

theorem Encoded.bytes_length (e : Encoded) : e.bytes.length = 1 + 3 * e.palette.length + e.stream.length := by
  rw [Encoded.bytes, List.length_append, paletteTable_length]

/-- The stream begins right after the table (43_pixel_codec.md R135). -/
theorem Encoded.drop_bytes (e : Encoded) : e.bytes.drop (1 + 3 * e.palette.length) = e.stream :=
  List.drop_left' (paletteTable_length e.palette)

theorem Encoded.bytes_getD_stream (e : Encoded) (j : Nat) :
    e.bytes.getD (1 + 3 * e.palette.length + j) 0 = e.stream.getD j 0 := by
  rw [Encoded.bytes, List.getD_append_right _ _ _ _ (by rw [paletteTable_length]; omega), paletteTable_length,
    Nat.add_sub_cancel_left]

/-- The table opens with the count byte `N mod 256` (43_pixel_codec.md R135). -/
theorem Encoded.bytes_count (e : Encoded) : (e.bytes.getD 0 0).toNat = e.palette.length % 256 :=
  (BitVec.toNat_ofNat _ 8).trans (Nat.mod_mod _ _)

/-- The table holds red, green and blue of each palette entry in order (43_pixel_codec.md R135). -/
theorem Encoded.bytes_rgb (e : Encoded) {k : Nat} (hk : k < e.palette.length) :
    (e.bytes.getD (1 + 3 * k) 0).toNat = (e.palette.getD k 0).toNat / 65536 ∧
    (e.bytes.getD (2 + 3 * k) 0).toNat = (e.palette.getD k 0).toNat / 256 % 256 ∧
    (e.bytes.getD (3 + 3 * k) 0).toNat = (e.palette.getD k 0).toNat % 256 := by
  have hafter : ∀ j, e.bytes.getD (j + 1) 0 = ((e.palette.map rgb).flatten ++ e.stream).getD j 0 := fun _ => rfl
  have hrgb := flatten_rgb_bytes e.palette e.stream hk
  rwa [Nat.add_comm 1 (3 * k), hafter, Nat.add_right_comm 1 1, hafter, Nat.add_right_comm 2 1, hafter]

/-- The bits of the stream are the index bits in order, zero past the end (43_pixel_codec.md R136). -/
theorem encodingOf_stream_bit (c : List Colour) (q : Nat) :
    ((encodingOf c).stream.getD (q / 8) 0).getLsbD (q % 8) =
      streamBit (bpp (extract c).1.length) (extract c).2 q := by
  rw [encodingOf, packBits_getLsbD _ _ (Nat.mod_lt q (by omega)), Nat.div_add_mod, indexBits_getD (bpp_pos _)]

/-! ### PENC -/

theorem exec_penc_of_pixels {s : State} {c : List Colour} (h : PixelsAre s c) :
    exec .penc s = .next (complete (commitEncoded (encodingOf c) s)) :=
  exec_of_ok rfl (encodePixels_of_pixels h)

/-- `SOFF` counts the bytes before the table and the table's (43_pixel_codec.md R136, R141). -/
theorem PixelsAre.soff_toNat {s : State} {c : List Colour} (h : PixelsAre s c) {before : Nat} (hb : before ≤ 14) :
    (commitPalette before (encodingOf c) s).soff.toNat = before + (1 + 3 * (extract c).1.length) := by
  obtain ⟨-, hpal, -⟩ := h.extract_lengths
  change (BitVec.ofNat 32 (before + (1 + 3 * (extract c).1.length))).toNat = _
  rw [BitVec.toNat_ofNat, Nat.mod_eq_of_lt (by omega)]

/-- What PENC leaves on 1 to 256 written pixels: the palette, `BPP`, `SOFF` and the encoding (43_pixel_codec.md
R136). -/
theorem exec_penc_encodes {s t : State} {c : List Colour} (h : PixelsAre s c) (ht : exec .penc s = .next t) :
    Succeeded s t ∧ PaletteIs s t (extract c).1 ∧ t.bpp.toNat = bpp (extract c).1.length ∧
      t.soff.toNat = 1 + 3 * (extract c).1.length ∧ OutputIs t (encodingOf c).bytes := by
  rw [exec_penc_of_pixels h] at ht
  cases ht
  obtain ⟨-, hpal, -⟩ := h.extract_lengths
  have hbpp := bpp_le (extract c).1.length
  have hcap : (encodingOf c).bytes.length ≤ Config.bufCap := h.bytes_length_le.trans (by decide)
  refine ⟨complete_succeeded rfl, paletteIs_of_writeRange hpal rfl rfl, ?_,
    (h.soff_toNat (Nat.zero_le _)).trans (Nat.zero_add _), complete_setOutput_outputIs hcap _⟩
  change (BitVec.ofNat 4 (bpp (extract c).1.length)).toNat = _
  rw [BitVec.toNat_ofNat, Nat.mod_eq_of_lt (by omega)]

/-- More than 256 pixels are no legal operand (43_pixel_codec.md R138). -/
theorem encodePixels_tooMany {s : State} (h : 256 < s.npix.toNat) :
    encodePixels s = .error (.raised .badOperand) := by
  have hmax : ¬ s.npix.toNat ≤ Config.npixMax := not_le.2 h
  rw [encodePixels, require_false _ hmax, bind_error]

/-- No pixel is an empty input, whatever `PIX` holds (43_pixel_codec.md R139). -/
theorem encodePixels_empty {s : State} (h : s.npix = 0) : encodePixels s = .error (.raised .emptyInput) := by
  have hzero : s.npix.toNat = 0 := congrArg BitVec.toNat h
  rw [encodePixels, require_true _ (hzero ▸ Nat.zero_le _), bind_ok, require_false _ (not_not.2 hzero), bind_error]

/-- IMGBUILD raises what PENC's computation raises, before it reads the header (43_pixel_codec.md R141). -/
theorem buildImage_raises {s : State} {e : Stop} (h : encodePixels s = .error e) : buildImage s = .error e := by
  rw [buildImage, h, bind_error]

/-- An error of PENC's computation ends PENC and IMGBUILD alike (43_pixel_codec.md R139, R141). -/
theorem exec_encode_fails {s : State} {i : Instr} {e : ErrorName} (hi : i = .penc ∨ i = .imgbuild)
    (h : encodePixels s = .error (.raised e)) :
    ∃ t, exec i s = .next t ∧ Failed e t ∧ Unchanged (outputs i) s t := by
  rcases hi with rfl | rfl
  · exact exec_fails rfl h
  · exact exec_fails (r := buildImage s) rfl (buildImage_raises h)

/-- Settles O54: `exec_penc_encodes`, and the bytes of the encoding. -/
theorem pencEncodesThePixels : Obligations.PencEncodesThePixels := by
  refine ⟨by decide, fun s => ⟨fun c hnpix hpos hle hpix => ?_, fun h => exec_encode_fails (.inl rfl)
    (encodePixels_tooMany h), fun h => exec_encode_fails (.inl rfl) (encodePixels_empty h)⟩⟩
  have hpixels : PixelsAre s c := ⟨hnpix, hpos, hle, hpix⟩
  have ht := exec_penc_of_pixels hpixels
  obtain ⟨hok, hpal, hbpp, hsoff, hout⟩ := exec_penc_encodes hpixels ht
  refine ⟨_, (encodingOf c).bytes, ht, hok, hpal, hbpp, hsoff, hout, ?_, (encodingOf c).bytes_count,
    fun k hk => (encodingOf c).bytes_rgb hk, fun q _ => ?_, exec_unchanged ht⟩
  · rw [Encoded.bytes_length, hpixels.stream_length]
    rfl
  · exact ((encodingOf c).bytes_getD_stream (q / 8)).symm ▸ encodingOf_stream_bit c q

/-- Settles O55. -/
theorem emptyInputFailsFast : Obligations.EmptyInputFailsFast := by
  intro s i hi h
  obtain ⟨t, ht, hfailed, hframe⟩ := exec_encode_fails hi (encodePixels_empty h)
  have hcode : t.errcode = errorCode .emptyInput := by
    obtain ⟨-, -, -, -, hcode, -⟩ := hfailed
    exact hcode
  exact ⟨t, ht, hfailed, hcode, hframe⟩

/-! ### IMGBUILD -/

/-- IMGBUILD puts the header and the encoding in one envelope (43_pixel_codec.md R141). -/
theorem buildImage_ok {s : State} {c : List Colour} {header : List Byte} (h : PixelsAre s c)
    (hlen : header.length = 11) (hheader : Holds s.mem.hdr 0 header) :
    buildImage s = .ok { enc := encodingOf c, built := envelope (header ++ (encodingOf c).bytes) } := by
  rw [buildImage, encodePixels_of_pixels h, bind_ok, hdrBytes, Config.hdrLen, ← hlen, fetchRange_of_holds hheader,
    bind_ok, pure_ok]

/-- The envelope of an 11-byte header and an encoding is the command frame of the header's first byte
(30_encoding.md R61, R66). -/
theorem envelope_image {header bytes : List Byte} (hlen : header.length = 11) (hbytes : bytes.length ≤ 1025) :
    let b := envelope (header ++ bytes)
    b.frame = commandFrame (header.getD 0 0) (header.drop 1 ++ bytes) ∧ b.frame.length = 11 + bytes.length + 6 ∧
      b.size.toNat = 11 + bytes.length + 2 ∧
      b.chk.toNat = ((13 + bytes.length) % 256 + (13 + bytes.length) / 256 + byteSum header +
        byteSum bytes) % 65536 := by
  intro b
  obtain ⟨id, rest, rfl⟩ := List.exists_cons_of_length_eq_add_one hlen
  have hpayload : (rest ++ bytes).length = 10 + bytes.length := by
    rw [List.length_append, Nat.succ.inj hlen]
  obtain ⟨hframe, hsize, hchk⟩ := envelope_frame id (rest ++ bytes) (by omega)
  refine ⟨hframe, ?_, hsize.trans (by omega), hchk.trans ?_⟩
  · rw [envelope_length, List.length_append, hlen]
  · rw [hpayload, byteSum_append, byteSum_cons]
    omega

/-- Settles O56: `buildImage_ok`, with the envelope read as a command frame by `envelope_image`. -/
theorem imgbuildFramesWhatPencEncodes : Obligations.ImgbuildFramesWhatPencEncodes := by
  refine ⟨by decide, fun s => ⟨fun c header hnpix hpos hle hpix hlen hheader => ?_,
    fun h => exec_encode_fails (.inr rfl) (encodePixels_tooMany h),
    fun h => exec_encode_fails (.inr rfl) (encodePixels_empty h)⟩⟩
  have hpixels : PixelsAre s c := ⟨hnpix, hpos, hle, hpix⟩
  have hu := exec_penc_of_pixels hpixels
  obtain ⟨-, -, -, hsoff, hout⟩ := exec_penc_encodes hpixels hu
  have ht : exec .imgbuild s = _ := exec_of_ok rfl (buildImage_ok hpixels hlen hheader)
  have hbytes := hpixels.bytes_length_le
  obtain ⟨hframe, hframeLen, hsize, hchk⟩ := envelope_image hlen hbytes
  have hcap : (envelope (header ++ (encodingOf c).bytes)).frame.length ≤ Config.bufCap := by
    have hbuf : Config.bufCap = 65539 := rfl
    omega
  have himage := complete_setOutput_outputIs hcap
  refine ⟨_, _, _, hu, hout, ht, complete_succeeded rfl, hframe ▸ himage _, rfl, rfl, rfl, ?_,
    hsize, (himage _).1.trans hframeLen, hchk, exec_unchanged ht⟩
  rw [hsoff, Nat.add_comm]
  exact hpixels.soff_toNat (le_refl 14)

end Sys2Proof.Machine
end

section
/-! The decoding operation PDEC (43_pixel_codec.md R142 to R146), the round trip of an image through PENC and PDEC
(R147), and the palette of 256 colours that the wire loses (R148). -/

namespace Sys2Proof.Machine

/-! ### The decoding of a stream -/

/-- The input of PDEC: the stream, and a palette of 1 to 256 entries (43_pixel_codec.md R143). -/
structure StreamAndPaletteAre (s : State) (d : List Byte) (pal : List Colour) : Prop where
  input : InputIs s d
  plen : s.plen.toNat = pal.length
  one_le : 1 ≤ pal.length
  le_cap : pal.length ≤ 256
  holds : Holds s.mem.pal 0 pal

/-- What PDEC computes from the stream `d` and the palette `pal`; `decodePixels_of_stream` ties it to the model. -/
def decodingOf (d : List Byte) (pal : List Colour) : Decoded :=
  { bits := bpp pal.length
    pixels := (List.range (windowCount (bpp pal.length) d.length)).map fun i =>
      if windowIndex (bpp pal.length) d i < pal.length then some (pal.getD (windowIndex (bpp pal.length) d i) 0)
      else none
    trailing := 8 * d.length - windowCount (bpp pal.length) d.length * bpp pal.length }

theorem decodePixels_of_stream {s : State} {d : List Byte} {pal : List Colour} (h : StreamAndPaletteAre s d pal) :
    decodePixels s = .ok (decodingOf d pal) :=
  decodePixels_ok h.input h.plen h.one_le h.le_cap h.holds

theorem windowCount_le (b n : Nat) : windowCount b n ≤ 256 := Nat.min_le_left _ _

theorem decodingOf_pixels_length (d : List Byte) (pal : List Colour) :
    (decodingOf d pal).pixels.length = windowCount (bpp pal.length) d.length := by
  rw [decodingOf, List.length_map, List.length_range]

/-- The grid after PDEC, pixel by pixel: the palette entry of the window, black where its index is out of bounds and
where no window reaches (43_pixel_codec.md R143, R144, R146). -/
theorem decodingOf_grid_getElem? (d : List Byte) (pal : List Colour) {i : Nat} (hi : i < 256) :
    (decodingOf d pal).grid[i]? = some
      (if i < windowCount (bpp pal.length) d.length ∧ windowIndex (bpp pal.length) d i < pal.length then
        pal.getD (windowIndex (bpp pal.length) d i) 0 else 0) := by
  have hlen := decodingOf_pixels_length d pal
  have hmax : Config.npixMax = 256 := rfl
  rw [Decoded.grid, hlen, hmax]
  by_cases hw : i < windowCount (bpp pal.length) d.length
  · rw [List.getElem?_append_left (by rwa [List.length_map, hlen]), decodingOf, List.getElem?_map, List.getElem?_map,
      List.getElem?_range hw]
    by_cases hindex : windowIndex (bpp pal.length) d i < pal.length
    · simp [hw, hindex]
    · simp [hindex]
  · rw [List.getElem?_append_right (by rw [List.length_map, hlen]; omega), List.length_map, hlen,
      List.getElem?_replicate_of_lt (by omega), if_neg (fun h => hw h.1)]

/-- The skipped windows are those whose index is out of bounds (43_pixel_codec.md R144). -/
theorem decodingOf_count_none (d : List Byte) (pal : List Colour) :
    (decodingOf d pal).pixels.count none =
      ((List.range (windowCount (bpp pal.length) d.length)).filter fun i =>
        decide (pal.length ≤ windowIndex (bpp pal.length) d i)).length := by
  rw [decodingOf, List.count, List.countP_map, List.countP_eq_length_filter]
  congr 2
  funext i
  by_cases hindex : windowIndex (bpp pal.length) d i < pal.length
  · simp [hindex]
  · simp [hindex, not_lt.1 hindex]

/-! ### PDEC -/

/-- What PDEC leaves on a written input and palette (43_pixel_codec.md R143 to R146). -/
theorem exec_pdec_decodes {s : State} {d : List Byte} {pal : List Colour} (h : StreamAndPaletteAre s d pal) :
    let b := bpp pal.length
    let n := windowCount b d.length
    ∃ t, exec .pdec s = .next t ∧ Succeeded s t ∧
      (∀ i, i < 256 → Cells.read t.mem.pix i = some
        (if i < n ∧ windowIndex b d i < pal.length then pal.getD (windowIndex b d i) 0 else 0)) ∧
      t.bpp.toNat = b ∧
      t.skipcnt.toNat = ((List.range n).filter fun i => decide (pal.length ≤ windowIndex b d i)).length ∧
      t.trailbits.toNat = 8 * d.length - n * b := by
  intro b n
  have ht : exec .pdec s = _ := exec_of_ok rfl (decodePixels_of_stream h)
  obtain ⟨-, hcap, -⟩ := h.input
  refine ⟨_, ht, complete_succeeded rfl, fun i hi => ?_, ?_, ?_, ?_⟩
  · change Cells.read (Cells.ofList 0 (decodingOf d pal).grid) i = _
    rw [read_ofList, if_pos (Nat.zero_le i), Nat.sub_zero, decodingOf_grid_getElem? d pal hi]
  · have hb : b ≤ 8 := bpp_le pal.length
    change (BitVec.ofNat 4 b).toNat = b
    rw [BitVec.toNat_ofNat, Nat.mod_eq_of_lt (by omega)]
  · have hcount := List.count_le_length (a := none) (l := (decodingOf d pal).pixels)
    rw [decodingOf_pixels_length] at hcount
    have hn := windowCount_le (bpp pal.length) d.length
    change (BitVec.ofNat 32 ((decodingOf d pal).pixels.count none)).toNat = _
    rw [BitVec.toNat_ofNat, Nat.mod_eq_of_lt (by omega), decodingOf_count_none]
  · change (BitVec.ofNat 32 (8 * d.length - n * b)).toNat = _
    rw [BitVec.toNat_ofNat, Nat.mod_eq_of_lt (by omega)]

/-- A palette longer than `PAL` is no legal operand (43_pixel_codec.md R143). -/
theorem decodePixels_longPalette {s : State} (hilen : s.ilen.toNat ≤ 65539) (h : 256 < s.plen.toNat) :
    decodePixels s = .error (.raised .badOperand) := by
  have hcap : ¬ s.plen.toNat ≤ Config.palCap := not_le.2 h
  rw [decodePixels, inputLength_ok hilen, bind_ok, require_false _ hcap, bind_error]

/-- No palette raises EmptyPalette, after the length checks (43_pixel_codec.md R143). -/
theorem decodePixels_noPalette {s : State} (hilen : s.ilen.toNat ≤ 65539) (h : s.plen = 0) :
    decodePixels s = .error (.raised .emptyPalette) := by
  have hzero : s.plen.toNat = 0 := congrArg BitVec.toNat h
  rw [decodePixels, inputLength_ok hilen, bind_ok, require_true _ (hzero ▸ Nat.zero_le _), bind_ok,
    require_false _ (not_not.2 hzero), bind_error]

/-- Settles O57: `exec_pdec_decodes` and the two errors, each with what `exec_noResult` says of `OLEN` and `OBUF`. -/
theorem pdecDecodesTheStream : Obligations.PdecDecodesTheStream := by
  have hnone : Instr.pdec ∈ [Instr.csum, .csval, .pdec, .gbmode] := by decide
  refine ⟨by decide, fun s => ⟨fun d pal hin hplen hpos hle hpal => ?_, fun hbad => ?_, fun hilen hzero => ?_⟩⟩
  · obtain ⟨t, ht, hok, hpix, hbpp, hskip, htrail⟩ := exec_pdec_decodes ⟨hin, hplen, hpos, hle, hpal⟩
    obtain ⟨holen, hobuf⟩ := exec_noResult hnone ht
    exact ⟨t, ht, hok, hpix, hbpp, hskip, htrail, holen, exec_unchanged ht, hobuf⟩
  · obtain ⟨t, ht, hfailed, hframe⟩ : ∃ t, exec .pdec s = .next t ∧ Failed .badOperand t ∧
        Unchanged (outputs .pdec) s t := by
      by_cases hilen : s.ilen.toNat ≤ 65539
      · exact exec_fails (r := decodePixels s) rfl
          (decodePixels_longPalette hilen (hbad.resolve_left (not_lt.2 hilen)))
      · exact inputLengthAboveCapacityIsBadOperand s .pdec (by decide) (not_le.1 hilen)
    exact ⟨t, ht, hfailed, hframe, (exec_noResult hnone ht).2⟩
  · obtain ⟨t, ht, hfailed, hframe⟩ :=
      exec_fails (i := .pdec) (r := decodePixels s) rfl (decodePixels_noPalette hilen hzero)
    exact ⟨t, ht, hfailed, hframe, (exec_noResult hnone ht).2⟩

/-! ### The round trip of an image -/

/-- The windows of PENC's stream are the pixels' indices, then zeros: all inside the palette (43_pixel_codec.md
R147). -/
theorem PixelsAre.windowIndex_stream {s : State} {c : List Colour} (h : PixelsAre s c) {i : Nat}
    (hi : i < windowCount (bpp (extract c).1.length) (encodingOf c).stream.length) :
    windowIndex (bpp (extract c).1.length) (encodingOf c).stream i = (extract c).2.getD i 0 := by
  obtain ⟨hpal, hpal', -⟩ := h.extract_lengths
  obtain ⟨-, -, hfits, -⟩ := bpp_spec hpal'
  obtain ⟨-, -, -, hidx, hindex⟩ := extract_spec h.one_le
  refine windowIndex_packBits (bpp_pos _) (fun j hj => ?_) ?_
  · obtain ⟨p, hp, rfl⟩ := List.getElem_of_mem hj
    obtain ⟨j, hget, hlt, -⟩ := hindex p (hidx ▸ hp)
    rw [List.getElem?_eq_getElem hp] at hget
    exact (Option.some.inj hget ▸ hlt).trans_le hfits
  · exact (Nat.le_div_iff_mul_le (bpp_pos _)).1 (hi.trans_le (Nat.min_le_right _ _))

/-- The colour PENC's palette has for window `i`: the pixel, and for the pad the first colour (43_pixel_codec.md
R147). -/
theorem extract_getD_getD {c : List Colour} (h : 1 ≤ c.length) (i : Nat) :
    (extract c).2.getD i 0 < (extract c).1.length ∧
      (extract c).1.getD ((extract c).2.getD i 0) 0 = if i < c.length then c.getD i 0 else c.getD 0 0 := by
  obtain ⟨hpos, -, -, hidx, hindex⟩ := extract_spec h
  by_cases hi : i < c.length
  · obtain ⟨j, hget, hlt, hcolour⟩ := hindex i hi
    rw [if_pos hi, List.getD_eq_getElem?_getD (l := (extract c).2), hget, Option.getD_some,
      List.getD_eq_getElem?_getD, hcolour]
    exact ⟨hlt, rfl⟩
  · have hhead := extract_head? (List.length_pos_iff.1 h)
    rw [List.head?_eq_getElem?, List.head?_eq_getElem?] at hhead
    rw [if_neg hi, List.getD_eq_default _ _ (by omega), List.getD_eq_getElem?_getD, hhead]
    exact ⟨hpos, rfl⟩

/-- PDEC decodes every whole window of PENC's stream, at least the pixels themselves (43_pixel_codec.md R147). -/
theorem PixelsAre.le_windowCount {s : State} {c : List Colour} (h : PixelsAre s c) :
    c.length ≤ windowCount (bpp (extract c).1.length) (encodingOf c).stream.length := by
  refine le_min h.le_max ((Nat.le_div_iff_mul_le (bpp_pos _)).2 ?_)
  rw [h.stream_length]
  omega

/-- The state that PENC left and a state with its stream and palette (43_pixel_codec.md R147). -/
theorem PixelsAre.stream_and_palette {s t u : State} {c : List Colour} {out : List Byte} (h : PixelsAre s c)
    (ht : exec .penc s = .next t) (hout : OutputIs t out) (hin : InputIs u (out.drop t.soff.toNat))
    (hplen : u.plen = t.plen) (hpal : u.mem.pal = t.mem.pal) :
    StreamAndPaletteAre u (encodingOf c).stream (extract c).1 := by
  obtain ⟨-, ⟨hplen', hholds, -⟩, -, hsoff, hbytes⟩ := exec_penc_encodes h ht
  obtain ⟨hpos, hle, -⟩ := h.extract_lengths
  rw [hout.unique hbytes, hsoff] at hin
  exact ⟨(encodingOf c).drop_bytes ▸ hin, hplen ▸ hplen', hpos, hle, hpal ▸ hholds⟩

/-- Settles O58: the windows of PENC's stream are its indices, so PDEC looks up the pixels. -/
theorem imageRoundTrip : Obligations.ImageRoundTrip := by
  intro s c t out u hnpix hpos hle hpix ht hout hin hplen hpal
  have hpixels : PixelsAre s c := ⟨hnpix, hpos, hle, hpix⟩
  obtain ⟨-, -, hbpp, -, -⟩ := exec_penc_encodes hpixels ht
  obtain ⟨v, hv, hok, hgrid, hbits, hskip, htrail⟩ :=
    exec_pdec_decodes (hpixels.stream_and_palette ht hout hin hplen hpal)
  have hcount := hpixels.le_windowCount
  have hlen := hpixels.stream_length
  rw [hbpp]
  set b := bpp (extract c).1.length
  set n := windowCount b (encodingOf c).stream.length
  have hb : 1 ≤ b := bpp_pos _
  have hpixel : ∀ i, i < 256 → Cells.read v.mem.pix i =
      some (if i < n then if i < c.length then c.getD i 0 else c.getD 0 0 else 0) := by
    intro i hi
    rw [hgrid i hi]
    by_cases hin : i < n
    · obtain ⟨hlt, hcolour⟩ := extract_getD_getD hpos i
      rw [hpixels.windowIndex_stream hin, if_pos ⟨hin, hlt⟩, if_pos hin, hcolour]
    · rw [if_neg (fun h => hin h.1), if_neg hin]
  refine ⟨v, hv, hok, BitVec.eq_of_toNat_eq (hbits.trans hbpp.symm), BitVec.eq_of_toNat_eq (hskip.trans ?_),
    fun k hk => ?_, fun hfull => BitVec.eq_of_toNat_eq (htrail.trans ?_), fun i hlow hi => ?_⟩
  · refine List.length_eq_zero_iff.2 (List.filter_eq_nil_iff.2 fun i hi => ?_)
    rw [hpixels.windowIndex_stream (List.mem_range.1 hi), decide_eq_true_eq, not_le]
    exact (extract_getD_getD hpos i).1
  · rw [Nat.zero_add, hpixel k (by omega), if_pos (by omega), if_pos hk, List.getD_eq_getElem _ _ hk,
      List.getElem?_eq_getElem hk]
  · have hn : n = 256 := le_antisymm (windowCount_le _ _) (hfull ▸ hcount)
    rw [hn, hlen, hfull]
    change _ = 0
    omega
  · have hwhole : i < n ↔ i < 8 * ((c.length * b + 7) / 8) / b := by
      rw [← hlen]
      exact lt_min_iff.trans (and_iff_right hi)
    rw [hpixel i hi, if_neg (not_lt.2 hlow), if_congr hwhole rfl rfl]

/-! ### The palette of 256 colours on the wire -/

/-- Writing no value leaves a space as it is. -/
theorem writeRange_nil {w : Nat} (m : Cells w) : Cells.writeRange m 0 [] = m := by
  simp [Cells.writeRange, Cells.ofList]

/-- PENC of 256 distinct colours: a full palette, and 1025 bytes whose count byte is 0 (43_pixel_codec.md R148). -/
theorem PixelsAre.bytes_of_nodup {s : State} {c : List Colour} (h : PixelsAre s c) (hfull : c.length = 256)
    (hnodup : c.Nodup) :
    (extract c).1.length = 256 ∧ (encodingOf c).bytes.length = 1025 ∧ (encodingOf c).bytes.head? = some 0 := by
  have hpal : (extract c).1.length = 256 := (extract_length_of_nodup h.one_le hnodup).trans hfull
  have hbits : bpp 256 = 8 := rfl
  have hbytes : (encodingOf c).bytes.length = 1 + 3 * (extract c).1.length + (encodingOf c).stream.length :=
    (encodingOf c).bytes_length
  refine ⟨hpal, ?_, ?_⟩
  · rw [hbytes, h.stream_length, hpal, hfull, hbits]
  · change some (BitVec.ofNat 8 ((extract c).1.length % 256)) = _
    rw [hpal]
    rfl

/-- A count byte of 0 splits into no palette and the bytes after the count byte (42_payload_fields.md R122,
43_pixel_codec.md R148). -/
theorem splitInput_of_count_zero {s : State} {header out : List Byte} (hin : InputIs s (header ++ out))
    (hout : out.head? = some 0) :
    splitInput s header.length = .ok { palette := [], image := out.drop 1 } := by
  obtain ⟨rest, rfl⟩ : ∃ rest, out = 0 :: rest := by
    cases out with
    | nil => cases hout
    | cons x rest => exact ⟨rest, by rw [Option.some.inj hout]⟩
  have hcount : (header ++ 0 :: rest).getD header.length 0 = 0 := by
    rw [List.getD_append_right _ _ _ _ (le_refl _), Nat.sub_self, List.getD_cons_zero]
  have hlen : (header ++ (0 : Byte) :: rest).length = header.length + 1 + rest.length := by
    rw [List.length_append, List.length_cons]
    omega
  rw [splitInput_ok hin (by omega) (by rw [hcount, hlen]; exact Nat.le_add_right _ _), hcount]
  change Except.ok (SplitPayload.mk [] ((header ++ 0 :: rest).drop (header.length + 1))) = _
  rw [List.drop_length_add_append]

/-- Settles O59: the count byte of a full palette is 0, so the split finds no palette and PDEC has none. -/
theorem paletteOf256DoesNotSurviveTheWire : Obligations.PaletteOf256DoesNotSurviveTheWire := by
  intro s c t out header u hnpix hfull hnodup hpix ht hout hheader hin
  have hpixels : PixelsAre s c := ⟨hnpix.trans hfull.symm, by omega, by omega, hpix⟩
  obtain ⟨-, ⟨hplen, -⟩, -, -, hbytes⟩ := exec_penc_encodes hpixels ht
  obtain ⟨hpal, hlen, hhead⟩ := hpixels.bytes_of_nodup hfull hnodup
  rw [← hout.unique hbytes] at hlen hhead
  have hsplit := splitInput_of_count_zero hin hhead
  rw [hheader] at hsplit
  have hv : exec .psplitS u = _ := exec_of_ok rfl hsplit
  have hcap : (out.drop 1).length ≤ Config.bufCap := by
    rw [List.length_drop, hlen]
    decide
  have himage := complete_setOutput_outputIs hcap
  refine ⟨BitVec.eq_of_toNat_eq (hplen.trans hpal), hlen, hhead, _, hv, complete_succeeded rfl, rfl,
    writeRange_nil _, himage _, BitVec.eq_of_toNat_eq ((himage _).1.trans ?_), fun x hx hplen => ?_⟩
  · rw [List.length_drop, hlen]
    rfl
  · obtain ⟨hilen, hmax, -⟩ := hx
    obtain ⟨y, hy, hfailed, -⟩ := exec_fails (i := .pdec) (r := decodePixels x) rfl
      (decodePixels_noPalette (hilen ▸ hmax) hplen)
    exact ⟨y, hy, hfailed⟩

end Sys2Proof.Machine
end

section
/-! The control operations NOP (44_system.md R150) and CLEAR (R151). -/

namespace Sys2Proof.Machine

theorem exec_nop_eq (s : State) : exec .nop s = .next (complete s) := rfl

/-- Settles O35: NOP is the completion and nothing before it. -/
theorem nopOnlyCompletes : Obligations.NopOnlyCompletes :=
  ⟨rfl, fun s => ⟨complete s, exec_nop_eq s, complete_succeeded rfl, complete_unchanged s⟩⟩

/-- CLEAR always answers a next state: it reads nothing that could be unwritten (44_system.md R151). -/
theorem exec_clear_next (s : State) : ∃ t, exec .clear s = .next t := ⟨_, rfl⟩

/-- Settles O36: the registers the rule names are CLEAR's output set, which it zeroes and beyond which it changes
nothing. -/
theorem clearZeroesResultRegisters : Obligations.ClearZeroesResultRegisters := by
  refine ⟨rfl, fun s => ?_⟩
  obtain ⟨t, ht⟩ := exec_clear_next s
  obtain ⟨hidle, -⟩ := exec_phase_done ht
  have hnamed : [Reg.status, .errcode, .olen, .sum, .rcmd, .rsize, .bpp, .soff, .skipcnt, .trailbits] ⊆
      outputRegs .clear := by decide
  have hall : outputRegs .clear ⊆
      [Reg.status, .errcode, .olen, .sum, .rcmd, .rsize, .bpp, .soff, .skipcnt, .trailbits] := by decide
  exact ⟨t, ht, hidle, fun r hr => execClear_readReg ht r (hnamed hr),
    (execClear_unchanged ht).mono hall (List.Subset.refl _)⟩

end Sys2Proof.Machine
end

section
/-! Errors (60_exceptions.md): the table of the thirteen codes (R161, R162) and the state an operation that raises an
error leaves (R163). -/

namespace Sys2Proof.Machine

/-! ### The codes and their classes -/

/-- The thirteen errors, in the order of the table of 60_exceptions.md R162. -/
def errorNames : List ErrorName :=
  [.packetIncomplete, .badStartMarker, .badEndMarker, .badMagic, .badSize, .checksumMismatch, .payloadTooShort,
    .emptyInput, .emptyPalette, .paletteOverflow, .payloadTooLong, .badOperand, .illegalOp]

theorem mem_errorNames (e : ErrorName) : e ∈ errorNames := by cases e <;> decide

/-- The table of R162 lists no code twice. -/
theorem errorNames_codes_nodup : (errorNames.map errorCode).Nodup := by decide

theorem errorCode_injective : Function.Injective errorCode := fun e f =>
  List.inj_on_of_nodup_map errorNames_codes_nodup (mem_errorNames e) (mem_errorNames f)

/-- The number of a class (60_exceptions.md R161). -/
def ErrorClass.number : ErrorClass → Nat
  | .packetParsing => 1
  | .packetChecksum => 2
  | .payload => 3
  | .hostInterface => 4

/-- The high four bits of a code are the number of its class (60_exceptions.md R162). -/
theorem errorCode_div_eq_class_number (e : ErrorName) : (errorCode e).toNat / 16 = (errorClass e).number := by
  cases e <;> rfl

/-- The protocol-level classes are 1 and 2 (60_exceptions.md R172). -/
theorem protocolLevel_iff_class_number_le (e : ErrorName) :
    protocolLevel e = true ↔ (errorClass e).number ≤ 2 := by
  unfold protocolLevel
  cases errorClass e <;> decide

/-- Settles O34: the table row by row; the rest follows from the list of the codes and the numbers of the classes. -/
theorem errorCodesNameTheirClass : Obligations.ErrorCodesNameTheirClass := by
  refine ⟨by decide, fun e f hcode => errorCode_injective hcode, fun e => ⟨?_, ?_⟩⟩
  · rw [errorCode_div_eq_class_number]
    cases errorClass e <;> rfl
  · rw [errorCode_div_eq_class_number]
    exact protocolLevel_iff_class_number_le e

/-! ### After an error -/

/-- Settles O30: only a raise sets ERR, and no end of an operation leaves its output set. -/
theorem raisedErrorLeavesTheStatedState : Obligations.RaisedErrorLeavesTheStatedState :=
  fun _ _ _ hnext herr => ⟨exec_failed_of_err hnext herr, exec_unchanged hnext⟩

end Sys2Proof.Machine
end

section
/-! Reset in either phase (70_reset_and_hazards.md R190, R191) and rest in phase IDLE (R207). -/

namespace Sys2Proof.Machine

/-! ### Reset -/

/-- Where the next event is a host move, a reset asserted next is one step (70_reset_and_hazards.md R190). -/
theorem step_reset {s : State} {ms : List Move} (h : s.phase = .idle ∨ s.busyFor ≠ 0) (hm : s.moves = .reset :: ms) :
    step s = .next (resetStep (takeMove s)) :=
  step_host h hm

/-- After a reset only the outside world's part of the state can differ from the reset state (log entry 18). -/
theorem resetStep_outsideOnly (s : State) : OutsideOnly State.reset (resetStep s) :=
  ⟨s.moves, s.rdata, State.reset.busyFor, s.free, rfl⟩

/-- Settles O18: the step is a reset, and what a location holds does not depend on the outside world's part. -/
theorem resetMoveRestoresTheResetState : Obligations.ResetMoveRestoresTheResetState := by
  intro s ms hnow hm
  have hmoves : (resetStep (takeMove s)).moves = ms := congrArg List.tail hm
  exact ⟨_, step_reset hnow hm, rfl, hmoves, (resetStep_outsideOnly _).peek⟩

/-! ### Rest -/

/-- A state that steps to itself is where every run from it ends. -/
theorem runsTo_of_fixed {s : State} (h : step s = .next s) (k : Nat) : RunsTo k s s := by
  induction k with
  | zero => exact runsTo_zero s
  | succ k ih => exact runsTo_succ.mpr ⟨s, h, ih⟩

/-- Settles O19: a step without a host move in phase IDLE is a rest, which changes nothing. -/
theorem idleWithoutHostMovesRestsForEver : Obligations.IdleWithoutHostMovesRestsForEver :=
  fun _ k hidle hnone => runsTo_of_fixed (step_rest hidle hnone) k

end Sys2Proof.Machine
end
